-- ==== Sys2Proof/Word.lean ====
section
/-! DEFINITION. The word types of the BSU (spec 00_scope.md R6 to R8). -/

namespace Sys2Proof

/-- A byte of the sink or the source; a symbol (R6: `BYTE_W` = `SYM_W` = 8). -/
abbrev Byte := BitVec 8

/-- One host-port word, and one word of tree memory (R7: `HOST_W` = 32). -/
abbrev Word32 := BitVec 32

/-- A bit string in stream order: the head is the first bit written or read (R8). -/
abbrev Bits := List Bool

/-- A host-port word address (20_memory.md R41: 11 bits). -/
abbrev PortAddr := BitVec 11

/-- The index of a tree-memory entry (R7: `IDX_W` = 9). -/
abbrev Index := BitVec 9

end Sys2Proof
end

