-- ==== Sys2Proof/Machine/Bits.lean ====
section
/-! DEFINITION. Bit strings and bytes: the notation of 00_scope.md R8, most significant bit first (20_memory.md R44). -/

namespace Sys2Proof

/-- `bits8(v)` (R8): the eight bits of `v`, most significant first. -/
def bits8 (v : BitVec 8) : Bits :=
  [v.getLsbD 7, v.getLsbD 6, v.getLsbD 5, v.getLsbD 4, v.getLsbD 3, v.getLsbD 2, v.getLsbD 1, v.getLsbD 0]

/-- One bit as an 8-bit number, `zext_8(b)` (R8). -/
def zext8 (b : Bool) : BitVec 8 := (BitVec.ofBool b).setWidth 8

/-- Shift one bit into the low end of a byte: `((s << 1) | b)[7:0]` (42_treecodec.md R107). -/
def shiftIn (acc : BitVec 8) (b : Bool) : BitVec 8 := (acc <<< 1) ||| zext8 b

/-- `val8(s)` (R8): the byte whose bits, most significant first, are the (last) eight bits of `s`. -/
def val8 (s : Bits) : BitVec 8 := s.foldl shiftIn 0#8

/-- Byte `j` of `pack(s)` (R8): bit `7-i` is `s[8j+i]` where that exists and 0 elsewhere. -/
def packByte (s : Bits) (j : Nat) : BitVec 8 :=
  val8 ((List.range 8).map fun i => s.getD (8 * j + i) false)

/-- `pack(s)` (R8): `ceil(|s|/8)` bytes, zero-padded in the low-order bits of the last one. -/
def pack (s : Bits) : List Byte := (List.range ((s.length + 7) / 8)).map (packByte s)

/-- `unpack(B)` (R8): the bits of the bytes of `B` in order. -/
def unpack (bytes : List Byte) : Bits := bytes.flatMap bits8

/-- The low `n` bits of `w`, most significant first: `n` stream bits read as a number (30_encoding.md R65). -/
def bitsOf (n w : Nat) : Bits := ((List.range n).map fun i => w.testBit (n - 1 - i))

end Sys2Proof
end

