-- ==== Sys2Proof/Config.lean ====
section
/-! DEFINITION. The parameters of 00_scope.md R6 and R7 at their default values, and the free values: what the spec calls
`unspecified(N)` (00_scope.md R9), about which nothing may be assumed. -/

namespace Sys2Proof.Config

/-- `NODE_CAP` (R7), the number of entries of TMEM. DESIGN CHOICE (log 15): the spec's default; safe at that parameter. -/
def nodeCap : Nat := 511

/-- `NIL` (R7), the index that means "no child": `2^IDX_W - 1`. -/
def nil : Index := 511#9

/-- `ROOT` (R7), the index of the root entry for TSER and TDES. -/
def root : Index := 0#9

/-- `E_EOS` (20_memory.md R43), the error value of an exhausted source. -/
def eEos : Word32 := 1#32

/-- `PLACEHOLDER_FREQ` (R6), the frequency TDES gives a Leaf. -/
def placeholderFreq : Word32 := 1#32

/-- The host-port word address of word 0 of `TMEM[0]` (20_memory.md R41). -/
def tmemBase : Nat := 0x400

/-- FREE VALUE (log 5): `WACC` after the SinkError that makes draw number `n` (40_bitwriter.md R81). -/
opaque freeWacc : Nat → BitVec 8

/-- FREE VALUE (log 5): `WCNT` after the SinkError that makes draw number `n` (40_bitwriter.md R81). -/
opaque freeWcnt : Nat → BitVec 3

/-- FREE VALUE (log 6): `TNODES` after the faulting TDES that makes draw number `n` (42_treecodec.md R113). -/
opaque freeTnodes : Nat → BitVec 10

/-- FREE VALUE (logs 6 and 7): what the word of TMEM at host-port address `a` holds when nothing has written it since
epoch `e` began. Epoch 0 is power-up (10_state.md R29); a faulting TDES begins a new one (42_treecodec.md R113). -/
opaque freeWord : (e : Nat) → (a : Nat) → BitVec 32

end Sys2Proof.Config
end

