-- ==== Sys2Proof/Machine/Memory.lean ====
section
/-! DEFINITION. Word-addressed memory as plain data in one canonical form: a list of (address, word) pairs with strictly
rising addresses. An address not listed has NO value here: nothing has written it (log 7 says what such a word of TMEM
reads as). The cell is the 32-bit word, the smallest unit the spec addresses; it defines no byte order inside it
(20_memory.md R46, R48; log 9). -/

namespace Sys2Proof.Machine

/-- One word of memory at an address. -/
abbrev WordCell := Nat × BitVec 32

/-- Memory: the words something has written, by rising address. -/
abbrev WordMemory := List WordCell

/-- The word at address `a`, none when nothing has written it. -/
def memGet (m : WordMemory) (a : Nat) : Option (BitVec 32) :=
  match m with
  | [] => none
  | (k, v) :: rest => if k = a then some v else memGet rest a

/-- Write the word `w` at address `a`, keeping the addresses rising. -/
def memSet (m : WordMemory) (a : Nat) (w : BitVec 32) : WordMemory :=
  match m with
  | [] => [(a, w)]
  | (k, v) :: rest =>
    if a < k then (a, w) :: (k, v) :: rest
    else if a = k then (a, w) :: rest
    else (k, v) :: memSet rest a w

/-- Every address of `m` is above `b`, and they rise strictly. -/
def memRisesAbove (b : Nat) (m : WordMemory) : Bool :=
  match m with
  | [] => true
  | (k, _) :: rest => b < k && memRisesAbove k rest

/-- The canonical form: strictly rising addresses. (No entry can equal what an unlisted address holds, which is nothing.) -/
def Memory.wf (m : WordMemory) : Bool :=
  match m with
  | [] => true
  | (k, _) :: rest => memRisesAbove k rest

/-- Every listed address is a word of TMEM, `lo ≤ a < hi`. -/
def memWithin (lo hi : Nat) (m : WordMemory) : Bool :=
  match m with
  | [] => true
  | (k, _) :: rest => lo ≤ k && k < hi && memWithin lo hi rest

end Sys2Proof.Machine
end

