-- ==== Sys2Proof/Syntax.lean ====
section
/-! DEFINITION. The instruction set: one constructor per row of spec/opcode_table.json (30_encoding.md R60 to R66). -/

namespace Sys2Proof

/-- The five commands of the host's command port (30_encoding.md R62) and the two tokens of the serialised tree
(30_encoding.md R64). Every operand has exactly the width its encoding gives it. -/
inductive Instr where
  /-- `WBIT b`, source name `write_bit(b)`: command words 0x10 and 0x11 (R62, R82). -/
  | wbit (b : Bool)
  /-- `WFLUSH`, source name `flush()`: command word 0x20 (R62, R83). -/
  | wflush
  /-- `RBIT`, source name `read_bit()`: command word 0x30 (R62, R92). -/
  | rbit
  /-- `TSER`, source name `serialize(tree)`: command word 0x40 (R62, R106). -/
  | tser
  /-- `TDES`, source name `deserialize(bit source)`: command word 0x50 (R62, R107). -/
  | tdes
  /-- Token `TOK0`, the bit `0`: an Internal node; its left, then its right subtree's tokens follow (R64). -/
  | tok0
  /-- Token `TOK1`, the bits `1 s7 ... s0`: a Leaf with symbol `sym` (R64, R65). -/
  | tok1 (sym : BitVec 8)
  deriving DecidableEq, Repr

end Sys2Proof
end

