-- ==== Sys2Proof/Machine/State.lean ====
section
/-! DEFINITION. The state of the block and of its environment, as plain data (10_state.md R10 to R29), the reasons a step
can stop, and the state at power-up. -/

namespace Sys2Proof.Machine

/-- Why the machine stops. Neither is one of the block's own faults, which are next states (60_exceptions.md R163): both
are the stuck state of 60_exceptions.md R175, a transaction that never answers (log 3). -/
inductive Fault where
  /-- Raised by every operation that offers a byte to the sink (WBIT, WFLUSH, TSER, a host's direct write) when the
  sink never answers; in the host reference also by DECOMPRESS when its own output never answers. Safe: the machine makes no further step, as R175 says. -/
  | sinkNeverAnswers
  /-- Raised by every operation that asks the source for a byte (RBIT, TDES, the tokens, a host's direct read) when the
  source never answers. Safe: the machine makes no further step, as R175 says. -/
  | sourceNeverAnswers
  deriving DecidableEq, Repr

/-- Why a situation has no meaning in the model. -/
inductive Refusal where
  /-- An instruction without a meaning yet; raised by `exec`'s arms alone. Safe: nothing is claimed of it. -/
  | notModelled (mnemonic : String)
  /-- `write_bit` called with a value other than 0 and 1: a caller contract violation (30_encoding.md R73). Raised by
  `execCall` alone; no command of the port can express it. Safe: the spec asks for a refusal. -/
  | callerContract
  deriving DecidableEq, Repr

/-- The status of a completion: `OK` or one fault (60_exceptions.md R161). Codes 6 to 15 are never produced. -/
inductive StatusCode where
  | ok
  | sinkError
  | sourceError
  | illegalCommand
  | treeCapacity
  | treeInvariant
  deriving DecidableEq, Repr

/-- How the sink or the source answers a transaction (20_memory.md R42, R43; 60_exceptions.md R175). -/
inductive Answer where
  /-- The transaction succeeds (for a source that is not exhausted). -/
  | ok
  /-- The transaction fails with the opaque error value `e`. -/
  | fail (e : BitVec 32)
  /-- The transaction is never answered. -/
  | never
  deriving DecidableEq, Repr

/-- What the host can do (20_memory.md R41; 10_state.md R24, R25; 70_reset_and_hazards.md R190). -/
inductive HostAction where
  /-- Write a word at the host port. -/
  | write (addr : BitVec 11) (data : BitVec 32)
  /-- Read a word at the host port. -/
  | read (addr : BitVec 11)
  /-- Write one byte directly to the sink, beside BW. -/
  | sinkByte (v : BitVec 8)
  /-- Read one byte directly from the source, beside BR. -/
  | sourceByte
  /-- Pulse the reset input `rst`. -/
  | reset
  deriving DecidableEq, Repr

/-- What a host action hands back to the host. -/
inductive HostReply where
  /-- The word a port read returned. -/
  | word (w : BitVec 32)
  /-- The byte a direct read of the source returned. -/
  | byte (v : BitVec 8)
  /-- A direct stream access failed with this error value. -/
  | failed (e : BitVec 32)
  deriving DecidableEq, Repr

/-- The state. The first group is the block's, the second the environment's that the spec names, the third the spec's
ghost quantities, the fourth the model's own. -/
structure State where
  /-- `WACC`, the writer's in-progress byte (10_state.md R11). -/
  wacc : BitVec 8
  /-- `WCNT`, how many bits have been written into `WACC` (10_state.md R13). -/
  wcnt : BitVec 3
  /-- `RBYTE`, the reader's held byte, shifted left as bits are taken (10_state.md R15). -/
  rbyte : BitVec 8
  /-- `RCNT`, how many bits of `RBYTE` remain (10_state.md R16). -/
  rcnt : BitVec 4
  /-- `STATUS.W_ERR`, sticky (10_state.md R18). -/
  wErr : Bool
  /-- `STATUS.R_ERR`, sticky (10_state.md R18). -/
  rErr : Bool
  /-- `STATUS.T_ERR`, sticky (10_state.md R18). -/
  tErr : Bool
  /-- `STATUS.C_ERR`, sticky (10_state.md R18). -/
  cErr : Bool
  /-- `RESULT.CODE`, the status of the most recent command (10_state.md R19). -/
  code : StatusCode
  /-- `RESULT.VALUE`, the bit an RBIT returned (10_state.md R19). -/
  value : Bool
  /-- `ERRINFO` (10_state.md R20). -/
  errinfo : BitVec 32
  /-- `TNODES`, how many entries the most recent TDES allocated (10_state.md R21). -/
  tnodes : BitVec 10
  /-- `TMEM`, the words written since the epoch began, by host-port address (10_state.md R22; 20_memory.md R46). -/
  tmem : WordMemory
  /-- `SNK`, the bytes the sink has accepted (10_state.md R24). -/
  snk : List (BitVec 8)
  /-- `SRC`, the bytes the source delivers (10_state.md R25). -/
  src : List (BitVec 8)
  /-- `SPOS`, how many bytes of `SRC` have been consumed (10_state.md R25). -/
  spos : Nat
  /-- `WPOS`, ghost: how many bits `PutBit` has accepted since reset (10_state.md R12). -/
  wpos : Nat
  /-- `RPOS`, ghost: how many bits `GetBit` has returned since reset (10_state.md R12). -/
  rpos : Nat
  /-- MODEL (log 2): the sink's coming answers, the next one first; beyond the list it answers `ok`. -/
  snkAnswers : List Answer
  /-- MODEL (log 2): the source's coming answers, the next one first; beyond the list it answers `ok`. -/
  srcAnswers : List Answer
  /-- MODEL (log 1): what the host does from here on, the next action first. -/
  host : List HostAction
  /-- MODEL (log 19): what the host's latest action handed back to it. -/
  reply : Option HostReply
  /-- MODEL (log 8): how many free values have been drawn. -/
  draws : Nat
  /-- MODEL (log 8): the epoch whose free values the unlisted words of `tmem` hold. -/
  tmemEpoch : Nat
  deriving DecidableEq, Repr

/-- The machine at power-up, its reset input just released (10_state.md R29). The streams are empty and nothing is
listed for the host to do (logs 1, 2, 16); no word of TMEM has been written. -/
def State.reset : State where
  wacc := 0#8
  wcnt := 0#3
  rbyte := 0#8
  rcnt := 0#4
  wErr := false
  rErr := false
  tErr := false
  cErr := false
  code := .ok
  value := false
  errinfo := 0#32
  tnodes := 0#10
  tmem := []
  snk := []
  src := []
  spos := 0
  wpos := 0
  rpos := 0
  snkAnswers := []
  srcAnswers := []
  host := []
  reply := none
  draws := 0
  tmemEpoch := 0

end Sys2Proof.Machine
end

