-- ==== Sys2Proof/Machine/Flags.lean ====
section
/-! DEFINITION. The status registers: codes, the sticky bits, and the words STATUS and RESULT as the host port shows
them (10_state.md R18 to R20, R28; 60_exceptions.md R161 to R163). -/

namespace Sys2Proof.Machine

/-- The number of a status code (60_exceptions.md R161). -/
def codeBits (c : StatusCode) : BitVec 4 :=
  match c with
  | .ok => 0#4
  | .sinkError => 1#4
  | .sourceError => 2#4
  | .illegalCommand => 3#4
  | .treeCapacity => 4#4
  | .treeInvariant => 5#4

/-- The `STATUS` register (10_state.md R18): a view of `WCNT`, `RCNT` and the sticky bits; reserved bits read 0. -/
def statusWord (s : State) : BitVec 32 :=
  (0#20 ++ BitVec.ofBool s.cErr ++ BitVec.ofBool s.tErr ++ BitVec.ofBool s.rErr ++ BitVec.ofBool s.wErr
    ++ s.rcnt ++ 0#1 ++ s.wcnt).cast rfl

/-- The `RESULT` register (10_state.md R19): `CODE` in bits 3:0, `VALUE` in bit 8; reserved bits read 0. -/
def resultWord (s : State) : BitVec 32 :=
  (0#23 ++ BitVec.ofBool s.value ++ 0#4 ++ codeBits s.code).cast rfl

/-- A fault with its `info` (60_exceptions.md R161): the two I/O faults carry the sink's or source's error value. -/
inductive Cause where
  | sinkError (e : BitVec 32)
  | sourceError (e : BitVec 32)
  | illegalCommand
  | treeCapacity
  | treeInvariant
  deriving DecidableEq, Repr

/-- The status code of a fault (60_exceptions.md R161). -/
def causeCode (c : Cause) : StatusCode :=
  match c with
  | .sinkError _ => .sinkError
  | .sourceError _ => .sourceError
  | .illegalCommand => .illegalCommand
  | .treeCapacity => .treeCapacity
  | .treeInvariant => .treeInvariant

/-- What a fault records in `ERRINFO`: `e` verbatim for the I/O faults, else 0 (60_exceptions.md R161, R163 step 4). -/
def causeInfo (c : Cause) : BitVec 32 :=
  match c with
  | .sinkError e => e
  | .sourceError e => e
  | .illegalCommand => 0#32
  | .treeCapacity => 0#32
  | .treeInvariant => 0#32

/-- Set the sticky bit of a fault (60_exceptions.md R163 step 3). -/
def setSticky (c : Cause) (s : State) : State :=
  match c with
  | .sinkError _ => { s with wErr := true }
  | .sourceError _ => { s with rErr := true }
  | .illegalCommand => { s with cErr := true }
  | .treeCapacity => { s with tErr := true }
  | .treeInvariant => { s with tErr := true }

/-- Complete a command with `OK` and a value: `RESULT <- {CODE = OK, VALUE = v}` (60_exceptions.md R160, R162). -/
def completeOk (v : Bool) (s : State) : State := { s with code := .ok, value := v }

end Sys2Proof.Machine
end

