-- ==== Sys2Proof/Machine/Operands.lean ====
section
/-! DEFINITION. The entries of tree memory: their two words, their fields, how they are read and written
(10_state.md R22; 20_memory.md R46). -/

namespace Sys2Proof.Machine

/-- The host-port address of word 0 of entry `i` (20_memory.md R41). -/
def entryAddr (i : Nat) : Nat := Config.tmemBase + 2 * i

/-- Is this host-port word address a word of TMEM (20_memory.md R41)? -/
def isTmemAddr (a : Nat) : Bool := Config.tmemBase ≤ a && a < entryAddr Config.nodeCap

/-- The word of TMEM at host-port address `a`: what was last written there, else the free value of the epoch (logs 6, 7). -/
def tmemRead (s : State) (a : Nat) : BitVec 32 :=
  match memGet s.tmem a with
  | some w => w
  | none => Config.freeWord s.tmemEpoch a

/-- Write one word of TMEM at host-port address `a`. -/
def tmemWrite (a : Nat) (w : BitVec 32) (s : State) : State := { s with tmem := memSet s.tmem a w }

/-- Word 0 of entry `i`. -/
def entryWord0 (s : State) (i : Index) : BitVec 32 := tmemRead s (entryAddr i.toNat)

/-- Word 1 of entry `i`. -/
def entryWord1 (s : State) (i : Index) : BitVec 32 := tmemRead s (entryAddr i.toNat + 1)

/-- `tag`, bit 31 of word 0: 1 = Leaf, 0 = Internal (20_memory.md R46). -/
def entryTag (s : State) (i : Index) : Bool := (entryWord0 s i).getLsbD 31

/-- `sym`, bits 25:18 of word 0. -/
def entrySym (s : State) (i : Index) : BitVec 8 := (entryWord0 s i).extractLsb' 18 8

/-- `left`, bits 17:9 of word 0. -/
def entryLeft (s : State) (i : Index) : Index := (entryWord0 s i).extractLsb' 9 9

/-- `right`, bits 8:0 of word 0. -/
def entryRight (s : State) (i : Index) : Index := (entryWord0 s i).extractLsb' 0 9

/-- `freq`, word 1. -/
def entryFreq (s : State) (i : Index) : BitVec 32 := entryWord1 s i

/-- Word 0 of an entry from its fields, reserved bits 30:26 zero (20_memory.md R46). -/
def packWord0 (tag : Bool) (sym : BitVec 8) (left right : Index) : BitVec 32 :=
  (BitVec.ofBool tag ++ 0#5 ++ sym ++ left ++ right).cast rfl

/-- `TMEM[i] <- {tag, sym, left, right, freq}`: write all fields of an entry at once (00_scope.md R9). -/
def entryWrite (i : Index) (tag : Bool) (sym : BitVec 8) (left right : Index) (freq : BitVec 32) (s : State) : State :=
  tmemWrite (entryAddr i.toNat + 1) freq (tmemWrite (entryAddr i.toNat) (packWord0 tag sym left right) s)

/-- The Leaf entry TDES writes (42_treecodec.md R107): `left`, `right` = `NIL`, `freq` = 1. -/
def writeLeaf (i : Index) (sym : BitVec 8) (s : State) : State :=
  entryWrite i true sym Config.nil Config.nil Config.placeholderFreq s

/-- The Internal entry TDES writes (42_treecodec.md R107, R110): `sym` = 0, `freq` the children's sum modulo `2^FREQ_W`. -/
def writeInternal (i left right : Index) (s : State) : State :=
  entryWrite i false 0#8 left right (entryFreq s left + entryFreq s right) s

end Sys2Proof.Machine
end

