-- ==== Sys2Proof/Machine/Ops.lean ====
section
/-! DEFINITION. The operations every command is made of: the two stream primitives (20_memory.md R42, R43), fault entry
(60_exceptions.md R163), `PutBit` (40_bitwriter.md R80), `GetBit` (41_bitreader.md R90), entry allocation
(42_treecodec.md R107), and reset (70_reset_and_hazards.md R190 to R192). -/

namespace Sys2Proof.Machine

/-- How a piece of a command's pseudocode ends. -/
inductive Res (α : Type) where
  /-- It ran to its end, with a value. -/
  | done (a : α) (s : State)
  /-- `raise F(info)` was reached in this state; fault entry is still to come. -/
  | raised (c : Cause) (s : State)
  /-- A stream transaction is never answered (60_exceptions.md R175). -/
  | stuck (f : Fault)
  deriving DecidableEq, Repr

/-- Run `f` after a piece that ran to its end; a raise or a stuck transaction ends everything after it (R163 step 1). -/
def andThen {α β : Type} (r : Res α) (f : α → State → Res β) : Res β :=
  match r with
  | .done a s => f a s
  | .raised c s => .raised c s
  | .stuck e => .stuck e

/-- The next answer in a list of coming answers; beyond the list it is `ok` (log 2). -/
def nextAnswer (as : List Answer) : Answer :=
  match as with
  | [] => .ok
  | a :: _ => a

/-- `SnkWrite(v)` (20_memory.md R42): `ok` appends `v` to `SNK`; `fail(e)` raises SinkError(e), and `SNK`, the bytes the
sink has accepted, is unchanged (00_scope.md R9; log 4). -/
def snkWrite (v : BitVec 8) (s : State) : Res Unit :=
  match nextAnswer s.snkAnswers with
  | .ok => .done () { s with snk := s.snk ++ [v], snkAnswers := s.snkAnswers.tail }
  | .fail e => .raised (.sinkError e) { s with snkAnswers := s.snkAnswers.tail }
  | .never => .stuck .sinkNeverAnswers

/-- `SrcRead()` (20_memory.md R43): the next byte of `SRC`, or a failure. At the end of the source the failure is always
`E_EOS`; before it the environment may fail with its own value. DESIGN CHOICE (log 2; safe): that value is any, 1 among
them, so `ERRINFO` = `E_EOS` does not imply the end of the source. -/
def srcRead (s : State) : Res (BitVec 8) :=
  match nextAnswer s.srcAnswers, s.src[s.spos]? with
  | .never, _ => .stuck .sourceNeverAnswers
  | .ok, some v => .done v { s with spos := s.spos + 1, srcAnswers := s.srcAnswers.tail }
  | .fail e, some _ => .raised (.sourceError e) { s with srcAnswers := s.srcAnswers.tail }
  | .ok, none => .raised (.sourceError Config.eEos) { s with srcAnswers := s.srcAnswers.tail }
  | .fail _, none => .raised (.sourceError Config.eEos) { s with srcAnswers := s.srcAnswers.tail }

/-- The post-fault state of BW (60_exceptions.md R163 step 2): after a SinkError `WACC` and `WCNT` are unspecified
(40_bitwriter.md R81): one draw of free values (log 5). No other fault changes BW or BR. -/
def postFaultWriter (c : Cause) (s : State) : State :=
  match c with
  | .sinkError _ =>
    { s with wacc := Config.freeWacc s.draws, wcnt := Config.freeWcnt s.draws, draws := s.draws + 1 }
  | .sourceError _ => s
  | .illegalCommand => s
  | .treeCapacity => s
  | .treeInvariant => s

/-- The post-fault state of TC after any fault inside TDES (60_exceptions.md R163 step 2; 42_treecodec.md R113): `TNODES`
and every entry of `TMEM` are unspecified: one draw of free values, which begins a new epoch of `TMEM` (log 6). -/
def loseTree (s : State) : State :=
  { s with tnodes := Config.freeTnodes s.draws, tmem := [], tmemEpoch := s.draws + 1, draws := s.draws + 1 }

/-- Fault entry, `raise F(info)` (60_exceptions.md R163), the ONE operation that takes a fault: post-fault state, sticky
bit, `ERRINFO`, `RESULT`. The host port then accepts the next access; there is no return (R166). -/
def enterFault (c : Cause) (s : State) : State :=
  { setSticky c (postFaultWriter c s) with errinfo := causeInfo c, code := causeCode c, value := false }

/-- Fault entry for a fault raised inside TDES (60_exceptions.md R163 step 2, third line). -/
def enterTreeFault (c : Cause) (s : State) : State := enterFault c (loseTree s)

/-- `WACC | (zext_8(b) << (7 - WCNT))` (40_bitwriter.md R80): the accumulator with bit `7 - WCNT` set to `b`. -/
def accWithBit (b : Bool) (s : State) : BitVec 8 := s.wacc ||| (zext8 b <<< (7 - s.wcnt.toNat))

/-- `PutBit(b)` (40_bitwriter.md R80), the whole of `write_bit`. `WPOS` counts the bits it has accepted (10_state.md R12;
log 12). -/
def putBit (b : Bool) (s : State) : Res Unit :=
  if s.wcnt.toNat < 7 then
    .done () { s with wacc := accWithBit b s, wcnt := s.wcnt + 1, wpos := s.wpos + 1 }
  else
    andThen (snkWrite (accWithBit b s) s) fun _ s1 =>
      .done () { s1 with wacc := 0#8, wcnt := 0#3, wpos := s1.wpos + 1 }

/-- `PutBit` for the bits of a string in order (30_encoding.md R72, `WBITS`). -/
def putBits (bits : Bits) (s : State) : Res Unit :=
  match bits with
  | [] => .done () s
  | b :: rest => andThen (putBit b s) fun _ s1 => putBits rest s1

/-- The body of `flush()` (40_bitwriter.md R83): emit a pending partial byte, else nothing. -/
def flushPending (s : State) : Res Unit :=
  if s.wcnt = 0#3 then .done () s
  else andThen (snkWrite s.wacc s) fun _ s1 => .done () { s1 with wacc := 0#8, wcnt := 0#3 }

/-- Take the most significant bit of the held byte (41_bitreader.md R90, from its third line on). -/
def takeBit (s : State) : Res Bool :=
  .done (s.rbyte.getLsbD 7) { s with rbyte := s.rbyte <<< 1, rcnt := s.rcnt - 1, rpos := s.rpos + 1 }

/-- `GetBit()` (41_bitreader.md R90), the whole of `read_bit`: a byte is loaded only when none of its bits is held. A
failed load changes neither `RBYTE` nor `RCNT` (R91). `RPOS` counts the bits returned (10_state.md R12). -/
def getBit (s : State) : Res Bool :=
  if s.rcnt = 0#4 then andThen (srcRead s) fun v s1 => takeBit { s1 with rbyte := v, rcnt := 8#4 }
  else takeBit s

/-- `n` calls of `GetBit`, their results in order (30_encoding.md R72, `RBITS n`). -/
def getBits (n : Nat) (s : State) : Res Bits :=
  match n with
  | 0 => .done [] s
  | k + 1 => andThen (getBit s) fun b s1 => andThen (getBits k s1) fun bits s2 => .done (b :: bits) s2

/-- Read `n` bits into the low end of `acc`, first bit most significant (42_treecodec.md R107, `repeat 8 times`). -/
def getBitsInto (n : Nat) (acc : BitVec 8) (s : State) : Res (BitVec 8) :=
  match n with
  | 0 => .done acc s
  | k + 1 => andThen (getBit s) fun b s1 => getBitsInto k (shiftIn acc b) s1

/-- `TNODES <- TNODES + 1` (42_treecodec.md R107). -/
def claimEntry (s : State) : State := { s with tnodes := s.tnodes + 1 }

/-- Allocate the next entry of `TMEM` (42_treecodec.md R107): TreeCapacity when none is left, that is when `TNODES` has
reached `NODE_CAP` (R111; log 14). -/
def allocEntry (s : State) : Res Index :=
  if Config.nodeCap ≤ s.tnodes.toNat then .raised .treeCapacity s
  else .done (s.tnodes.setWidth 9) (claimEntry s)

/-- The outcome of a command whose faults leave the tree alone: completion with `OK` and a value, or fault entry. -/
def finishCommand (r : Res Bool) : Host.Outcome State Fault Refusal :=
  match r with
  | .done v s => .next (completeOk v s)
  | .raised c s => .next (enterFault c s)
  | .stuck f => .fault f

/-- The outcome of TDES: completion with `OK`, or fault entry inside TDES. -/
def finishTdes (r : Res Index) : Host.Outcome State Fault Refusal :=
  match r with
  | .done _ s => .next (completeOk false s)
  | .raised c s => .next (enterTreeFault c s)
  | .stuck f => .fault f

/-- The outcome of one token inside a TDES: TDES goes on (no completion is written), or fault entry inside TDES. -/
def finishToken (r : Res Index) : Host.Outcome State Fault Refusal :=
  match r with
  | .done _ s => .next s
  | .raised c s => .next (enterTreeFault c s)
  | .stuck f => .fault f

/-- The reset input (70_reset_and_hazards.md R190 to R192; 10_state.md R29): every register to its reset value; `TMEM`, the
sink and the source untouched; pending and held bits discarded. The environment goes on where it was. -/
def resetBlock (s : State) : State :=
  { s with
    wacc := 0#8, wcnt := 0#3, rbyte := 0#8, rcnt := 0#4, wErr := false, rErr := false, tErr := false, cErr := false,
    code := .ok, value := false, errinfo := 0#32, tnodes := 0#10, wpos := 0, rpos := 0 }

end Sys2Proof.Machine
end

