-- ==== Sys2Proof/Machine/BitReader.lean ====
section
/-! DEFINITION. The command of BR: RBIT (41_bitreader.md R92). -/

namespace Sys2Proof.Machine

/-- `RBIT` (41_bitreader.md R92): `b <- GetBit()`, then `RESULT <- {OK, b}`. -/
def execRbit (s : State) : Host.Outcome State Fault Refusal := finishCommand (getBit s)

end Sys2Proof.Machine
end

