-- ==== Sys2Proof/Machine/BitWriter.lean ====
section
/-! DEFINITION. The commands of BW: WBIT and WFLUSH (40_bitwriter.md R82, R83). -/

namespace Sys2Proof.Machine

/-- `WBIT b` (40_bitwriter.md R82): `PutBit(b)`, then `RESULT <- {OK, 0}`. -/
def execWbit (b : Bool) (s : State) : Host.Outcome State Fault Refusal :=
  finishCommand (andThen (putBit b s) fun _ s1 => .done false s1)

/-- `WFLUSH` (40_bitwriter.md R83): emit the pending partial byte if there is one, then `RESULT <- {OK, 0}`. -/
def execWflush (s : State) : Host.Outcome State Fault Refusal :=
  finishCommand (andThen (flushPending s) fun _ s1 => .done false s1)

end Sys2Proof.Machine
end

