-- ==== Sys2Proof/Decode.lean ====
section
/-! DEFINITION. The two decoders of the block, of command words and of stream tokens, and their encoders
(30_encoding.md R60 to R67). Total on every word and every bit string; a rejected command word is rejected by name. -/

namespace Sys2Proof

/-- Why a word written to `CMD` is no command (30_encoding.md R63). The block answers each with IllegalCommand. -/
inductive DecodeError where
  /-- A bit in 31:8 is set. -/
  | upperBitsSet
  /-- `op` (bits 7:4) is 0000 or 0110 to 1111. -/
  | reservedOp
  /-- `rsv` (bits 3:1) is not 000. -/
  | reservedBitsSet
  /-- `b` (bit 0) is 1 and `op` is not WBIT's. -/
  | operandBitSet
  deriving DecidableEq, Repr

/-- `op`, bits 7:4 of the command word (30_encoding.md R61). -/
def cmdOp (w : BitVec 32) : BitVec 4 := w.extractLsb' 4 4

/-- `rsv`, bits 3:1 of the command word (30_encoding.md R61). -/
def cmdRsv (w : BitVec 32) : BitVec 3 := w.extractLsb' 1 3

/-- `b`, bit 0 of the command word (30_encoding.md R61). -/
def cmdB (w : BitVec 32) : Bool := w.getLsbD 0

/-- Bits 31:8 of the word written to `CMD`, which must be 0 (30_encoding.md R61). -/
def cmdUpper (w : BitVec 32) : BitVec 24 := w.extractLsb' 8 24

/-- A command without an operand: legal only with `b` = 0 (30_encoding.md R61). -/
def plainCommand (w : BitVec 32) (i : Instr) : Except DecodeError Instr :=
  if cmdB w then .error .operandBitSet else .ok i

/-- The command a word written to `CMD` stands for (30_encoding.md R61 to R63). -/
def decodeCommand (w : BitVec 32) : Except DecodeError Instr :=
  if cmdUpper w ≠ 0 then .error .upperBitsSet
  else if cmdRsv w ≠ 0 then .error .reservedBitsSet
  else if cmdOp w = 0b0001#4 then .ok (.wbit (cmdB w))
  else if cmdOp w = 0b0010#4 then plainCommand w .wflush
  else if cmdOp w = 0b0011#4 then plainCommand w .rbit
  else if cmdOp w = 0b0100#4 then plainCommand w .tser
  else if cmdOp w = 0b0101#4 then plainCommand w .tdes
  else .error .reservedOp

/-- The first token of a bit string and the bits after it; `none` when the bits run out inside it, the only way a
token can fail to be read (30_encoding.md R64 to R67). -/
def decodeToken : Bits → Option (Instr × Bits)
  | [] => none
  | false :: rest => some (.tok0, rest)
  | true :: rest => if rest.length < 8 then none else some (.tok1 (val8 (rest.take 8)), rest.drop 8)

/-- The command word `CW` of a command (30_encoding.md R62); a token has none. -/
def encodeCommand : Instr → Option (BitVec 8)
  | .wbit b => some (0x10#8 ||| zext8 b)
  | .wflush => some 0x20#8
  | .rbit => some 0x30#8
  | .tser => some 0x40#8
  | .tdes => some 0x50#8
  | .tok0 => none
  | .tok1 _ => none

/-- The stream bits of a token (30_encoding.md R64, R65); a command has none. -/
def encodeToken : Instr → Option Bits
  | .wbit _ => none
  | .wflush => none
  | .rbit => none
  | .tser => none
  | .tdes => none
  | .tok0 => some [false]
  | .tok1 sym => some (true :: bits8 sym)

/-- The two kinds of encoded objects (30_encoding.md R60): a command word or a token's stream bits. -/
inductive Encoded where
  | command (cw : BitVec 8)
  | token (bits : Bits)
  deriving DecidableEq, Repr

/-- The encoding of an instruction (30_encoding.md R62, R64). -/
def encode : Instr → Encoded
  | .wbit b => .command (0x10#8 ||| zext8 b)
  | .wflush => .command 0x20#8
  | .rbit => .command 0x30#8
  | .tser => .command 0x40#8
  | .tdes => .command 0x50#8
  | .tok0 => .token [false]
  | .tok1 sym => .token (true :: bits8 sym)

/-- The instruction one encoded object stands for: a command word as the low byte of the word written to `CMD`
(30_encoding.md R61), or bits that are exactly one token. -/
def decode : Encoded → Option Instr
  | .command cw => (decodeCommand (cw.setWidth 32)).toOption
  | .token bits =>
    match decodeToken bits with
    | some (i, []) => some i
    | some (_, _ :: _) => none
    | none => none

/-- The instruction whose bits, numbered as spec/opcode_table.json numbers them, are `w` (log 13). A word of at most 8
bits that is a legal command word is that command; 0 is then the one-bit token TOK0; a longer one is a nine-bit token,
its first stream bit the most significant (opcode_table.json, row TOK1). -/
def decodeTableWord (nbits w : Nat) : Option Instr :=
  if nbits ≤ 8 then
    match decodeCommand (BitVec.ofNat 32 w) with
    | .ok i => some i
    | .error _ => if w < 2 then decode (.token (bitsOf 1 w)) else none
  else if w < 512 then decode (.token (bitsOf 9 w)) else none

end Sys2Proof
end

