-- ==== Sys2Proof/Machine/Codec.lean ====
section
/-! DEFINITION. The abstract codec (42_treecodec.md R100 to R105) and the tree a memory image holds (10_state.md R23). -/

namespace Sys2Proof.Machine

/-- The tree value type (42_treecodec.md R100). -/
inductive Tree where
  | leaf (symbol : BitVec 8) (frequency : Nat)
  | internal (frequency : Nat) (left right : Tree)
  deriving DecidableEq, Repr

/-- The frequency field of a tree's root. -/
def treeFreq (t : Tree) : Nat :=
  match t with
  | .leaf _ f => f
  | .internal f _ _ => f

/-- `leaves(t)` (R100). -/
def treeLeaves (t : Tree) : Nat :=
  match t with
  | .leaf _ _ => 1
  | .internal _ l r => treeLeaves l + treeLeaves r

/-- `nodes(t)`, the number of all nodes (R100: `2 * leaves(t) - 1`). -/
def treeNodes (t : Tree) : Nat :=
  match t with
  | .leaf _ _ => 1
  | .internal _ l r => 1 + treeNodes l + treeNodes r

/-- `shape(t)`: `t` with every frequency erased, here set to 0 (R100): what the round trip of R104 keeps. -/
def treeShape (t : Tree) : Tree :=
  match t with
  | .leaf sym _ => .leaf sym 0
  | .internal _ l r => .internal 0 (treeShape l) (treeShape r)

/-- `t` with the frequencies TDES writes (R103, R110), the tree that the round trip of R104 answers: 1 at a Leaf, the
children's sum at an Internal node. -/
def treePlaceholder (t : Tree) : Tree :=
  match t with
  | .leaf sym _ => .leaf sym 1
  | .internal _ l r => .internal (treeLeaves l + treeLeaves r) (treePlaceholder l) (treePlaceholder r)

/-- The source's frequency invariant (R100, R145): an Internal node's frequency is its children's sum, throughout. -/
def treeFreqInvariant (t : Tree) : Bool :=
  match t with
  | .leaf _ _ => true
  | .internal f l r => f == treeFreq l + treeFreq r && treeFreqInvariant l && treeFreqInvariant r

/-- `ser(t)` (R101; R104 is its law with `des`): pre-order; a Leaf is `1` and its symbol's bits, an Internal node
`0` and its two subtrees. -/
def ser (t : Tree) : Bits :=
  match t with
  | .leaf sym _ => true :: bits8 sym
  | .internal _ l r => false :: (ser l ++ ser r)

/-- `des` (R103) with `fuel` bounding the nesting; `none` is `EndOfBits`. -/
def desFuel (fuel : Nat) (bits : Bits) : Option (Tree × Bits) :=
  match fuel with
  | 0 => none
  | n + 1 =>
    match bits with
    | [] => none
    | true :: rest => if rest.length < 8 then none else some (.leaf (val8 (rest.take 8)) 1, rest.drop 8)
    | false :: rest =>
      match desFuel n rest with
      | none => none
      | some (l, rest1) =>
        match desFuel n rest1 with
        | none => none
        | some (r, rest2) => some (.internal (treeFreq l + treeFreq r) l r, rest2)

/-- `des(s)` (R103, R104): one tree from the front of a bit string and the bits after it; `none` is `EndOfBits`. A tree's nesting
is less than the length of its encoding, so the string's length is fuel enough. -/
def des (bits : Bits) : Option (Tree × Bits) := desFuel bits.length bits

/-- `TMEM` holds `t` at entry `i`: `tree_at(TMEM, i)` is defined and is `t` (10_state.md R23). -/
def HoldsAt (s : State) (t : Tree) (i : Index) : Bool :=
  match t with
  | .leaf sym f => i != Config.nil && entryTag s i && entrySym s i == sym && (entryFreq s i).toNat == f
  | .internal f l r =>
    i != Config.nil && !entryTag s i && (entryFreq s i).toNat == f && HoldsAt s l (entryLeft s i)
      && HoldsAt s r (entryRight s i)

/-- "TMEM holds tree `t`" (10_state.md R23): `tree_at(TMEM, ROOT)` is `t`, admitted (at most `NODE_CAP` visits). -/
def HoldsTree (s : State) (t : Tree) : Bool := HoldsAt s t Config.root && treeNodes t ≤ Config.nodeCap

/-- The image TDES leaves of a tree from entry `i` on (42_treecodec.md R107, R109, R110): pre-order, the left child of an
Internal entry next to it and the right child after the left subtree; `freq` the number of leaves below; a Leaf's
children `NIL` and an Internal entry's symbol 0. -/
def PreorderImage (s : State) (t : Tree) (i : Nat) : Bool :=
  match t with
  | .leaf sym _ =>
    entryWord0 s (BitVec.ofNat 9 i) == packWord0 true sym Config.nil Config.nil
      && entryWord1 s (BitVec.ofNat 9 i) == 1#32
  | .internal _ l r =>
    entryWord0 s (BitVec.ofNat 9 i)
        == packWord0 false 0#8 (BitVec.ofNat 9 (i + 1)) (BitVec.ofNat 9 (i + 1 + treeNodes l))
      && entryWord1 s (BitVec.ofNat 9 i) == BitVec.ofNat 32 (treeLeaves l + treeLeaves r)
      && PreorderImage s l (i + 1) && PreorderImage s r (i + 1 + treeNodes l)

/-- `tree_at(TMEM, i)` with `fuel` bounding its nesting; none where it is undefined (10_state.md R23). -/
def treeAt (fuel : Nat) (s : State) (i : Index) : Option Tree :=
  match fuel with
  | 0 => none
  | n + 1 =>
    if i = Config.nil then none
    else if entryTag s i then some (.leaf (entrySym s i) (entryFreq s i).toNat)
    else
      match treeAt n s (entryLeft s i), treeAt n s (entryRight s i) with
      | some l, some r => some (.internal (entryFreq s i).toNat l r)
      | some _, none => none
      | none, _ => none

/-- The bits BR would deliver from this state on if no read failed: those held, then those of the rest of the source
(10_state.md R17; 41_bitreader.md R93). -/
def streamBits (s : State) : Bits := (bits8 s.rbyte).take s.rcnt.toNat ++ unpack (s.src.drop s.spos)

/-- The bits pending in BW, the first written first (10_state.md R11). -/
def pendingBits (s : State) : Bits := (bits8 s.wacc).take s.wcnt.toNat

/-- How many tags TDES reads in these bits, if no tree ends in them first: each bit is a tag but the eight after a tag 1
(42_treecodec.md R107). `skip` bits of a symbol come first. -/
def tagCountAfter (skip : Nat) (bits : Bits) : Nat :=
  match skip, bits with
  | _, [] => 0
  | k + 1, _ :: rest => tagCountAfter k rest
  | 0, tag :: rest => 1 + tagCountAfter (if tag then 8 else 0) rest

/-- How many tags TDES reads in these bits from a token boundary on (42_treecodec.md R107, R111). -/
def tagCount (bits : Bits) : Nat := tagCountAfter 0 bits

/-- The index reached from `i` along a path, `0` to `left` and `1` to `right`; each step leaves an Internal entry
(10_state.md R22, R23). The index reached may be `NIL`. -/
def indexAlong (s : State) (i : Index) (path : Bits) : Option Index :=
  match path with
  | [] => some i
  | b :: rest =>
    if i = Config.nil then none
    else if entryTag s i then none
    else indexAlong s (if b then entryRight s i else entryLeft s i) rest

end Sys2Proof.Machine
end

