-- ==== Sys2Proof/Machine/TreeCodec.lean ====
section
/-! DEFINITION. The commands of TC, TSER and TDES, and the two tokens of the serialised tree (42_treecodec.md R106 to
R114; 30_encoding.md R64). -/

namespace Sys2Proof.Machine

/-- More levels than a traversal can have: it visits or allocates at most `NODE_CAP` entries, one a level, before it
raises (R111, R112; 10_state.md R26). -/
def traversalFuel : Nat := Config.nodeCap + 1

/-- The bits a Leaf entry puts into the stream: the token TOK1 (30_encoding.md R64). -/
def leafToken (sym : BitVec 8) : Bits := true :: bits8 sym

/-- The bits an Internal entry puts into the stream: the token TOK0 (30_encoding.md R64). -/
def internalToken : Bits := [false]

/-- `SerNode(i)` (42_treecodec.md R106) after `visits` visits; answers the new count. `fuel` bounds the nesting and never
runs out before the visit count does. -/
def serNode (fuel : Nat) (i : Index) (visits : Nat) (s : State) : Res Nat :=
  match fuel with
  | 0 => .raised .treeInvariant s
  | n + 1 =>
    if i = Config.nil then .raised .treeInvariant s
    else if Config.nodeCap < visits + 1 then .raised .treeInvariant s
    else if entryTag s i then
      andThen (putBits (leafToken (entrySym s i)) s) fun _ s1 => .done (visits + 1) s1
    else
      andThen (putBits internalToken s) fun _ s1 =>
      andThen (serNode n (entryLeft s i) (visits + 1) s1) fun v s2 =>
      serNode n (entryRight s i) v s2

/-- `TSER` (42_treecodec.md R106): serialise the tree at entry `ROOT` through `PutBit`; it does not flush. -/
def execTser (s : State) : Host.Outcome State Fault Refusal :=
  finishCommand (andThen (serNode traversalFuel Config.root 0 s) fun _ s1 => .done false s1)

/-- `DesNode()` (42_treecodec.md R107): read a tag, allocate an entry, and read a Leaf's symbol or two subtrees. `fuel`
bounds the nesting and never runs out before the entries do. -/
def desNode (fuel : Nat) (s : State) : Res Index :=
  match fuel with
  | 0 => .raised .treeCapacity s
  | n + 1 =>
    andThen (getBit s) fun tag s1 =>
    andThen (allocEntry s1) fun i s2 =>
    if tag then
      andThen (getBitsInto 8 0#8 s2) fun sym s3 => .done i (writeLeaf i sym s3)
    else
      andThen (desNode n s2) fun l s3 =>
      andThen (desNode n s3) fun r s4 => .done i (writeInternal i l r s4)

/-- `TDES` (42_treecodec.md R107): `TNODES <- 0`, one tree from BR's bits into `TMEM`, then `RESULT <- {OK, 0}`. -/
def execTdes (s : State) : Host.Outcome State Fault Refusal :=
  finishTdes (desNode traversalFuel { s with tnodes := 0#10 })

/-- The body of token TOK0 inside a TDES: an Internal entry is allocated, its left and then its right subtree are read from
BR's bits, and it is written (42_treecodec.md R107, the branch for the tag 0). -/
def openInternal (s : State) : Res Index :=
  andThen (allocEntry s) fun i s1 =>
  andThen (desNode traversalFuel s1) fun l s2 =>
  andThen (desNode traversalFuel s2) fun r s3 => .done i (writeInternal i l r s3)

/-- The body of token TOK1 inside a TDES: a Leaf entry is allocated and written (42_treecodec.md R107, the branch for the
tag 1, its symbol read). -/
def storeLeaf (sym : BitVec 8) (s : State) : Res Index :=
  andThen (allocEntry s) fun i s1 => .done i (writeLeaf i sym s1)

/-- Token `TOK0` (30_encoding.md R64; 42_treecodec.md R107; log 13): what a TDES does once `GetBit` has delivered the tag
0. -/
def execTok0 (s : State) : Host.Outcome State Fault Refusal := finishToken (openInternal s)

/-- Token `TOK1` (30_encoding.md R64, R65; 42_treecodec.md R107; log 13): what a TDES does once `GetBit` has delivered the
tag 1 and the eight bits of `sym`. -/
def execTok1 (sym : BitVec 8) (s : State) : Host.Outcome State Fault Refusal := finishToken (storeLeaf sym s)

end Sys2Proof.Machine
end

