-- ==== Sys2Proof/Machine/Dispatch.lean ====
section
/-! DEFINITION. What each instruction does: one arm per constructor, each one call of its meaning. -/

namespace Sys2Proof.Machine

def exec (i : Instr) (s : State) : Host.Outcome State Fault Refusal :=
  match i with
  | .wbit b => Sys2Proof.Machine.execWbit b s
  | .wflush => Sys2Proof.Machine.execWflush s
  | .rbit => Sys2Proof.Machine.execRbit s
  | .tser => Sys2Proof.Machine.execTser s
  | .tdes => Sys2Proof.Machine.execTdes s
  | .tok0 => Sys2Proof.Machine.execTok0 s
  | .tok1 sym => Sys2Proof.Machine.execTok1 sym s

end Sys2Proof.Machine
end

