-- ==== Sys2Proof/WellFormed.lean ====
section
/-! DEFINITION. What is well formed: the words and bit strings that encode an instruction, check by check, and the
source-level calls of 00_scope.md R3, whose operand is wider than the block's (30_encoding.md R73). An `Instr` itself is
well formed by its type: each operand has exactly the width of its field. -/

namespace Sys2Proof

/-- Bits 31:8 of a word written to `CMD` are 0 (30_encoding.md R61). -/
def upperBitsClear (w : BitVec 32) : Bool := cmdUpper w == 0

/-- `rsv` is 000 (30_encoding.md R61). -/
def reservedBitsClear (w : BitVec 32) : Bool := cmdRsv w == 0

/-- `op` is one of the five operation codes (30_encoding.md R62). -/
def opAssigned (w : BitVec 32) : Bool :=
  cmdOp w == 0b0001 || cmdOp w == 0b0010 || cmdOp w == 0b0011 || cmdOp w == 0b0100 || cmdOp w == 0b0101

/-- `b` is 0 for every command but WBIT (30_encoding.md R61). -/
def operandBitAllowed (w : BitVec 32) : Bool := cmdOp w == 0b0001 || !cmdB w

/-- A legal word for `CMD`: one of six (30_encoding.md R62, R63). -/
def CommandWordWF (w : BitVec 32) : Bool :=
  upperBitsClear w && reservedBitsClear w && opAssigned w && operandBitAllowed w

/-- A bit string that is exactly one token: `0`, or `1` and eight bits (30_encoding.md R64). -/
def TokenWF (bits : Bits) : Bool :=
  match bits with
  | [] => false
  | false :: rest => rest.isEmpty
  | true :: rest => rest.length == 8

/-- An encoded object that encodes some instruction. -/
def EncodedWF : Encoded → Bool
  | .command cw => CommandWordWF (cw.setWidth 32)
  | .token bits => TokenWF bits

/-- An instruction whose encoding is well formed. Every `Instr` is (`Sys2Proof.Laws.RoundTrip`). -/
def InstrWF (i : Instr) : Bool := EncodedWF (encode i)

/-- The source's five operations as it calls them (00_scope.md R3). The operand of `write_bit` is wider than one bit
there: "any other value is a caller contract violation" (30_encoding.md R73). -/
inductive SourceCall where
  | writeBit (b : Nat)
  | flush
  | readBit
  | serialize
  | deserialize
  deriving DecidableEq, Repr

/-- `write_bit(b)` is called with `b` in {0, 1} (30_encoding.md R73). -/
def SourceCallWF : SourceCall → Bool
  | .writeBit b => b < 2
  | .flush => true
  | .readBit => true
  | .serialize => true
  | .deserialize => true

/-- The command a source-level call is (00_scope.md R3); none for a contract violation, which is never reduced modulo 2
(30_encoding.md R73). -/
def commandOfCall : SourceCall → Option Instr
  | .writeBit b => if b = 0 then some (.wbit false) else if b = 1 then some (.wbit true) else none
  | .flush => some .wflush
  | .readBit => some .rbit
  | .serialize => some .tser
  | .deserialize => some .tdes

end Sys2Proof
end

