-- ==== Sys2Proof/Machine/HostPort.lean ====
section
/-! DEFINITION. The host port and the host's other accesses (20_memory.md R41, R46, R49; 10_state.md R24, R25): what one
host action does. -/

namespace Sys2Proof.Machine

/-- The word a read of port address `a` returns (20_memory.md R41). `CMD` and reserved addresses read 0 (log 11). -/
def portRead (a : PortAddr) (s : State) : BitVec 32 :=
  if a = 0x001#11 then resultWord s
  else if a = 0x002#11 then statusWord s
  else if a = 0x003#11 then s.errinfo
  else if a = 0x004#11 then s.wacc.setWidth 32
  else if a = 0x005#11 then s.rbyte.setWidth 32
  else if a = 0x006#11 then s.tnodes.setWidth 32
  else if isTmemAddr a.toNat then tmemRead s a.toNat
  else 0#32

/-- A word written to `CMD` (30_encoding.md R61 to R63): the command it stands for, else IllegalCommand, decided before
anything executes (60_exceptions.md R165, R170). -/
def issueCommand (w : BitVec 32) (s : State) : Host.Outcome State Fault Refusal :=
  match decodeCommand w with
  | .ok i => exec i s
  | .error _ => .next (enterFault .illegalCommand s)

/-- A write of `w` to port address `a` (20_memory.md R41): a command, a word of TMEM, or nothing (read-only registers
and reserved addresses ignore writes; log 11). -/
def portWrite (a : PortAddr) (w : BitVec 32) (s : State) : Host.Outcome State Fault Refusal :=
  if a = 0x000#11 then issueCommand w s
  else if isTmemAddr a.toNat then .next (tmemWrite a.toNat w s)
  else .next s

/-- A byte the host writes directly to the sink, beside BW (10_state.md R24; 43_host_pipelines.md R122). The sink answers
it as it answers BW (log 18). -/
def hostSinkByte (v : BitVec 8) (s : State) : Host.Outcome State Fault Refusal :=
  match snkWrite v s with
  | .done _ s1 => .next s1
  | .raised c s1 => .next { s1 with reply := some (.failed (causeInfo c)) }
  | .stuck f => .fault f

/-- A byte the host reads directly from the source, beside BR (10_state.md R25; 43_host_pipelines.md R128). The source
answers it as it answers BR (log 18). -/
def hostSourceByte (s : State) : Host.Outcome State Fault Refusal :=
  match srcRead s with
  | .done v s1 => .next { s1 with reply := some (.byte v) }
  | .raised c s1 => .next { s1 with reply := some (.failed (causeInfo c)) }
  | .stuck f => .fault f

/-- What one host action does (20_memory.md R51: to its completion, before the next). -/
def perform (act : HostAction) (s : State) : Host.Outcome State Fault Refusal :=
  match act with
  | .write a w => portWrite a w s
  | .read a => .next { s with reply := some (.word (portRead a s)) }
  | .sinkByte v => hostSinkByte v s
  | .sourceByte => hostSourceByte s
  | .reset => .next (resetBlock s)

/-- The state in which the head of the host's actions is performed: the action taken off, nothing handed back yet. -/
def takeAction (rest : List HostAction) (s : State) : State := { s with host := rest, reply := none }

/-- The port write that issues a command word. -/
def commandWrite (cw : BitVec 8) : HostAction := .write 0x000#11 (cw.setWidth 32)

/-- Lay a token's bits where the next `GetBit` reads (no bit held, the bytes next in the source) and make a TDES the
host's next action: the fetch of a token (log 13). -/
def placeToken (bits : Bits) (s : State) : State :=
  { s with
    rbyte := 0#8, rcnt := 0#4
    src := s.src.take s.spos ++ pack bits
    spos := (s.src.take s.spos).length
    srcAnswers := []
    host := commandWrite 0x50#8 :: s.host }

/-- Make an instruction the one the next step fetches: a command as the host's next action, a token as the next bits
of the stream (logs 1 and 13). -/
def placeInstr (i : Instr) (s : State) : State :=
  match encode i with
  | .command cw => { s with host := commandWrite cw :: s.host }
  | .token bits => placeToken bits s

/-- A source-level call (00_scope.md R3): its command, or a refusal where the caller breaks the contract of `write_bit`
(30_encoding.md R73). -/
def execCall (c : SourceCall) (s : State) : Host.Outcome State Fault Refusal :=
  match commandOfCall c with
  | some i => exec i s
  | none => .refused .callerContract

end Sys2Proof.Machine
end

