-- ==== Sys2Proof/Machine/Step.lean ====
section
/-! DEFINITION. One step of the machine: the host's next action, performed to its completion (20_memory.md R51). -/

namespace Sys2Proof.Machine

/-- One step: the block accepts the host's next action and performs it. With no action to come the block waits for the
host (70_reset_and_hazards.md R192; log 20). -/
def step (s : State) : Host.Outcome State Fault Refusal :=
  match s.host with
  | [] => .next s
  | act :: rest => perform act (takeAction rest s)

/-- `s` with the instruction whose bits are `w` (numbered as spec/opcode_table.json numbers them) placed where `step`
fetches its next instruction (logs 1 and 13). A word that is no instruction is placed as a word written to `CMD`. -/
def State.withFetchWord (s : State) (nbits w : Nat) : State :=
  match decodeTableWord nbits w with
  | some i => placeInstr i s
  | none => { s with host := .write 0x000#11 (BitVec.ofNat 32 w) :: s.host }

end Sys2Proof.Machine
end

