-- ==== Sys2Proof/Machine/HostTree.lean ====
section
/-! DEFINITION. HOST reference (00_scope.md R4): the frequency table, the tree builder and the code table of the software
around the block (44_host_tree_and_codes.md R140 to R147). No step of the block uses them. -/

namespace Sys2Proof.Machine

/-- A FrequencyTable (R141): symbol and count, each symbol once, here by rising symbol. -/
abbrev FrequencyTable := List (BitVec 8 × Nat)

/-- A CodeTable (R146, R147): symbol and non-empty bit string, each symbol once. -/
abbrev CodeTable := List (BitVec 8 × Bits)

/-- Count one more occurrence of `sym`; a symbol not seen before starts at 1 (R140). -/
def countOne (sym : BitVec 8) (table : FrequencyTable) : FrequencyTable :=
  match table with
  | [] => [(sym, 1)]
  | (k, n) :: rest =>
    if sym = k then (k, n + 1) :: rest
    else if sym.toNat < k.toNat then (sym, 1) :: (k, n) :: rest
    else (k, n) :: countOne sym rest

/-- The counts of a scan's bytes (R140): none for no byte. -/
def countBytes (bytes : List Byte) : FrequencyTable := bytes.foldl (fun table b => countOne b table) []

/-- The input of COMPRESS, a byte source read twice (43_host_pipelines.md R120, R135). A pass may fail with an error value at
the read after some number of bytes; a host that buffers its input has no failing second pass. DESIGN CHOICE (log 25;
unsafe for an input that changes): both passes see the same bytes. -/
structure InputSource where
  /-- The bytes of the input. -/
  bytes : List Byte
  /-- Where and how the pass of step 1, the count, fails, if it does. -/
  countFails : Option (Nat × BitVec 32)
  /-- Where and how the pass of step 5, the encoding, fails, if it does. -/
  encodeFails : Option (Nat × BitVec 32)
  deriving DecidableEq, Repr

/-- The bytes a pass reads before it fails or ends. -/
def bytesRead (bytes : List Byte) (fails : Option (Nat × BitVec 32)) : List Byte :=
  match fails with
  | none => bytes
  | some (n, _) => bytes.take n

/-- `count_frequencies` (R140): the counts of a complete scan, or its one failure mode, the underlying read's error. -/
def countFrequencies (input : InputSource) : Except (BitVec 32) FrequencyTable :=
  match input.countFails with
  | none => .ok (countBytes input.bytes)
  | some (_, e) => .error e

/-- The open parameter `MERGE_ORDER` of the builder (R144; 92 D23; log 21): how two nodes of equal frequency compare when
they are not both leaves, and whether the lower of two merged nodes becomes the left child. -/
structure MergeOrder where
  tieFirst : Tree → Tree → Bool
  lowerLeft : Tree → Tree → Bool

/-- The builder's order: by frequency, then, for leaves, by symbol (R142); the rest is `MERGE_ORDER`'s (R144). -/
def nodeBefore (order : MergeOrder) (a b : Tree) : Bool :=
  if treeFreq a < treeFreq b then true
  else if treeFreq b < treeFreq a then false
  else
    match a, b with
    | .leaf x _, .leaf y _ => x.toNat < y.toNat
    | .leaf _ _, .internal _ _ _ => order.tieFirst a b
    | .internal _ _ _, .leaf _ _ => order.tieFirst a b
    | .internal _ _ _, .internal _ _ _ => order.tieFirst a b

/-- Insert a node into the priority structure, lowest first (R142). -/
def insertNode (order : MergeOrder) (t : Tree) (queue : List Tree) : List Tree :=
  match queue with
  | [] => [t]
  | q :: rest => if nodeBefore order t q then t :: q :: rest else q :: insertNode order t rest

/-- Combine the two lowest nodes into an Internal node whose frequency is their sum (R142, R145). -/
def mergeNodes (order : MergeOrder) (a b : Tree) : Tree :=
  if order.lowerLeft a b then .internal (treeFreq a + treeFreq b) a b else .internal (treeFreq a + treeFreq b) b a

/-- Merge until one node remains (R142); `fuel` merges are enough for `fuel + 1` nodes (R143). -/
def mergeAll (order : MergeOrder) (fuel : Nat) (queue : List Tree) : Option Tree :=
  match fuel, queue with
  | _, [] => none
  | _, [t] => some t
  | 0, _ :: _ :: _ => none
  | n + 1, a :: b :: rest => mergeAll order n (insertNode order (mergeNodes order a b) rest)

/-- `build_tree` (R142, R143): none on an empty table, which is the builder's precondition violation. -/
def buildTree (order : MergeOrder) (table : FrequencyTable) : Option Tree :=
  mergeAll order (table.length - 1) (table.foldl (fun queue e => insertNode order (.leaf e.1 e.2) queue) [])

/-- What the traversal records below a node reached by `path`, a symbol and its path at each Leaf: `0` on
descent into `left`, `1` into `right` (R146). -/
def codesBelow (t : Tree) (path : Bits) : List (BitVec 8 × Bits) :=
  match t with
  | .leaf sym _ => [(sym, path)]
  | .internal _ l r => codesBelow l (path ++ [false]) ++ codesBelow r (path ++ [true])

/-- One entry for each distinct symbol (R147). DESIGN CHOICE (log 24; unsafe beyond trees of distinct symbols): of a symbol
recorded at several leaves, which R114 allows, the first record stays, which is its leftmost leaf's path. -/
def oneEntryPerSymbol (records : List (BitVec 8 × Bits)) : CodeTable :=
  match records with
  | [] => []
  | e :: rest => e :: (oneEntryPerSymbol rest).filter fun x => x.1 != e.1

/-- `extract_codes` (R146, R147): a single Leaf gets the 1-bit code `0`, and each distinct symbol one entry. -/
def extractCodes (t : Tree) : CodeTable :=
  match t with
  | .leaf sym _ => [(sym, [false])]
  | .internal _ _ _ => oneEntryPerSymbol (codesBelow t [])

/-- The symbols of a tree's leaves, left to right. -/
def treeSymbols (t : Tree) : List (BitVec 8) :=
  match t with
  | .leaf sym _ => [sym]
  | .internal _ l r => treeSymbols l ++ treeSymbols r

/-- Walk from a node by the bits of a string, `0` to `left` and `1` to `right`, to a Leaf: its symbol and the bits left
(43_host_pipelines.md R131). -/
def walkTree (t : Tree) (bits : Bits) : Option (BitVec 8 × Bits) :=
  match t, bits with
  | .leaf sym _, _ => some (sym, bits)
  | .internal _ _ _, [] => none
  | .internal _ l _, false :: rest => walkTree l rest
  | .internal _ _ r, true :: rest => walkTree r rest

/-- Decode `n` symbols (43_host_pipelines.md R130, R131): a single Leaf takes no bits. -/
def decodeSymbols (t : Tree) (n : Nat) (bits : Bits) : Option (List Byte) :=
  match n with
  | 0 => some []
  | k + 1 =>
    match walkTree t bits with
    | none => none
    | some (sym, rest) => (decodeSymbols t k rest).map fun out => sym :: out

/-- The data bits of an input: the codes of its bytes in order (43_host_pipelines.md R124); none if one has no code. -/
def encodeData (lookup : BitVec 8 → Option Bits) (input : List Byte) : Option Bits :=
  match input with
  | [] => some []
  | x :: rest =>
    match lookup x, encodeData lookup rest with
    | some code, some more => some (code ++ more)
    | some _, none => none
    | none, _ => none

end Sys2Proof.Machine
end

