-- ==== Sys2Proof/Machine/Pseudo.lean ====
section
/-! DEFINITION. The pseudo-instructions of 30_encoding.md R72: the command sequences they expand to, and what issuing an
expansion gives. COMPRESS and DECOMPRESS are in Sys2Proof/Machine/HostPipelines.lean. -/

namespace Sys2Proof

/-- `WBITS "b0 b1 ..."`: one WBIT per bit, in order (30_encoding.md R72). -/
def pseudoWbits (bits : Bits) : List Instr := bits.map .wbit

/-- `WBYTE v`: eight WBITs, `v[7]` first (30_encoding.md R72). -/
def pseudoWbyte (v : BitVec 8) : List Instr := pseudoWbits (bits8 v)

/-- The code of a symbol in a CodeTable, which has at most one entry a symbol (30_encoding.md R72; 44_host_tree_and_codes.md
R146, R147). The table `extractCodes` makes has the leftmost leaf's path for a symbol that two leaves carry (log 24). -/
def codeOf (table : List (BitVec 8 × Bits)) (sym : BitVec 8) : Option Bits :=
  (table.find? fun entry => entry.1 == sym).map Prod.snd

/-- `WCODE sym`: the WBITs of the symbol's code, if the CodeTable has one (30_encoding.md R72). -/
def pseudoWcode (table : List (BitVec 8 × Bits)) (sym : BitVec 8) : Option (List Instr) :=
  (codeOf table sym).map pseudoWbits

/-- `RBITS n`: `n` RBITs (30_encoding.md R72). Their result is `runRbits`. -/
def pseudoRbits (n : Nat) : List Instr := List.replicate n .rbit

/-- `RBYTE8`: the commands of `RBITS 8` (30_encoding.md R72). Its result `v` is `runRbyte8`. -/
def pseudoRbyte8 : List Instr := pseudoRbits 8

namespace Machine

/-- How an expansion ends: with its result, or at the first command that faulted, with its code and `ERRINFO`. -/
inductive ExpansionEnd (α : Type) where
  | value (a : α)
  | commandFault (code : StatusCode) (info : BitVec 32)
  deriving DecidableEq, Repr

/-- An expansion's run: the state at its end and how it ended, or a stuck transaction. -/
abbrev ExpansionRun (α : Type) := Host.Outcome (State × ExpansionEnd α) Fault Refusal

/-- The result of a run, where there is one, by `f`. -/
def mapRun {α β : Type} (f : α → β) (r : ExpansionRun α) : ExpansionRun β :=
  match r with
  | .next (t, .value a) => .next (t, .value (f a))
  | .next (t, .commandFault code info) => .next (t, .commandFault code info)
  | .fault e => .fault e
  | .refused e => .refused e

/-- Issue commands in order up to the first that faults; the result is their completion values, `RESULT.VALUE`, in order
(30_encoding.md R72; 60_exceptions.md R162). -/
def runExpansion (cmds : List Instr) (s : State) : ExpansionRun Bits :=
  match cmds with
  | [] => .next (s, .value [])
  | i :: rest =>
    match exec i s with
    | .next t =>
      if t.code = .ok then mapRun (fun vs => t.value :: vs) (runExpansion rest t)
      else .next (t, .commandFault t.code t.errinfo)
    | .fault f => .fault f
    | .refused r => .refused r

/-- `RBITS n -> s`: the results of `n` RBITs, concatenated in order (30_encoding.md R72). -/
def runRbits (n : Nat) (s : State) : ExpansionRun Bits := runExpansion (pseudoRbits n) s

/-- `RBYTE8 -> v`: `RBITS 8`, `v = val8(s)` (30_encoding.md R72). -/
def runRbyte8 (s : State) : ExpansionRun (BitVec 8) := mapRun val8 (runExpansion pseudoRbyte8 s)

end Machine

end Sys2Proof
end

