-- ==== Sys2Proof/Machine/HostPipelines.lean ====
section
/-! DEFINITION. HOST reference (00_scope.md R4): the sequences COMPRESS and DECOMPRESS over the block's commands, and the wire
format (43_host_pipelines.md R120 to R131; 30_encoding.md R70). The block's `step` does not use them. -/

namespace Sys2Proof.Machine

/-- The header (43_host_pipelines.md R122): `original_length`, four bytes, least significant first. -/
def headerBytes (len : Nat) : List Byte :=
  [BitVec.ofNat 8 len, BitVec.ofNat 8 (len / 256), BitVec.ofNat 8 (len / 65536), BitVec.ofNat 8 (len / 16777216)]

/-- `original_length` from four header bytes (43_host_pipelines.md R128). -/
def headerLength (h0 h1 h2 h3 : Byte) : Nat := h0.toNat + 256 * h1.toNat + 65536 * h2.toNat + 16777216 * h3.toNat

/-- Write an image of `t` into TMEM from entry `i` on (43_host_pipelines.md R121). R121 allows any placement with the root at
entry 0. DESIGN CHOICE (log 26; unsafe for a claim about TMEM's words after a COMPRESS): the pre-order placement of
42_treecodec.md R109, the fields a node does not use as TDES writes them, a Leaf's children `NIL` and an Internal node's
symbol 0. -/
def loadTree (t : Tree) (i : Nat) (s : State) : State :=
  match t with
  | .leaf sym f => entryWrite (BitVec.ofNat 9 i) true sym Config.nil Config.nil (BitVec.ofNat 32 f) s
  | .internal f l r =>
    loadTree r (i + 1 + treeNodes l)
      (loadTree l (i + 1)
        (entryWrite (BitVec.ofNat 9 i) false 0#8 (BitVec.ofNat 9 (i + 1)) (BitVec.ofNat 9 (i + 1 + treeNodes l))
          (BitVec.ofNat 32 f) s))

/-- A string begins with a tree that fits TMEM: a TDES on it completes (42_treecodec.md R103, R111). -/
def beginsWithTree (bits : Bits) : Bool :=
  match des bits with
  | some (t, _) => treeNodes t ≤ Config.nodeCap
  | none => false

/-- The open parameter `EMPTY_INPUT_POLICY` (43_host_pipelines.md R134; 92 D22; log 21): what COMPRESS writes after a zero header,
as bits through BW, and whether DECOMPRESS issues TDES when the length is 0. The round trip of the empty input is not open
(90 C3: "the round-trip contract wins"): a policy that deserialises has a tree to deserialise. -/
structure EmptyInputPolicy where
  written : Bits
  deserialize : Bool
  readable : deserialize = true → beginsWithTree (unpack (pack written)) = true
  deriving DecidableEq, Repr

/-- Why a pipeline stops before its end (43_host_pipelines.md R120, R133). -/
inductive PipelineFailure where
  /-- A command of the block completed with a fault: its code and `ERRINFO`. -/
  | commandFault (code : StatusCode) (info : BitVec 32)
  /-- A direct access to a stream failed with this error value. -/
  | streamError (e : BitVec 32)
  /-- A pass over COMPRESS's input failed with this error value (44_host_tree_and_codes.md R140; log 25). -/
  | inputError (e : BitVec 32)
  /-- A write to DECOMPRESS's own output failed with this error value, verbatim (R126, R127; 60_exceptions.md R161). -/
  | outputError (e : BitVec 32)
  /-- The builder's precondition or a decode walk met the impossible (R131, R143): stop loudly. -/
  | invariantViolation
  /-- `2^32` input bytes or more: undefined behaviour for the format, refused (R122; 93 U1; log 22). -/
  | inputTooLong
  deriving DecidableEq, Repr

/-- How a pipeline ends (43_host_pipelines.md R133), with the bytes `decompress` has written to its own output, each as it
was decoded (R126, R127). `compress` writes to `SNK` and has no other output. -/
inductive PipelineEnd where
  /-- Success. -/
  | finished (output : List Byte)
  /-- Failure; what was written before it stays written. -/
  | failed (output : List Byte) (why : PipelineFailure)
  deriving DecidableEq, Repr

/-- The bytes a run has written to its own output, however it ended (R126). -/
def outputOf (e : PipelineEnd) : List Byte :=
  match e with
  | .finished output => output
  | .failed output _ => output

/-- A pipeline's run: the block's state at its end and how it ended, or a stuck transaction. -/
abbrev PipelineRun := Host.Outcome (State × PipelineEnd) Fault Refusal

/-- Leave COMPRESS early: WFLUSH is issued on every exit path (R120, R136; 70 R194), and what the run ends with is why it
left, whatever the WFLUSH completes with. -/
def leaveWithFlush (why : PipelineFailure) (s : State) : PipelineRun :=
  match exec .wflush s with
  | .next t => .next (t, .failed [] why)
  | .fault f => .fault f
  | .refused r => .refused r

/-- Issue commands in order; the first fault ends the run (R120). -/
def issueAll (cmds : List Instr) (s : State) : PipelineRun :=
  match runExpansion cmds s with
  | .next (t, .value _) => .next (t, .finished [])
  | .next (t, .commandFault code info) => leaveWithFlush (.commandFault code info) t
  | .fault f => .fault f
  | .refused r => .refused r

/-- Write bytes directly to the sink (R122); the first that fails ends the run. -/
def sinkAll (bytes : List Byte) (s : State) : PipelineRun :=
  match bytes with
  | [] => .next (s, .finished [])
  | v :: rest =>
    match snkWrite v s with
    | .done _ t => sinkAll rest t
    | .raised c t => leaveWithFlush (.streamError (causeInfo c)) t
    | .stuck f => .fault f

/-- Go on with `k` only after a part that finished. -/
def afterFinished (r : PipelineRun) (k : State → PipelineRun) : PipelineRun :=
  match r with
  | .next (t, .finished _) => k t
  | .next (t, e) => .next (t, e)
  | .fault f => .fault f
  | .refused r => .refused r

/-- Steps 3 to 5 (R120): the header, then commands, then the end of the second pass over the input. -/
def headerThen (len : Nat) (cmds : List Instr) (fails : Option (Nat × BitVec 32)) (s : State) : PipelineRun :=
  afterFinished (sinkAll (headerBytes len) s) fun s1 =>
  afterFinished (issueAll cmds s1) fun s2 =>
    match fails with
    | none => .next (s2, .finished [])
    | some (_, e) => leaveWithFlush (.inputError e) s2

/-- Steps 1 to 5 of `COMPRESS` (R120), reset first (R193). The empty input has no tree (44_host_tree_and_codes.md R143): what
follows its header is `EMPTY_INPUT_POLICY`'s (R134). -/
def compressBits (order : MergeOrder) (policy : EmptyInputPolicy) (input : InputSource) (s : State) : PipelineRun :=
  if 2 ^ 32 ≤ input.bytes.length then .next (s, .failed [] .inputTooLong)
  else
    match countFrequencies input with
    | .error e => leaveWithFlush (.inputError e) (resetBlock s)
    | .ok table =>
      if input.bytes.isEmpty then headerThen 0 (pseudoWbits policy.written) input.encodeFails (resetBlock s)
      else
        match buildTree order table with
        | none => leaveWithFlush .invariantViolation (resetBlock s)
        | some t =>
          match encodeData (codeOf (extractCodes t)) (bytesRead input.bytes input.encodeFails) with
          | none => leaveWithFlush .invariantViolation (resetBlock s)
          | some bits =>
            headerThen input.bytes.length (.tser :: pseudoWbits bits) input.encodeFails (loadTree t 0 (resetBlock s))

/-- `COMPRESS` (R120): steps 1 to 5, then step 6, one WFLUSH (R125). DESIGN CHOICE (log 27; unsafe): where that WFLUSH itself
completes with a fault, the WFLUSH of the error path (R120, R194) is a second one, as after every other command. -/
def compress (order : MergeOrder) (policy : EmptyInputPolicy) (input : InputSource) (s : State) : PipelineRun :=
  afterFinished (compressBits order policy input s) (issueAll [.wflush])

/-- Walk TMEM from entry `i` by RBITs to a Leaf (R131): its symbol. `fuel` bounds the walk by the tree's size. -/
def decodeSymbol (fuel : Nat) (i : Index) (s : State) : PipelineRun :=
  match fuel with
  | 0 => .next (s, .failed [] .invariantViolation)
  | n + 1 =>
    if i = Config.nil then .next (s, .failed [] .invariantViolation)
    else if entryTag s i then .next (s, .finished [entrySym s i])
    else
      match exec .rbit s with
      | .next t =>
        if t.code = .ok then decodeSymbol n (if t.value then entryRight t i else entryLeft t i) t
        else .next (t, .failed [] (.commandFault t.code t.errinfo))
      | .fault f => .fault f
      | .refused r => .refused r

/-- The output of DECOMPRESS (R126, R127), a byte sink apart from `SNK`: what the run has written to it, and how it answers
the coming writes. DESIGN CHOICE (log 23; safe): the answers are a list of their own, `ok` beyond its end. -/
structure OutputSink where
  written : List Byte
  answers : List Answer
  deriving DecidableEq, Repr

/-- An output that accepts every byte it will be offered. -/
def OutputAccepts (answers : List Answer) : Prop := ∀ a ∈ answers, a = .ok

/-- Write bytes to the output, the block standing at `s`, then go on with `k`. The first that fails ends the run with the
output's error value, verbatim and not retried (60_exceptions.md R161); what was written before it stays written. -/
def writeOutput (bytes : List Byte) (out : OutputSink) (s : State) (k : OutputSink → PipelineRun) : PipelineRun :=
  match bytes with
  | [] => k out
  | v :: rest =>
    match nextAnswer out.answers with
    | .ok => writeOutput rest { written := out.written ++ [v], answers := out.answers.tail } s k
    | .fail e => .next (s, .failed out.written (.outputError e))
    | .never => .fault .sinkNeverAnswers

/-- The decode loop (R131): exactly `n` symbols, each written to the output as it is decoded (R126). What the output holds
when a symbol fails stays written. -/
def decodeLoop (n : Nat) (out : OutputSink) (s : State) : PipelineRun :=
  match n with
  | 0 => .next (s, .finished out.written)
  | k + 1 =>
    match decodeSymbol (Config.nodeCap + 1) Config.root s with
    | .next (t, .finished sym) => writeOutput sym out t fun more => decodeLoop k more t
    | .next (t, .failed _ why) => .next (t, .failed out.written why)
    | .fault f => .fault f
    | .refused r => .refused r

/-- Steps 2 to 4 of `DECOMPRESS` (R126, R129 to R131): TDES, then the single-Leaf case or the decode loop. -/
def decompressBody (len : Nat) (out : OutputSink) (s : State) : PipelineRun :=
  match exec .tdes s with
  | .next t =>
    if t.code ≠ .ok then .next (t, .failed out.written (.commandFault t.code t.errinfo))
    else if entryTag t Config.root then
      writeOutput (List.replicate len (entrySym t Config.root)) out t fun more => .next (t, .finished more.written)
    else decodeLoop len out t
  | .fault f => .fault f
  | .refused r => .refused r

/-- Read `n` bytes directly from the source (R128). -/
def sourceAll (n : Nat) (acc : List Byte) (s : State) : PipelineRun :=
  match n with
  | 0 => .next (s, .finished acc)
  | k + 1 =>
    match srcRead s with
    | .done v t => sourceAll k (acc ++ [v]) t
    | .raised c t => .next (t, .failed [] (.streamError (causeInfo c)))
    | .stuck f => .fault f

/-- `DECOMPRESS` (R126): from the block as it stands, reset first (R193). `answers` is how its output answers. -/
def decompress (policy : EmptyInputPolicy) (answers : List Answer) (s : State) : PipelineRun :=
  match sourceAll 4 [] (resetBlock s) with
  | .next (t, .finished [h0, h1, h2, h3]) =>
    if headerLength h0 h1 h2 h3 = 0 ∧ policy.deserialize = false then .next (t, .finished [])
    else decompressBody (headerLength h0 h1 h2 h3) ⟨[], answers⟩ t
  | .next (t, e) => .next (t, e)
  | .fault f => .fault f
  | .refused r => .refused r

/-- The compressed artifact of an input under a given tree (30_encoding.md R70): header, tree bits, data bits, padding. -/
def artifact (t : Tree) (input : List Byte) : Option (List Byte) :=
  (encodeData (codeOf (extractCodes t)) input).map fun data => headerBytes input.length ++ pack (ser t ++ data)

/-- A compress run is over (70_reset_and_hazards.md R204): steps 1 to 5 have finished and the WFLUSH of step 6 has completed
`OK`. What then holds of the block and of the sink is the obligation CompressWritesTheArtifact. -/
def CompressRunOver (order : MergeOrder) (policy : EmptyInputPolicy) (input : InputSource) (s u : State) : Prop :=
  ∃ t, compressBits order policy input s = .next (t, .finished []) ∧ exec .wflush t = .next u ∧ u.code = .ok

/-- A decompress run is over (70_reset_and_hazards.md R204): the host has read a header and has emitted as many symbols as it
says, with no fault on the way and every symbol accepted. -/
structure DecompressRunOver (policy : EmptyInputPolicy) (answers : List Answer) (d v : State) (out : List Byte) : Prop where
  run : decompress policy answers d = .next (v, .finished out)
  emitted : ∃ t h0 h1 h2 h3,
    sourceAll 4 [] (resetBlock d) = .next (t, .finished [h0, h1, h2, h3]) ∧ out.length = headerLength h0 h1 h2 h3

end Sys2Proof.Machine
end

