-- ==== Sys2Proof/Safety.lean ====
section
/-! DEFINITION. What counts as a legal state and as a safe run: the spec's two register invariants (10_state.md R14, R17), the
clean state of 60_exceptions.md R166, and the host's duties of 70_reset_and_hazards.md R194 to R201 as predicates. -/

namespace Sys2Proof.Machine

/-- The writer invariant (10_state.md R14): while `W_ERR` = 0, every bit of `WACC` below position `8 - WCNT` is 0. -/
def WriterInv (s : State) : Bool := s.wErr || (s.wacc <<< s.wcnt.toNat == 0#8)

/-- The reader invariant (10_state.md R17): `RCNT` ≤ 7 and every bit of `RBYTE` below position `8 - RCNT` is 0. -/
def ReaderInv (s : State) : Bool := s.rcnt.toNat ≤ 7 && (s.rbyte <<< s.rcnt.toNat == 0#8)

/-- TMEM is in canonical form and lists words of TMEM alone (20_memory.md R41). -/
def MemoryInv (s : State) : Bool :=
  Memory.wf s.tmem && memWithin Config.tmemBase (entryAddr Config.nodeCap) s.tmem

/-- No more bytes have been consumed than the source holds (10_state.md R25). -/
def SourceInv (s : State) : Bool := s.spos ≤ s.src.length

/-- The invariant of the machine: what every state between commands satisfies. -/
def State.Inv (s : State) : Prop := WriterInv s ∧ ReaderInv s ∧ MemoryInv s ∧ SourceInv s

/-- All four sticky bits are 0: "a clean block" (60_exceptions.md R166). -/
def NoFault (s : State) : Bool := !s.wErr && !s.rErr && !s.tErr && !s.cErr

/-- The sink accepts every byte it will be offered. -/
def SinkAccepts (s : State) : Prop := ∀ a ∈ s.snkAnswers, a = .ok

/-- The source gives every byte it has: it fails only at its end. -/
def SourceDelivers (s : State) : Prop := ∀ a ∈ s.srcAnswers, a = .ok

/-- Every transaction of either stream is answered (70_reset_and_hazards.md R205: the only liveness assumption). -/
def StreamsAnswer (s : State) : Prop := .never ∉ s.snkAnswers ∧ .never ∉ s.srcAnswers

/-- The writer stands at a byte boundary with nothing pending (40_bitwriter.md R84). -/
def WriterAtBoundary (s : State) : Prop := s.wcnt = 0#3 ∧ s.wacc = 0#8 ∧ s.wErr = false

/-- BW, its sink and its ghost position are as before. -/
structure SameWriter (s t : State) : Prop where
  wacc : t.wacc = s.wacc
  wcnt : t.wcnt = s.wcnt
  snk : t.snk = s.snk
  wpos : t.wpos = s.wpos
  snkAnswers : t.snkAnswers = s.snkAnswers

/-- BR, its source and its ghost position are as before. -/
structure SameReader (s t : State) : Prop where
  rbyte : t.rbyte = s.rbyte
  rcnt : t.rcnt = s.rcnt
  src : t.src = s.src
  spos : t.spos = s.spos
  rpos : t.rpos = s.rpos
  srcAnswers : t.srcAnswers = s.srcAnswers

/-- TC is as before: `TNODES` and what every word of TMEM reads as. -/
structure SameTree (s t : State) : Prop where
  tnodes : t.tnodes = s.tnodes
  tmem : t.tmem = s.tmem
  tmemEpoch : t.tmemEpoch = s.tmemEpoch
  reads : ∀ a, tmemRead t a = tmemRead s a

/-- The four sticky bits of STATUS are as before. -/
structure SameSticky (s t : State) : Prop where
  wErr : t.wErr = s.wErr
  rErr : t.rErr = s.rErr
  tErr : t.tErr = s.tErr
  cErr : t.cErr = s.cErr

/-- The host's coming actions and what it was last handed are as before. -/
structure SameHost (s t : State) : Prop where
  host : t.host = s.host
  reply : t.reply = s.reply

/-- The command completed `OK` with this value, `ERRINFO` unchanged (60_exceptions.md R160 to R162). -/
structure CompletedOk (v : Bool) (s t : State) : Prop where
  code : t.code = .ok
  value : t.value = v
  errinfo : t.errinfo = s.errinfo

/-- The command completed with this fault: `RESULT`, `ERRINFO` and the fault's own sticky bit as fault entry leaves them,
the other three sticky bits as before (60_exceptions.md R161, R163 steps 3 to 5). -/
structure CompletedFault (c : Cause) (s t : State) : Prop where
  code : t.code = causeCode c
  value : t.value = false
  errinfo : t.errinfo = causeInfo c
  wErr : t.wErr = (s.wErr || decide (causeCode c = .sinkError))
  rErr : t.rErr = (s.rErr || decide (causeCode c = .sourceError))
  tErr : t.tErr = (s.tErr || decide (causeCode c = .treeCapacity ∨ causeCode c = .treeInvariant))
  cErr : t.cErr = (s.cErr || decide (causeCode c = .illegalCommand))

/-- What the host owes the block before this action: direct stream accesses only at byte boundaries (70 R196, R197), a
WFLUSH inside a stream only with nothing pending (R198), a tree in TMEM before TSER (R199), a reset before any further
use after a fault (R201). `flushEnds` says that a WFLUSH here ends the stream. -/
def HostDuty (flushEnds : Bool) (act : HostAction) (s : State) : Prop :=
  match act with
  | .sinkByte _ => s.wcnt = 0#3
  | .sourceByte => s.rcnt = 0#4
  | .write a w =>
    if a = 0x000#11 then
      match decodeCommand w with
      | .ok .wflush => flushEnds = true ∨ s.wcnt = 0#3
      | .ok .tser => NoFault s = true ∧ ∃ t, HoldsTree s t = true
      | .ok (.wbit _) => NoFault s = true
      | .ok .rbit => NoFault s = true
      | .ok .tdes => NoFault s = true
      | .ok .tok0 => False
      | .ok (.tok1 _) => False
      | .error _ => False
    else True
  | .read _ => True
  | .reset => True

end Sys2Proof.Machine
end

