-- ==== Sys2Proof/Certificates/Slice0/Obligations.lean ====
section
/-! DEFINITION. The statements for the provers. Each docstring names the rule of spec/ it formalises; where a statement rests
on a choice of the model, the docstring names the log entry. -/

open Sys2Proof Sys2Proof.Machine

/-! ## Encoding -/

/-- 30_encoding.md R60 to R66. Encoding and decoding agree, in both directions, for every instruction: each decodes from its
encoding; a word written to `CMD` is a command exactly when it is the zero-extended command word of one; a bit string
begins with a token exactly when it begins with the bits of one, and the rest is what follows them. -/
def Obligations.EncodeDecodeAgree : Prop :=
  (∀ i : Instr, decode (encode i) = some i) ∧
  (∀ (w : BitVec 32) (i : Instr),
    decodeCommand w = .ok i ↔ ∃ cw, encodeCommand i = some cw ∧ w = cw.setWidth 32) ∧
  (∀ (bits rest : Bits) (i : Instr),
    decodeToken bits = some (i, rest) ↔ ∃ tb, encodeToken i = some tb ∧ bits = tb ++ rest)

/-- 30_encoding.md R62, R64: words and token bits written out from the spec's tables decode to what they stand for. -/
def Obligations.WordsOfTheTableDecode : Prop :=
  decodeCommand 0x00000010#32 = .ok (.wbit false) ∧ decodeCommand 0x00000011#32 = .ok (.wbit true) ∧
  decodeCommand 0x00000020#32 = .ok .wflush ∧ decodeCommand 0x00000030#32 = .ok .rbit ∧
  decodeCommand 0x00000040#32 = .ok .tser ∧ decodeCommand 0x00000050#32 = .ok .tdes ∧
  decodeToken [false, true, true] = some (.tok0, [true, true]) ∧
  decodeToken [true, false, true, true, false, false, false, false, true, false] = some (.tok1 0x61#8, [false])

/-- 30_encoding.md R63, 60_exceptions.md R170. A word written to `CMD` that is not one of the six legal ones raises
IllegalCommand and changes no BW, BR or TC state and neither stream. -/
def Obligations.IllegalWordRaisesIllegalCommand : Prop :=
  ∀ (w : BitVec 32) (s : State),
    w ∉ [0x10#32, 0x11#32, 0x20#32, 0x30#32, 0x40#32, 0x50#32] →
    ∃ t, portWrite 0x000#11 w s = .next t ∧ CompletedFault .illegalCommand s t ∧
      SameWriter s t ∧ SameReader s t ∧ SameTree s t ∧ SameHost s t

/-! ## Reset and status -/

/-- 70_reset_and_hazards.md R191. The reset input gives every register its reset value; pending and held bits are discarded,
the sink and the source as they were. -/
def Obligations.ResetClearsRegisters : Prop :=
  ∀ s : State, ∃ t, perform .reset s = .next t ∧
    t.wacc = 0#8 ∧ t.wcnt = 0#3 ∧ t.rbyte = 0#8 ∧ t.rcnt = 0#4 ∧
    t.wErr = false ∧ t.rErr = false ∧ t.tErr = false ∧ t.cErr = false ∧
    statusWord t = 0#32 ∧ resultWord t = 0#32 ∧ t.errinfo = 0#32 ∧ t.tnodes = 0#10 ∧ t.wpos = 0 ∧ t.rpos = 0 ∧
    t.snk = s.snk ∧ t.src = s.src ∧ t.spos = s.spos

/-- 70_reset_and_hazards.md R192. Reset touches neither `TMEM` nor the streams, and the block then waits for a command: with
nothing for the host to do a step changes nothing (log 20). -/
def Obligations.ResetKeepsMemoryAndStreams : Prop :=
  ∀ s : State, ∃ t, perform .reset s = .next t ∧
    (∀ a, tmemRead t a = tmemRead s a) ∧ t.tmem = s.tmem ∧ t.snk = s.snk ∧ t.src = s.src ∧ t.spos = s.spos ∧
    (t.host = [] → step t = .next t)

/-- 10_state.md R29. The machine at power-up is as the reset input leaves it, and satisfies the invariant. Its empty streams
and its empty list of host actions are the model's choice (logs 1, 2, 16). -/
def Obligations.PowerUpIsReset : Prop :=
  resetBlock State.reset = State.reset ∧ State.reset.Inv ∧ NoFault State.reset = true

/-- 10_state.md R18. The fields of `STATUS`. -/
def Obligations.StatusFields : Prop :=
  ∀ s : State,
    (statusWord s).extractLsb' 0 3 = s.wcnt ∧ (statusWord s).getLsbD 3 = false ∧
    (statusWord s).extractLsb' 4 4 = s.rcnt ∧ (statusWord s).getLsbD 8 = s.wErr ∧
    (statusWord s).getLsbD 9 = s.rErr ∧ (statusWord s).getLsbD 10 = s.tErr ∧ (statusWord s).getLsbD 11 = s.cErr ∧
    (statusWord s).extractLsb' 12 20 = 0#20

/-- 10_state.md R19, 60_exceptions.md R161. The fields of `RESULT` and the numbers of the status codes. -/
def Obligations.ResultFields : Prop :=
  ∀ s : State,
    (resultWord s).extractLsb' 0 4 = codeBits s.code ∧ (resultWord s).extractLsb' 4 4 = 0#4 ∧
    (resultWord s).getLsbD 8 = s.value ∧ (resultWord s).extractLsb' 9 23 = 0#23 ∧
    codeBits .ok = 0#4 ∧ codeBits .sinkError = 1#4 ∧ codeBits .sourceError = 2#4 ∧ codeBits .illegalCommand = 3#4 ∧
    codeBits .treeCapacity = 4#4 ∧ codeBits .treeInvariant = 5#4

/-! ## Fault entry -/

/-- 60_exceptions.md R163. Fault entry sets the fault's own sticky bit, `ERRINFO` and `RESULT`; undoes nothing: the streams,
BR, and (but for a SinkError's unspecified `WACC` and `WCNT`) BW are as at the raise; and inside TDES too. -/
def Obligations.FaultEntryUndoesNothing : Prop :=
  ∀ (c : Cause) (s : State),
    CompletedFault c s (enterFault c s) ∧ SameReader s (enterFault c s) ∧ SameTree s (enterFault c s) ∧
    SameHost s (enterFault c s) ∧ (enterFault c s).snk = s.snk ∧
    (causeCode c ≠ .sinkError → SameWriter s (enterFault c s)) ∧
    CompletedFault c s (enterTreeFault c s) ∧ SameReader s (enterTreeFault c s) ∧ SameHost s (enterTreeFault c s) ∧
    (causeCode c ≠ .sinkError → SameWriter s (enterTreeFault c s))

/-- 60_exceptions.md R166. A sticky bit is cleared by no command and no host access but the reset input. -/
def Obligations.StickyBitsClearedOnlyByReset : Prop :=
  ∀ (act : HostAction) (rest : List HostAction) (s t : State),
    s.host = act :: rest → act ≠ .reset → step s = .next t →
    (s.wErr = true → t.wErr = true) ∧ (s.rErr = true → t.rErr = true) ∧ (s.tErr = true → t.tErr = true) ∧
    (s.cErr = true → t.cErr = true)

/-- 60_exceptions.md R161, R163. The commands raise only their own faults: WBIT and WFLUSH SinkError, RBIT SourceError, TSER
SinkError or TreeInvariant, TDES (and a token inside it) SourceError or TreeCapacity. -/
def Obligations.EachCommandRaisesItsOwnFaults : Prop :=
  ∀ (i : Instr) (s t : State), exec i s = .next t →
    match i with
    | .wbit _ => t.code = .ok ∨ t.code = .sinkError
    | .wflush => t.code = .ok ∨ t.code = .sinkError
    | .rbit => t.code = .ok ∨ t.code = .sourceError
    | .tser => t.code = .ok ∨ t.code = .sinkError ∨ t.code = .treeInvariant
    | .tdes => t.code = .ok ∨ t.code = .sourceError ∨ t.code = .treeCapacity
    | .tok0 => t.code = s.code ∨ t.code = .sourceError ∨ t.code = .treeCapacity
    | .tok1 _ => t.code = s.code ∨ t.code = .treeCapacity

/-- 60_exceptions.md R175. An unanswered transaction is a stuck state (log 3): each operation that needs the sink or the source
stops there by name. TSER stops where the bits of the tree it writes meet it; TDES, and the token TOK0 (log 13), where the
bits of the tree they read do: `bits` are those delivered before, which end inside the tree (`des`) and hold no more tags
than entries are left. TOK1 makes no transaction. -/
def Obligations.UnansweredTransactionIsStuck : Prop :=
  (∀ s : State, nextAnswer s.snkAnswers = .never →
    (s.wcnt = 7#3 → ∀ b, exec (.wbit b) s = .fault .sinkNeverAnswers) ∧
    (s.wcnt ≠ 0#3 → exec .wflush s = .fault .sinkNeverAnswers) ∧
    (∀ v, perform (.sinkByte v) s = .fault .sinkNeverAnswers)) ∧
  (∀ s : State, nextAnswer s.srcAnswers = .never →
    (s.rcnt = 0#4 → exec .rbit s = .fault .sourceNeverAnswers) ∧ perform .sourceByte s = .fault .sourceNeverAnswers) ∧
  (∀ (t : Tree) (f : Fault) (s : State), HoldsTree s t = true → putBits (ser t) s = .stuck f →
    exec .tser s = .fault f ∧ f = .sinkNeverAnswers) ∧
  (∀ (bits : Bits) (f : Fault) (s v : State), getBits bits.length s = .done bits v → getBit v = .stuck f →
    f = .sourceNeverAnswers ∧
    (des bits = none → tagCount bits ≤ Config.nodeCap → exec .tdes s = .fault f) ∧
    (des (false :: bits) = none → s.tnodes.toNat + tagCount (false :: bits) ≤ Config.nodeCap → exec .tok0 s = .fault f)) ∧
  (∀ (sym : BitVec 8) (s : State), ∃ t, exec (.tok1 sym) s = .next t)

/-- 60_exceptions.md R175, 70_reset_and_hazards.md R205. When every stream transaction answers, every step ends in a next
state, on every state and whatever the host does, TSER and TDES on every memory image and every bit stream included. -/
def Obligations.EveryStepEndsWhenStreamsAnswer : Prop :=
  ∀ s : State, StreamsAnswer s → ∃ t, step s = .next t ∧ StreamsAnswer t

/-! ## The bit writer -/

/-- 40_bitwriter.md R82 (with R80, R81). WBIT, command words 0x10 and 0x11. A bit that is not the eighth goes into `WACC` at
position `7 - WCNT`, touches no stream and cannot fault; the eighth, accepted by the sink, emits the whole byte and clears
`WACC` and `WCNT`. In these cases the whole next state is given, so nothing else changes. When the sink refuses the byte
the command completes with SinkError, `ERRINFO` its value verbatim, the sink having accepted nothing; nothing is then said
of `WACC` and `WCNT`, which are unspecified. `answers` is the model's own list of the sink's coming answers (log 2). -/
def Obligations.WbitPutsOneBit : Prop :=
  ∀ (b : Bool) (s : State),
    encodeCommand (.wbit b) = some (if b then 0x11#8 else 0x10#8) ∧
    if s.wcnt.toNat < 7 then
      exec (.wbit b) s = .next { s with
        wacc := s.wacc ||| (zext8 b <<< (7 - s.wcnt.toNat)), wcnt := s.wcnt + 1, wpos := s.wpos + 1,
        code := .ok, value := false }
    else
      (nextAnswer s.snkAnswers = .ok →
        ∃ answers, exec (.wbit b) s = .next { s with
          snk := s.snk ++ [s.wacc ||| zext8 b], snkAnswers := answers, wacc := 0#8, wcnt := 0#3,
          wpos := s.wpos + 1, code := .ok, value := false }) ∧
      (∀ e, nextAnswer s.snkAnswers = .fail e →
        ∃ t, exec (.wbit b) s = .next t ∧ CompletedFault (.sinkError e) s t ∧ t.snk = s.snk ∧
          SameReader s t ∧ SameTree s t ∧ SameHost s t)

/-- 42_treecodec.md R106, 60_exceptions.md R163, R168. A byte the sink refuses ends TSER with SinkError at that bit: what was
put before stays put, nothing is put after. `putBits (ser t) s = .raised (.sinkError e) u` says that the sink refuses a
byte among the tree's bits, in the state `u`. -/
def Obligations.TserStopsAtTheRefusedByte : Prop :=
  ∀ (t : Tree) (e : BitVec 32) (s u : State), HoldsTree s t = true → putBits (ser t) s = .raised (.sinkError e) u →
    exec .tser s = .next (enterFault (.sinkError e) u) ∧ s.snk <+: u.snk ∧ SameReader s u ∧ SameTree s u ∧ SameHost s u

/-- 40_bitwriter.md R83 (with R81). WFLUSH, command word 0x20: with nothing pending it changes `RESULT` alone; with a partial
byte pending, accepted by the sink, it emits `WACC` and clears `WACC` and `WCNT`. In these cases the whole next state is given,
and a second WFLUSH right after changes nothing. When the sink refuses the byte the command completes with SinkError; nothing
is then said of `WACC` and `WCNT`, which are unspecified. `answers` is as in WBIT's statement. -/
def Obligations.WflushEmitsThePartialByte : Prop :=
  encodeCommand .wflush = some 0x20#8 ∧
  ∀ s : State,
    if s.wcnt = 0#3 then exec .wflush s = .next { s with code := .ok, value := false }
    else
      (nextAnswer s.snkAnswers = .ok →
        (∃ answers, exec .wflush s = .next { s with
          snk := s.snk ++ [s.wacc], snkAnswers := answers, wacc := 0#8, wcnt := 0#3, code := .ok, value := false }) ∧
        ∀ t, exec .wflush s = .next t → exec .wflush t = .next t) ∧
      (∀ e, nextAnswer s.snkAnswers = .fail e →
        ∃ t, exec .wflush s = .next t ∧ CompletedFault (.sinkError e) s t ∧ t.snk = s.snk ∧
          SameReader s t ∧ SameTree s t ∧ SameHost s t)

/-- 20_memory.md R52, 40_bitwriter.md R86. WFLUSH is the barrier of the write side: after one that completed `OK` the sink has
every bit written before it, the pending ones as a byte whose low-order bits are zero, and nothing is pending. -/
def Obligations.FlushedBitsAreInTheSink : Prop :=
  ∀ s t : State, WriterInv s = true → s.wErr = false → exec .wflush s = .next t → t.code = .ok →
    t.wcnt = 0#3 ∧ t.wacc = 0#8 ∧
    unpack t.snk = unpack s.snk ++ pendingBits s ++ List.replicate ((8 - s.wcnt.toNat) % 8) false

/-- 40_bitwriter.md R84. The packing law: from a byte boundary, when the bits of a string have been put and every byte was
accepted, the sink holds their full bytes and `WACC` the partial one; a WFLUSH that completes `OK` then completes the packing.
With a sink that accepts every byte both happen. -/
def Obligations.BitsArePacked : Prop :=
  ∀ (bits : Bits) (s : State), WriterAtBoundary s →
    (∀ t : State, putBits bits s = .done () t →
      t.snk = s.snk ++ (pack bits).take (bits.length / 8) ∧ t.wcnt.toNat = bits.length % 8 ∧
      t.wacc = (if bits.length % 8 = 0 then 0#8 else (pack bits).getLastD 0#8) ∧
      ∀ u, exec .wflush t = .next u → u.code = .ok → u.snk = s.snk ++ pack bits ∧ u.wcnt = 0#3 ∧ u.wacc = 0#8) ∧
    (SinkAccepts s → ∃ t u, putBits bits s = .done () t ∧ exec .wflush t = .next u ∧ u.code = .ok)

/-- 40_bitwriter.md R85. Under the conditions of R84 the writes make `floor(|s|/8)` sink transactions and the WFLUSH makes the
count `ceil(|s|/8)`, and every later WFLUSH makes none. A transaction takes one answer of the sink (log 2) and, accepted,
appends one byte. -/
def Obligations.SinkTransactionsAreCounted : Prop :=
  ∀ (bits : Bits) (s t u : State), WriterAtBoundary s → putBits bits s = .done () t → exec .wflush t = .next u →
    u.code = .ok →
    t.snkAnswers = s.snkAnswers.drop (bits.length / 8) ∧ t.snk.length = s.snk.length + bits.length / 8 ∧
    u.snkAnswers = s.snkAnswers.drop ((bits.length + 7) / 8) ∧ u.snk.length = s.snk.length + (bits.length + 7) / 8 ∧
    exec .wflush u = .next u

/-- 00_scope.md R8. `unpack(pack(s)) = s ++ zeros(-|s| mod 8)`. -/
def Obligations.UnpackOfPack : Prop :=
  ∀ bits : Bits, unpack (pack bits) = bits ++ List.replicate ((8 - bits.length % 8) % 8) false

/-! ## The bit reader -/

/-- 41_bitreader.md R92 (with R90, R91). RBIT, command word 0x30: the most significant held bit is the value, the held byte
shifts left and the count goes down; a byte is loaded first only when none of its bits is held. In these cases the whole next
state is given. When a load fails the command completes with SourceError, BR and the source as they were. `answers` is the model's own
list of the source's coming answers (log 2). -/
def Obligations.RbitReturnsNextBit : Prop :=
  encodeCommand .rbit = some 0x30#8 ∧
  ∀ s : State,
    if s.rcnt = 0#4 then
      (∀ v, nextAnswer s.srcAnswers = .ok → s.src[s.spos]? = some v →
        ∃ answers, exec .rbit s = .next { s with
          rbyte := v <<< 1, rcnt := 7#4, spos := s.spos + 1, srcAnswers := answers, rpos := s.rpos + 1,
          code := .ok, value := v.getLsbD 7 }) ∧
      (∀ e, srcRead s = .raised (.sourceError e) { s with srcAnswers := s.srcAnswers.tail } →
        ∃ t, exec .rbit s = .next t ∧ CompletedFault (.sourceError e) s t ∧
          t.rbyte = s.rbyte ∧ t.rcnt = s.rcnt ∧ t.src = s.src ∧ t.spos = s.spos ∧ t.rpos = s.rpos)
    else
      exec .rbit s = .next { s with
        rbyte := s.rbyte <<< 1, rcnt := s.rcnt - 1, rpos := s.rpos + 1, code := .ok, value := s.rbyte.getLsbD 7 }

/-- 41_bitreader.md R91, 20_memory.md R43, 60_exceptions.md R169. With no bit held, a source that is exhausted (value `E_EOS` =
1) or that fails before its end (its own value, verbatim) makes RBIT complete with SourceError; `RBYTE`, `RCNT`, `SPOS`, BW
and TC are untouched. -/
def Obligations.SourceFailureRaisesSourceError : Prop :=
  ∀ (e : BitVec 32) (s : State), s.rcnt = 0#4 →
    (nextAnswer s.srcAnswers ≠ .never ∧ s.src.length ≤ s.spos ∧ e = 1#32 ∨
      nextAnswer s.srcAnswers = .fail e ∧ s.spos < s.src.length) →
    ∃ t, exec .rbit s = .next t ∧ CompletedFault (.sourceError e) s t ∧
      t.rbyte = s.rbyte ∧ t.rcnt = s.rcnt ∧ t.src = s.src ∧ t.spos = s.spos ∧ t.rpos = s.rpos ∧
      SameWriter s t ∧ SameTree s t ∧ SameHost s t

/-- 41_bitreader.md R93. The unpacking law: from a byte boundary, `n` bits read with no failure are the first `n` bits of the
source's remaining bytes; `SPOS`, `RCNT` and `RBYTE` follow from `n`. Bytes that are the packing of a string give that
string and then its zero padding. -/
def Obligations.BytesAreUnpacked : Prop :=
  ∀ s : State, s.rcnt = 0#4 →
    (∀ (n : Nat) (bits : Bits) (t : State), getBits n s = .done bits t →
      bits = (unpack (s.src.drop s.spos)).take n ∧ t.spos = s.spos + (n + 7) / 8 ∧ t.rcnt.toNat = (8 - n % 8) % 8 ∧
      (0 < n → t.rbyte = s.src.getD (t.spos - 1) 0#8 <<< (8 - t.rcnt.toNat))) ∧
    (∀ w : Bits, SourceDelivers s → s.src.drop s.spos = pack w →
      ∃ t u, getBits w.length s = .done w t ∧
        getBits ((8 - w.length % 8) % 8) t = .done (List.replicate ((8 - w.length % 8) % 8) false) u)

/-- 40_bitwriter.md R84 with 41_bitreader.md R93. What BW writes BR reads back: the bits of any string, written from a byte
boundary and flushed, are the first bits BR returns from those bytes; the rest of the last byte is zero padding. -/
def Obligations.WrittenBitsReadBack : Prop :=
  ∀ (bits : Bits) (s : State), WriterAtBoundary s → SinkAccepts s →
    ∃ t u, putBits bits s = .done () t ∧ exec .wflush t = .next u ∧
      ∀ r : State, r.rcnt = 0#4 → SourceDelivers r → r.src.drop r.spos = u.snk.drop s.snk.length →
        ∃ r1 r2, getBits bits.length r = .done bits r1 ∧
          getBits ((8 - bits.length % 8) % 8) r1 = .done (List.replicate ((8 - bits.length % 8) % 8) false) r2

/-! ## The abstract codec -/

/-- 42_treecodec.md R102. `|ser(t)| = 9 * leaves(t) + (leaves(t) - 1) = 10 * leaves(t) - 1`, and so 9, 19, 29, 49, 59 and 2559
bits (320 bytes when padded alone) for 1, 2, 3, 5, 6 and 256 leaves. -/
def Obligations.SerialisedLength : Prop :=
  ∀ t : Tree,
    (ser t).length = 9 * treeLeaves t + (treeLeaves t - 1) ∧ (ser t).length = 10 * treeLeaves t - 1 ∧
    (treeLeaves t = 1 → (ser t).length = 9) ∧ (treeLeaves t = 2 → (ser t).length = 19) ∧
    (treeLeaves t = 3 → (ser t).length = 29) ∧ (treeLeaves t = 5 → (ser t).length = 49) ∧
    (treeLeaves t = 6 → (ser t).length = 59) ∧
    (treeLeaves t = 256 → (ser t).length = 2559 ∧ (pack (ser t)).length = 320)

/-- 42_treecodec.md R103. `des` satisfies the equations the spec defines it by (the bound on its nesting never shows); the tree it
answers has the placeholder frequencies, the number of leaves below each node, so that the frequency invariant holds; and it
consumes exactly the bits of that tree and returns the rest untouched. -/
def Obligations.DesFollowsItsEquations : Prop :=
  des [] = none ∧
  (∀ s : Bits, des (true :: s) = if s.length < 8 then none else some (.leaf (val8 (s.take 8)) 1, s.drop 8)) ∧
  (∀ s : Bits, des (false :: s) =
    match des s with
    | none => none
    | some (l, s1) =>
      match des s1 with
      | none => none
      | some (r, s2) => some (.internal (treeFreq l + treeFreq r) l r, s2)) ∧
  (∀ (s x : Bits) (t : Tree), des s = some (t, x) →
    t = treePlaceholder t ∧ treeFreq t = treeLeaves t ∧ treeFreqInvariant t = true ∧ s = ser t ++ x)

/-- 42_treecodec.md R104. The round-trip law and its converse. The tree that comes back has the shape of the one written and
the placeholder frequencies of R103. Hence trees of different shapes have different serialisations, and no serialisation is a
proper initial part of another. -/
def Obligations.SerialiseDeserialiseRoundTrip : Prop :=
  (∀ (t : Tree) (x : Bits), ∃ t', des (ser t ++ x) = some (t', x) ∧ treeShape t' = treeShape t ∧
    t' = treePlaceholder t) ∧
  (∀ (s x : Bits) (t : Tree), des s = some (t, x) → s = ser t ++ x) ∧
  (∀ (t u : Tree) (x : Bits), ser t ++ x = ser u → x = [] ∧ treeShape t = treeShape u)

/-- 42_treecodec.md R105. A proper initial part of a serialisation is the end of the bits for `des`. -/
def Obligations.TruncatedTreeEndsBits : Prop :=
  ∀ (t : Tree) (s x : Bits), ser t = s ++ x → x ≠ [] → des s = none

/-! ## TSER -/

/-- 42_treecodec.md R108 (with R106). TSER realises `ser`: on a memory that holds a tree, with a sink that accepts, it completes
`OK` after `nodes(t)` visits and has put exactly `ser(t)`; it does not flush, and BR, the source, `TMEM` and `TNODES` are
untouched. In a state with `W_ERR` = 1, which R108 leaves out, it rests on log 5. -/
def Obligations.TserRealisesSer : Prop :=
  ∀ (t : Tree) (s : State), HoldsTree s t = true → SinkAccepts s →
    ∃ u, putBits (ser t) s = .done () u ∧ serNode traversalFuel Config.root 0 s = .done (treeNodes t) u ∧
      exec .tser s = .next (completeOk false u) ∧ u.wpos = s.wpos + (ser t).length ∧ SameReader s u ∧ SameTree s u ∧
      SameSticky s u ∧ SameHost s u ∧
      u.errinfo = s.errinfo

/-- 42_treecodec.md R106, R112 (92 D14). With a sink that accepts, TSER ends on every memory image: `OK` exactly when `TMEM` holds
a tree, admitted (10_state.md R23), and with TreeInvariant otherwise. In a state with `W_ERR` = 1 it rests on log 5. -/
def Obligations.TserEndsOnEveryImage : Prop :=
  ∀ s : State, SinkAccepts s →
    ∃ u, exec .tser s = .next u ∧
      ((∃ t, HoldsTree s t = true) → CompletedOk false s u ∧ SameSticky s u) ∧
      ((¬ ∃ t, HoldsTree s t = true) → CompletedFault .treeInvariant s u) ∧
      SameReader s u ∧ SameTree s u ∧ SameHost s u

/-- 42_treecodec.md R106, R112. A missing child. Of the root, on the left: TreeInvariant, after the root's own `0` bit was put,
by fault entry from the state that bit leaves. Anywhere, left or right, with a sink that accepts: TreeInvariant. -/
def Obligations.MissingChildRaisesTreeInvariant : Prop :=
  (∀ s u : State, entryTag s Config.root = false → entryLeft s Config.root = Config.nil →
    putBits [false] s = .done () u → exec .tser s = .next (enterFault .treeInvariant u)) ∧
  (∀ (path : Bits) (s : State), SinkAccepts s → indexAlong s Config.root path = some Config.nil →
    ∃ u, exec .tser s = .next u ∧ CompletedFault .treeInvariant s u)

/-- 42_treecodec.md R106, R112. A cycle. Where the root is its own left child: TreeInvariant at the visit after `NODE_CAP` = 511
of them, after 511 zero bits. Any entry below the root that a non-empty path of left and right children leads back to, with
a sink that accepts: TreeInvariant. -/
def Obligations.CycleRaisesTreeInvariant : Prop :=
  (∀ s u : State, entryTag s Config.root = false → entryLeft s Config.root = Config.root →
    putBits (List.replicate 511 false) s = .done () u → exec .tser s = .next (enterFault .treeInvariant u)) ∧
  (∀ (path cycle : Bits) (i : Index) (s : State), SinkAccepts s → indexAlong s Config.root path = some i →
    cycle ≠ [] → indexAlong s i cycle = some i →
    ∃ u, exec .tser s = .next u ∧ CompletedFault .treeInvariant s u)

/-! ## TDES and the tokens -/

/-- 42_treecodec.md R107, R110. TDES realises `des`: when the bits BR would deliver begin with a tree of at most `NODE_CAP`
nodes, TDES completes `OK`, `TMEM` holds that tree, `TNODES` is its number of nodes, the entries above are unchanged, BR
stands at the first bit after it, and BW and the sink are untouched. -/
def Obligations.TdesRealisesDes : Prop :=
  ∀ (t : Tree) (rest : Bits) (s : State), SourceDelivers s → s.rcnt.toNat ≤ 8 →
    des (streamBits s) = some (t, rest) → treeNodes t ≤ Config.nodeCap →
    ∃ u, exec .tdes s = .next u ∧ HoldsTree u t = true ∧ u.tnodes.toNat = treeNodes t ∧
      (∀ a, entryAddr (treeNodes t) ≤ a → tmemRead u a = tmemRead s a) ∧
      streamBits u = rest ∧ u.rpos = s.rpos + (ser t).length ∧
      CompletedOk false s u ∧ SameWriter s u ∧ SameSticky s u ∧ SameHost s u

/-- 42_treecodec.md R109, R110. The image TDES leaves: pre-order allocation from entry 0, the left child next to its parent, the
right child after the left subtree, frequencies the numbers of leaves below, which are at most 256. -/
def Obligations.TdesAllocatesInPreorder : Prop :=
  ∀ (t : Tree) (rest : Bits) (s : State), SourceDelivers s → s.rcnt.toNat ≤ 8 →
    des (streamBits s) = some (t, rest) → treeNodes t ≤ Config.nodeCap →
    ∃ u, exec .tdes s = .next u ∧ PreorderImage u t 0 = true ∧ treeLeaves t ≤ 256

/-- 42_treecodec.md R111, R113, 60_exceptions.md R171. A tree of more than `NODE_CAP` nodes: TDES completes with TreeCapacity.
So does TDES on bits whose tree never ends, when the last of the bits `bits ++ [tag]` is the tag after `NODE_CAP` of them: BR
is then exactly as reading that tag leaves it. -/
def Obligations.OversizedTreeRaisesTreeCapacity : Prop :=
  (∀ (t : Tree) (rest : Bits) (s : State), SourceDelivers s → s.rcnt.toNat ≤ 8 →
    des (streamBits s) = some (t, rest) → Config.nodeCap < treeNodes t →
    ∃ u, exec .tdes s = .next u ∧ CompletedFault .treeCapacity s u ∧ SameWriter s u ∧ SameHost s u) ∧
  (∀ (bits : Bits) (tag : Bool) (s v : State), getBits (bits.length + 1) s = .done (bits ++ [tag]) v →
    des bits = none → tagCount bits = Config.nodeCap → tagCount (bits ++ [tag]) = Config.nodeCap + 1 →
    ∃ u, exec .tdes s = .next u ∧ CompletedFault .treeCapacity s u ∧ SameReader v u ∧ SameWriter s u ∧ SameHost s u)

/-- 42_treecodec.md R105, R107, 60_exceptions.md R163, R169. Bits that end inside the tree (few enough that entries cannot run
out first): TDES completes with SourceError and `E_EOS`, every byte of the source consumed. And however many bits were
delivered, as long as no tag is left without an entry, and whichever way the source fails then: TDES completes with
SourceError and the source's value, BR as the failing read leaves it. -/
def Obligations.TruncatedStreamRaisesSourceError : Prop :=
  (∀ s : State, SourceDelivers s → s.rcnt.toNat ≤ 8 → s.spos ≤ s.src.length →
    des (streamBits s) = none → (streamBits s).length ≤ Config.nodeCap →
    ∃ u, exec .tdes s = .next u ∧ CompletedFault (.sourceError 1#32) s u ∧ u.spos = s.src.length ∧ u.rcnt = 0#4 ∧
      SameWriter s u ∧ SameHost s u) ∧
  (∀ (bits : Bits) (e : BitVec 32) (s v w : State), getBits bits.length s = .done bits v →
    getBit v = .raised (.sourceError e) w → des bits = none → tagCount bits ≤ Config.nodeCap →
    ∃ u, exec .tdes s = .next u ∧ CompletedFault (.sourceError e) s u ∧ SameReader w u ∧ SameWriter s u ∧ SameHost s u)

/-- 42_treecodec.md R109. TSER on the image a TDES left reproduces the bits that TDES read. -/
def Obligations.TserReproducesWhatTdesRead : Prop :=
  ∀ s u : State, SourceDelivers s → SinkAccepts s → s.rcnt.toNat ≤ 8 → exec .tdes s = .next u → u.code = .ok →
    ∃ bits v, streamBits s = bits ++ streamBits u ∧ putBits bits u = .done () v ∧
      exec .tser u = .next (completeOk false v)

/-- 42_treecodec.md R104 in the hardware. A tree that TSER writes from a byte boundary, flushed, and read by TDES from those bytes
comes back with the same shape and the placeholder frequencies. -/
def Obligations.TreeSurvivesTserThenTdes : Prop :=
  ∀ (t : Tree) (s : State), HoldsTree s t = true → WriterAtBoundary s → SinkAccepts s →
    ∃ u v, exec .tser s = .next u ∧ exec .wflush u = .next v ∧
      ∀ r : State, r.rcnt = 0#4 → SourceDelivers r → r.src.drop r.spos = v.snk.drop s.snk.length →
        ∃ x, exec .tdes r = .next x ∧ x.code = .ok ∧ HoldsTree x (treePlaceholder t) = true

/-- 30_encoding.md R64, 42_treecodec.md R107. Token TOK1 stores one Leaf in the next entry: symbol, `NIL` children, frequency 1.
Every other word of TMEM is unchanged, and so is everything else. That a token is an instruction of its own is the model's
choice (log 13). -/
def Obligations.Tok1StoresLeaf : Prop :=
  ∀ (sym : BitVec 8) (s : State), s.tnodes.toNat < Config.nodeCap →
    ∃ t, exec (.tok1 sym) s = .next t ∧ t.tnodes = s.tnodes + 1 ∧
      entryTag t (s.tnodes.setWidth 9) = true ∧ entrySym t (s.tnodes.setWidth 9) = sym ∧
      entryLeft t (s.tnodes.setWidth 9) = Config.nil ∧ entryRight t (s.tnodes.setWidth 9) = Config.nil ∧
      entryFreq t (s.tnodes.setWidth 9) = 1#32 ∧
      (∀ a, a ≠ entryAddr s.tnodes.toNat → a ≠ entryAddr s.tnodes.toNat + 1 → tmemRead t a = tmemRead s a) ∧
      SameWriter s t ∧ SameReader s t ∧ SameSticky s t ∧ SameHost s t ∧
      t.code = s.code ∧ t.value = s.value ∧ t.errinfo = s.errinfo

/-- 30_encoding.md R64, 42_treecodec.md R107, R109. Token TOK0 opens an Internal node: the tokens of its left and then of its
right subtree are read from BR's bits, and the entry joins them, its frequency the number of leaves below. That a token is
an instruction of its own is the model's choice (log 13). -/
def Obligations.Tok0JoinsTwoSubtrees : Prop :=
  ∀ (l r : Tree) (rest : Bits) (s : State), SourceDelivers s → s.rcnt.toNat ≤ 8 →
    streamBits s = ser l ++ ser r ++ rest →
    s.tnodes.toNat + 1 + treeNodes l + treeNodes r ≤ Config.nodeCap →
    ∃ t, exec .tok0 s = .next t ∧ t.tnodes.toNat = s.tnodes.toNat + 1 + treeNodes l + treeNodes r ∧
      PreorderImage t (.internal 0 l r) s.tnodes.toNat = true ∧ streamBits t = rest ∧
      (∀ a, a < entryAddr s.tnodes.toNat ∨ entryAddr t.tnodes.toNat ≤ a → tmemRead t a = tmemRead s a) ∧
      SameWriter s t ∧ SameSticky s t ∧ SameHost s t ∧ t.code = s.code ∧ t.value = s.value ∧ t.errinfo = s.errinfo

/-- 42_treecodec.md R111, R113. A token that finds no entry left raises TreeCapacity inside TDES: BR is unchanged, BW and the
streams untouched; nothing is said of `TNODES` and `TMEM`, which are unspecified. Of a token as an instruction (log 13) the
bits are read before: for TOK0 BR stands after the tag, for TOK1 after the symbol too. `TNODES` above `NODE_CAP`, which TDES
never reaches, is log 14. -/
def Obligations.TokenWithoutEntryRaisesTreeCapacity : Prop :=
  ∀ (i : Instr) (s : State), (i = .tok0 ∨ ∃ sym, i = .tok1 sym) → Config.nodeCap ≤ s.tnodes.toNat →
    ∃ t, exec i s = .next t ∧ CompletedFault .treeCapacity s t ∧ SameReader s t ∧ SameWriter s t ∧ SameHost s t

/-- 30_encoding.md R66, 42_treecodec.md R107. TDES runs the token its bits begin with: it ends exactly as that token's body ends in
the state with the token's bits read and `TNODES` 0, and the token as an instruction runs the same body. -/
def Obligations.TdesRunsItsFirstToken : Prop :=
  ∀ (i : Instr) (rest : Bits) (s : State), SourceDelivers s → s.rcnt.toNat ≤ 8 →
    decodeToken (streamBits s) = some (i, rest) →
    ∃ s1 body, streamBits s1 = rest ∧ s1.tnodes = 0#10 ∧ s1.tmem = s.tmem ∧ s1.tmemEpoch = s.tmemEpoch ∧
      SameWriter s s1 ∧ SameSticky s s1 ∧ SameHost s s1 ∧
      exec .tdes s = finishTdes body ∧ exec i s1 = finishToken body

/-! ## Frames and the whole machine -/

/-- 40_bitwriter.md R82, R83, 42_treecodec.md R106. The frame of WBIT, WFLUSH and TSER: BR, the source, `TNODES`, every word of
TMEM, `R_ERR`, `C_ERR` and the host's side are unchanged, and so are `T_ERR` (but for TSER) and, on completion with `OK`,
`ERRINFO` and every sticky bit. -/
def Obligations.WriterCommandsFrame : Prop :=
  ∀ (i : Instr) (s t : State), ((∃ b, i = .wbit b) ∨ i = .wflush ∨ i = .tser) → exec i s = .next t →
    SameReader s t ∧ SameTree s t ∧ SameHost s t ∧ t.rErr = s.rErr ∧ t.cErr = s.cErr ∧
    (i ≠ .tser → t.tErr = s.tErr) ∧ (t.code = .ok → SameSticky s t ∧ t.errinfo = s.errinfo ∧ t.draws = s.draws) ∧
    (i = .wflush → t.wpos = s.wpos)

/-- 41_bitreader.md R92, 42_treecodec.md R107. The frame of RBIT, TDES and the two tokens: BW, the sink, `W_ERR`, `C_ERR`, the bytes
of the source and the host's side are unchanged; RBIT leaves TC and `T_ERR` alone as well; TOK1 leaves BR alone as well.
That a token is an instruction of its own, and that TOK1's nine bits are then read already, is the model's choice (log 13). -/
def Obligations.ReaderCommandsFrame : Prop :=
  ∀ (i : Instr) (s t : State), (i = .rbit ∨ i = .tdes ∨ i = .tok0 ∨ ∃ sym, i = .tok1 sym) → exec i s = .next t →
    SameWriter s t ∧ SameHost s t ∧ t.wErr = s.wErr ∧ t.cErr = s.cErr ∧ t.src = s.src ∧
    (i = .rbit → SameTree s t ∧ t.tErr = s.tErr ∧ t.draws = s.draws) ∧
    ((∃ sym, i = .tok1 sym) → SameReader s t ∧ t.rErr = s.rErr) ∧
    (i = .rbit ∨ i = .tdes → t.code = .ok → SameSticky s t ∧ t.errinfo = s.errinfo ∧ t.draws = s.draws)

/-- 10_state.md R24, R25. The sink is append only, and the source is never changed, put back or read past its end: whatever
the step. -/
def Obligations.StreamsOnlyAdvance : Prop :=
  ∀ s t : State, step s = .next t →
    s.snk <+: t.snk ∧ t.src = s.src ∧ s.spos ≤ t.spos ∧ (s.spos ≤ s.src.length → t.spos ≤ t.src.length)

/-- 10_state.md R14, R17, R25; 20_memory.md R41. The invariant of the machine is kept by every step: the writer's and the
reader's register invariants, TMEM in canonical form and within its addresses, no byte consumed that the source lacks. -/
def Obligations.EveryStepKeepsInvariant : Prop :=
  ∀ s t : State, s.Inv → step s = .next t → t.Inv

/-- 20_memory.md R51, 30_encoding.md R62. A step runs the decoded command: when the host's next action writes a word to `CMD` that
decodes to `i`, the step is `exec i` in the state with that action taken off and nothing handed back yet. -/
def Obligations.StepRunsDecodedCommand : Prop :=
  ∀ (w : BitVec 32) (i : Instr) (rest : List HostAction) (s : State),
    s.host = .write 0x000#11 w :: rest → decodeCommand w = .ok i →
    step s = exec i { s with host := rest, reply := none }

/-- The model's fetch (logs 1 and 13; 20_memory.md section 1, 30_encoding.md section 1): a command placed for fetching is what the next
step runs, and a placed token is what the TDES of the next step reads first. -/
def Obligations.PlacedInstructionIsFetched : Prop :=
  ∀ (i : Instr) (s : State),
    match encode i with
    | .command _ => step (placeInstr i s) = exec i { s with reply := none }
    | .token bits =>
      step (placeInstr i s) = exec .tdes { placeInstr i s with host := s.host, reply := none } ∧
      SourceDelivers (placeInstr i s) ∧ ∃ zeros, streamBits (placeInstr i s) = bits ++ zeros ∧ ∀ b ∈ zeros, b = false

/-! ## The host port -/

/-- 20_memory.md R41, R49. What a read of each port address returns; a read changes nothing but what the host is handed. -/
def Obligations.PortReadsTheRegisters : Prop :=
  ∀ (a : PortAddr) (s : State),
    ∃ t, perform (.read a) s = .next t ∧ t = { s with reply := some (.word (portRead a s)) } ∧
      (a = 0x000#11 → portRead a s = 0#32) ∧ (a = 0x001#11 → portRead a s = resultWord s) ∧
      (a = 0x002#11 → portRead a s = statusWord s) ∧ (a = 0x003#11 → portRead a s = s.errinfo) ∧
      (a = 0x004#11 → portRead a s = 0#24 ++ s.wacc) ∧ (a = 0x005#11 → portRead a s = 0#24 ++ s.rbyte) ∧
      (a = 0x006#11 → portRead a s = 0#22 ++ s.tnodes) ∧
      (0x007 ≤ a.toNat ∧ a.toNat ≤ 0x3FF ∨ 0x7FE ≤ a.toNat → portRead a s = 0#32) ∧
      (0x400 ≤ a.toNat ∧ a.toNat ≤ 0x7FD → portRead a s = tmemRead s a.toNat)

/-- 20_memory.md R41, R46. A port write to a word of TMEM is what a later read returns, and leaves every other word and
everything else unchanged; a write to a read-only register or a reserved address is ignored.
That the reserved bits of word 0 read back is log 10, that a reserved address is ignored and not refused log 11. -/
def Obligations.PortWritesTreeMemory : Prop :=
  ∀ (a : PortAddr) (w : BitVec 32) (s : State), a ≠ 0x000#11 →
    ∃ t, perform (.write a w) s = .next t ∧
      (if 0x400 ≤ a.toNat ∧ a.toNat ≤ 0x7FD then
        portRead a t = w ∧ (∀ b : PortAddr, b ≠ a → portRead b t = portRead b s) ∧ t.tnodes = s.tnodes ∧
        SameWriter s t ∧ SameReader s t ∧ SameSticky s t ∧ SameHost s t ∧
        t.code = s.code ∧ t.value = s.value ∧ t.errinfo = s.errinfo
      else t = s)

/-- 20_memory.md R46. The two worked entries: a Leaf for 0x41 and an Internal node with children 1 and 2. -/
def Obligations.EntryLayoutExamples : Prop :=
  packWord0 true 0x41#8 Config.nil Config.nil = 0x8107FFFF#32 ∧ packWord0 false 0#8 1#9 2#9 = 0x00000202#32 ∧
  ∀ (i : Index) (tag : Bool) (sym : BitVec 8) (l r : Index) (f : BitVec 32) (s : State),
    entryTag (entryWrite i tag sym l r f s) i = tag ∧ entrySym (entryWrite i tag sym l r f s) i = sym ∧
    entryLeft (entryWrite i tag sym l r f s) i = l ∧ entryRight (entryWrite i tag sym l r f s) i = r ∧
    entryFreq (entryWrite i tag sym l r f s) i = f

/-- 10_state.md R24, R25, 70_reset_and_hazards.md R196, R197. Direct accesses of the host: a byte goes to the sink ahead of BW's
pending bits, and a byte comes from the source past BR's held bits; BW's and BR's registers do not move. -/
def Obligations.DirectAccessesPassTheBlockBy : Prop :=
  (∀ (v : BitVec 8) (s : State), nextAnswer s.snkAnswers = .ok →
    perform (.sinkByte v) s = .next { s with snk := s.snk ++ [v], snkAnswers := s.snkAnswers.tail }) ∧
  (∀ (v : BitVec 8) (s : State), nextAnswer s.srcAnswers = .ok → s.src[s.spos]? = some v →
    perform .sourceByte s = .next
      { s with spos := s.spos + 1, srcAnswers := s.srcAnswers.tail, reply := some (.byte v) })

/-! ## Host reference -/

/-- 44_host_tree_and_codes.md R146, R147. The codes of a tree: none is empty, each distinct symbol has exactly one, none is an
initial part of another, and each is the path to a Leaf of its symbol (`0` where the tree is one Leaf). Where no two leaves
carry one symbol, that is one entry a leaf. Which leaf's path a symbol on two leaves has is log 24, and nothing here rests
on it. -/
def Obligations.CodesArePrefixFree : Prop :=
  ∀ t : Tree,
    (∀ e ∈ extractCodes t, e.2 ≠ []) ∧ ((extractCodes t).map Prod.fst).Nodup ∧
    (∀ sym, sym ∈ (extractCodes t).map Prod.fst ↔ sym ∈ treeSymbols t) ∧
    ((treeSymbols t).Nodup → (extractCodes t).map Prod.fst = treeSymbols t) ∧
    ((extractCodes t).Pairwise fun a b => ¬ a.2 <+: b.2 ∧ ¬ b.2 <+: a.2) ∧
    ∀ e ∈ extractCodes t, if treeLeaves t = 1 then e.2 = [false] else walkTree t e.2 = some (e.1, [])

/-- 44_host_tree_and_codes.md R142, R143, R145. The builder, for every merge order: on a non-empty table it builds a tree with one
leaf an entry, whose root frequency is the sum of the counts and which satisfies the frequency invariant. -/
def Obligations.BuilderKeepsFrequencyInvariant : Prop :=
  ∀ (order : MergeOrder) (table : FrequencyTable),
    (table = [] → buildTree order table = none) ∧
    (table ≠ [] → ∃ t, buildTree order table = some t ∧ treeFreqInvariant t = true ∧
      treeFreq t = (table.map Prod.snd).sum ∧ List.Perm (treeSymbols t) (table.map Prod.fst))

/-- 43_host_pipelines.md R124, R130 to R132. The data part of the round trip, for every tree that has the input's symbols: the
codes of the input's bytes, whatever padding follows, decode to the input. -/
def Obligations.EncodedDataDecodes : Prop :=
  ∀ (t : Tree) (input : List Byte), (∀ x ∈ input, x ∈ treeSymbols t) →
    ∃ data, encodeData (codeOf (extractCodes t)) input = some data ∧
      ∀ padding : Bits, decodeSymbols t input.length (data ++ padding) = some input

/-- 30_encoding.md R72. The pseudo-instructions over single bits: `WBITS` is `PutBit` of the bits, `RBITS` returns what `GetBit`
returns. From a byte boundary `WBYTE v` has the net effect of one `SnkWrite(v)`, and with no bit held `RBYTE8` returns the next
byte of the source. -/
def Obligations.PseudoInstructionsExpand : Prop :=
  (∀ (bits : Bits) (s t : State), putBits bits s = .done () t →
    ∃ u, runExpansion (pseudoWbits bits) s = .next (u, .value (List.replicate bits.length false)) ∧ SameWriter t u ∧
      SameReader s u ∧ SameTree s u ∧ SameSticky s u) ∧
  (∀ (bits : Bits) (s t : State), getBits bits.length s = .done bits t →
    ∃ u, runRbits bits.length s = .next (u, .value bits) ∧ SameReader t u ∧ SameWriter s u ∧ SameTree s u ∧
      SameSticky s u) ∧
  (∀ (v : BitVec 8) (s : State), WriterAtBoundary s →
    (nextAnswer s.snkAnswers = .ok →
      ∃ u, runExpansion (pseudoWbyte v) s = .next (u, .value (List.replicate 8 false)) ∧ u.snk = s.snk ++ [v] ∧
        WriterAtBoundary u) ∧
    (∀ e, nextAnswer s.snkAnswers = .fail e →
      ∃ u, runExpansion (pseudoWbyte v) s = .next (u, .commandFault .sinkError e) ∧ u.snk = s.snk)) ∧
  (∀ (v : BitVec 8) (s : State), s.rcnt = 0#4 → nextAnswer s.srcAnswers = .ok → s.src[s.spos]? = some v →
    ∃ u, runRbyte8 s = .next (u, .value v) ∧ u.rcnt = 0#4 ∧ u.spos = s.spos + 1)

/-- 44_host_tree_and_codes.md R140, R141. The frequency table: each symbol once, each with its number of occurrences, at least 1;
the counts add up to the input's length. The one failure is the read's own error. -/
def Obligations.FrequenciesAreCounts : Prop :=
  ∀ input : InputSource,
    (input.countFails = none →
      ∃ table, countFrequencies input = .ok table ∧ (table.map Prod.fst).Nodup ∧
        (∀ v n, (v, n) ∈ table ↔ 0 < n ∧ n = input.bytes.count v) ∧ (table.map Prod.snd).sum = input.bytes.length) ∧
    (∀ n e, input.countFails = some (n, e) → countFrequencies input = .error e)

/-- 43_host_pipelines.md R120 to R125, R127, R134, 30_encoding.md R70, 70_reset_and_hazards.md R204. COMPRESS of less than `2^32`
bytes, for every merge order and policy. When its run is over, the block has no fault and nothing pending, and the sink has
gained exactly the artifact of the tree built, or, for the empty input, a zero header and what the policy writes. COMPRESS
finishes only so, and does with a sink that accepts and an input that can be read. However it ends, BR has not been used. The
open merge order and policy are arguments (log 21), the two passes over the input log 25. -/
def Obligations.CompressWritesTheArtifact : Prop :=
  ∀ (order : MergeOrder) (policy : EmptyInputPolicy) (input : InputSource) (s : State), input.bytes.length < 2 ^ 32 →
    (∀ u, CompressRunOver order policy input s u →
      compress order policy input s = .next (u, .finished []) ∧ u.wcnt = 0#3 ∧ u.wacc = 0#8 ∧ NoFault u = true ∧
      if input.bytes = [] then u.snk = s.snk ++ [0#8, 0#8, 0#8, 0#8] ++ pack policy.written
      else ∃ t bytes, buildTree order (countBytes input.bytes) = some t ∧ artifact t input.bytes = some bytes ∧
        u.snk = s.snk ++ bytes) ∧
    (∀ u out, compress order policy input s = .next (u, .finished out) → CompressRunOver order policy input s u) ∧
    (SinkAccepts s → input.countFails = none → input.encodeFails = none → ∃ u, CompressRunOver order policy input s u) ∧
    (∀ u e, compress order policy input s = .next (u, e) → SameReader (resetBlock s) u)

/-- 43_host_pipelines.md R126 to R131, R127, 60_exceptions.md R161, 70_reset_and_hazards.md R204. DECOMPRESS.
Of an artifact, for every tree of at most `NODE_CAP` nodes it was made with, into an output that accepts, it finishes with the
input (the code of a symbol that two leaves carry is log 24). Of a truncated artifact, however it ends, it has written an initial
part of the input, with every symbol in it whose bits are there. An output that refuses a byte ends it with the output's own
value, what was accepted before still written; one that never answers is a stuck state (log 3).
Whenever it finishes, its run is over: it has emitted as many symbols as the header says, the block has no fault, and BR holds at
most 7 bits. However it ends, BW has not been used. `answers` is the output's coming answers, an argument (log 23). -/
def Obligations.DecompressReadsTheArtifact : Prop :=
  ∀ (policy : EmptyInputPolicy) (d : State),
    (∀ (t : Tree) (input bytes : List Byte),
      input ≠ [] → input.length < 2 ^ 32 → treeNodes t ≤ Config.nodeCap → artifact t input = some bytes →
      SourceDelivers d → d.src.drop d.spos <+: bytes →
      (∀ answers, OutputAccepts answers →
        (d.src.drop d.spos = bytes → ∃ v, decompress policy answers d = .next (v, .finished input)) ∧
        ∃ v e, decompress policy answers d = .next (v, e) ∧ outputOf e <+: input ∧
          ∀ (k : Nat) (data : Bits), k ≤ input.length →
            encodeData (codeOf (extractCodes t)) (input.take k) = some data →
            ser t ++ data <+: unpack (d.src.drop (d.spos + 4)) → k ≤ (outputOf e).length) ∧
      (∀ (k : Nat) (rest : List Answer), d.src.drop d.spos = bytes → k < input.length →
        (∀ e, ∃ v, decompress policy (List.replicate k .ok ++ .fail e :: rest) d
          = .next (v, .failed (input.take k) (.outputError e))) ∧
        decompress policy (List.replicate k .ok ++ .never :: rest) d = .fault .sinkNeverAnswers)) ∧
    (∀ answers v out, decompress policy answers d = .next (v, .finished out) →
      DecompressRunOver policy answers d v out ∧ NoFault v = true ∧ v.rcnt.toNat ≤ 7) ∧
    (∀ answers v e, decompress policy answers d = .next (v, e) → SameWriter (resetBlock d) v)

/-- 43_host_pipelines.md R132, R134 (90 C3). What COMPRESS writes, DECOMPRESS turns back into the input, for every input of less
than `2^32` bytes, the empty one included, for every merge order and policy, from every state of either block, into every output
that accepts. The open merge order and policy are arguments (log 21), and so is the output's list of answers (log 23). -/
def Obligations.CompressDecompressRoundTrip : Prop :=
  ∀ (order : MergeOrder) (policy : EmptyInputPolicy) (input : List Byte) (s : State),
    input.length < 2 ^ 32 → SinkAccepts s →
    ∃ u, compress order policy ⟨input, none, none⟩ s = .next (u, .finished []) ∧
      ∀ d : State, SourceDelivers d → d.src.drop d.spos = u.snk.drop s.snk.length →
        ∀ answers, OutputAccepts answers → ∃ v, decompress policy answers d = .next (v, .finished input)
end

