-- ==== Sys2Proof/Laws/Bits.lean ====
section
/-! SUPPORT. The laws of bit strings and bytes (00_scope.md R8). -/

namespace Sys2Proof

@[simp] theorem bits8_length (v : BitVec 8) : (bits8 v).length = 8 := rfl

@[simp] theorem take_eight_bits8 (v : BitVec 8) (rest : Bits) : (bits8 v ++ rest).take 8 = bits8 v := by
  simp [List.take_append]

@[simp] theorem drop_eight_bits8 (v : BitVec 8) (rest : Bits) : (bits8 v ++ rest).drop 8 = rest := by
  simp [List.drop_append]

set_option maxRecDepth 4096 in
/-- `val8` undoes `bits8`. -/
@[simp] theorem val8_bits8 (v : BitVec 8) : val8 (bits8 v) = v := by revert v; decide

/-- A string of eight bits, bit by bit. -/
theorem eq_eight_bits {c : Bits} (h : c.length = 8) :
    ∃ a0 a1 a2 a3 a4 a5 a6 a7, c = [a0, a1, a2, a3, a4, a5, a6, a7] := by
  match c, h with
  | [a0, a1, a2, a3, a4, a5, a6, a7], _ => exact ⟨a0, a1, a2, a3, a4, a5, a6, a7, rfl⟩

set_option maxRecDepth 4096 in
/-- `bits8` undoes `val8` on strings of eight bits. -/
theorem bits8_val8 {c : Bits} (h : c.length = 8) : bits8 (val8 c) = c := by
  obtain ⟨a0, a1, a2, a3, a4, a5, a6, a7, rfl⟩ := eq_eight_bits h
  revert a0 a1 a2 a3 a4 a5 a6 a7
  decide

@[simp] theorem bits8_zero : bits8 0#8 = List.replicate 8 false := by decide

/-- A left shift drops the first bit and brings in a zero. -/
theorem bits8_shiftLeft_one (v : BitVec 8) : bits8 (v <<< 1) = (bits8 v).tail ++ [false] := by
  simp [bits8]

/-- The bits left of a held byte after one is taken. -/
theorem take_bits8_shiftLeft_one (v : BitVec 8) {n : Nat} (h : n < 8) :
    (bits8 v).take (n + 1) = v.getLsbD 7 :: (bits8 (v <<< 1)).take n := by
  have : n ≤ 7 := by omega
  rw [bits8_shiftLeft_one, show bits8 v = v.getLsbD 7 :: (bits8 v).tail from rfl, List.take_succ_cons, List.tail_cons,
    List.take_append_of_le_length (by simpa using this)]

/-! `unpack`. -/

@[simp] theorem unpack_nil : unpack [] = [] := rfl

@[simp] theorem unpack_cons (v : Byte) (bytes : List Byte) : unpack (v :: bytes) = bits8 v ++ unpack bytes := rfl

@[simp] theorem unpack_append (a b : List Byte) : unpack (a ++ b) = unpack a ++ unpack b := by
  simp [unpack]

@[simp] theorem unpack_length (bytes : List Byte) : (unpack bytes).length = 8 * bytes.length := by
  induction bytes with
  | nil => rfl
  | cons v rest ih => simp [ih]; omega

/-! `pack`. -/

@[simp] theorem pack_nil : pack [] = [] := rfl

@[simp] theorem pack_length (s : Bits) : (pack s).length = (s.length + 7) / 8 := by simp [pack]

/-- The first byte of a string is the value of its first eight bits. -/
theorem packByte_zero {c : Bits} (h : c.length = 8) (s : Bits) : packByte (c ++ s) 0 = val8 c := by
  obtain ⟨a0, a1, a2, a3, a4, a5, a6, a7, rfl⟩ := eq_eight_bits h
  rfl

/-- The later bytes of a string are the bytes of what follows its first eight bits. -/
theorem packByte_succ {c : Bits} (h : c.length = 8) (s : Bits) (j : Nat) :
    packByte (c ++ s) (j + 1) = packByte s j := by
  simp only [packByte]
  congr 1
  apply List.map_congr_left
  intro i _
  rw [List.getD_append_right _ _ _ _ (by omega)]
  congr 1
  omega

/-- Packing goes eight bits at a time. -/
theorem pack_append_eight {c : Bits} (h : c.length = 8) (s : Bits) : pack (c ++ s) = val8 c :: pack s := by
  have hl : ((c ++ s).length + 7) / 8 = (s.length + 7) / 8 + 1 := by simp [h]; omega
  rw [pack, hl, List.range_succ_eq_map, List.map_cons, packByte_zero h, List.map_map]
  congr 1
  apply List.map_congr_left
  intro j _
  exact packByte_succ h s j

/-- A string of one to seven bits packs into one zero-padded byte. -/
theorem pack_short {p : Bits} (h0 : 0 < p.length) (h : p.length < 8) : pack p = [packByte p 0] := by
  have : (p.length + 7) / 8 = 1 := by omega
  simp [pack, this]

@[simp] theorem packByte_nil (j : Nat) : packByte [] j = 0#8 := by
  simp [packByte, val8]
  decide

set_option maxRecDepth 8192 in
/-- Setting the next bit of a zero-padded byte appends that bit (40_bitwriter.md R80). -/
theorem packByte_append_bit (p : Bits) (b : Bool) (h : p.length < 8) :
    packByte p 0 ||| (zext8 b <<< (7 - p.length)) = packByte (p ++ [b]) 0 := by
  match p, h with
  | [], _ => revert b; decide
  | [a0], _ => revert b a0; decide
  | [a0, a1], _ => revert b a0 a1; decide
  | [a0, a1, a2], _ => revert b a0 a1 a2; decide
  | [a0, a1, a2, a3], _ => revert b a0 a1 a2 a3; decide
  | [a0, a1, a2, a3, a4], _ => revert b a0 a1 a2 a3 a4; decide
  | [a0, a1, a2, a3, a4, a5], _ => revert b a0 a1 a2 a3 a4 a5; decide
  | [a0, a1, a2, a3, a4, a5, a6], _ => revert b a0 a1 a2 a3 a4 a5 a6; decide

set_option maxRecDepth 8192 in
/-- The bits of a zero-padded byte are its string and the padding. -/
theorem bits8_packByte (p : Bits) (h : p.length < 8) :
    bits8 (packByte p 0) = p ++ List.replicate (8 - p.length) false := by
  match p, h with
  | [], _ => decide
  | [a0], _ => revert a0; decide
  | [a0, a1], _ => revert a0 a1; decide
  | [a0, a1, a2], _ => revert a0 a1 a2; decide
  | [a0, a1, a2, a3], _ => revert a0 a1 a2 a3; decide
  | [a0, a1, a2, a3, a4], _ => revert a0 a1 a2 a3 a4; decide
  | [a0, a1, a2, a3, a4, a5], _ => revert a0 a1 a2 a3 a4 a5; decide
  | [a0, a1, a2, a3, a4, a5, a6], _ => revert a0 a1 a2 a3 a4 a5 a6; decide

end Sys2Proof
end

