-- ==== Sys2Proof/Laws/Codec.lean ====
section
/-! SUPPORT. The laws of the abstract codec (42_treecodec.md R100 to R105): sizes, the parser's fuel, and the parser on a
serialisation. -/

namespace Sys2Proof.Machine

/-! Sizes. -/

theorem treeLeaves_pos (t : Tree) : 0 < treeLeaves t := by
  induction t with
  | leaf sym f => exact Nat.one_pos
  | internal f l r ihl ihr => simp only [treeLeaves]; omega

theorem treeNodes_add_one (t : Tree) : treeNodes t + 1 = 2 * treeLeaves t := by
  induction t with
  | leaf sym f => rfl
  | internal f l r ihl ihr => simp only [treeNodes, treeLeaves]; omega

theorem treeNodes_pos (t : Tree) : 0 < treeNodes t := by
  have := treeNodes_add_one t
  have := treeLeaves_pos t
  omega

theorem ser_length_add_one (t : Tree) : (ser t).length + 1 = 10 * treeLeaves t := by
  induction t with
  | leaf sym f => rfl
  | internal f l r ihl ihr => simp only [ser, treeLeaves, List.length_cons, List.length_append]; omega

theorem treeNodes_le_ser_length (t : Tree) : treeNodes t ≤ (ser t).length := by
  have := treeNodes_add_one t
  have := ser_length_add_one t
  have := treeLeaves_pos t
  omega

@[simp] theorem treeFreq_placeholder (t : Tree) : treeFreq (treePlaceholder t) = treeLeaves t := by cases t <;> rfl

@[simp] theorem treeShape_placeholder (t : Tree) : treeShape (treePlaceholder t) = treeShape t := by
  induction t with
  | leaf sym f => rfl
  | internal f l r ihl ihr => simp [treePlaceholder, treeShape, ihl, ihr]

@[simp] theorem treeNodes_placeholder (t : Tree) : treeNodes (treePlaceholder t) = treeNodes t := by
  induction t with
  | leaf sym f => rfl
  | internal f l r ihl ihr => simp [treePlaceholder, treeNodes, ihl, ihr]

@[simp] theorem treeLeaves_placeholder (t : Tree) : treeLeaves (treePlaceholder t) = treeLeaves t := by
  induction t with
  | leaf sym f => rfl
  | internal f l r ihl ihr => simp [treePlaceholder, treeLeaves, ihl, ihr]

@[simp] theorem treePlaceholder_idem (t : Tree) : treePlaceholder (treePlaceholder t) = treePlaceholder t := by
  induction t with
  | leaf sym f => rfl
  | internal f l r ihl ihr => simp [treePlaceholder, ihl, ihr]

@[simp] theorem ser_placeholder (t : Tree) : ser (treePlaceholder t) = ser t := by
  induction t with
  | leaf sym f => rfl
  | internal f l r ihl ihr => simp [treePlaceholder, ser, ihl, ihr]

/-! The parser. -/

/-- What the parser answers is a serialisation of it, read from the front, with placeholder frequencies. -/
theorem desFuel_sound {n : Nat} {s x : Bits} {t : Tree} (h : desFuel n s = some (t, x)) :
    s = ser t ++ x ∧ treePlaceholder t = t := by
  induction n generalizing s x t with
  | zero => simp [desFuel] at h
  | succ n ih =>
    match s with
    | [] => simp [desFuel] at h
    | true :: rest =>
      simp only [desFuel] at h
      split at h
      · simp at h
      · obtain ⟨rfl, rfl⟩ := Prod.mk.inj (Option.some.inj h)
        have : (rest.take 8).length = 8 := by simp; omega
        simp [ser, bits8_val8 this, treePlaceholder]
    | false :: rest =>
      simp only [desFuel] at h
      split at h
      · simp at h
      · rename_i l rest1 hl
        split at h
        · simp at h
        · rename_i r rest2 hr
          obtain ⟨rfl, rfl⟩ := Prod.mk.inj (Option.some.inj h)
          obtain ⟨e1, p1⟩ := ih hl
          obtain ⟨e2, p2⟩ := ih hr
          refine ⟨by simp [ser, e1, e2], ?_⟩
          have f1 := treeFreq_placeholder l
          have f2 := treeFreq_placeholder r
          rw [p1] at f1
          rw [p2] at f2
          simp [treePlaceholder, p1, p2, f1, f2]

/-- With fuel for every node the parser reads a serialisation back. -/
theorem desFuel_ser (t : Tree) (x : Bits) {n : Nat} (h : treeNodes t ≤ n) :
    desFuel n (ser t ++ x) = some (treePlaceholder t, x) := by
  induction t generalizing n x with
  | leaf sym f =>
    obtain ⟨k, rfl⟩ : ∃ k, n = k + 1 := ⟨n - 1, by simp [treeNodes] at h; omega⟩
    have h1 : ¬ (bits8 sym ++ x).length < 8 := by simp
    have h2 : (bits8 sym ++ x).take 8 = bits8 sym := by simp [List.take_append]
    have h3 : (bits8 sym ++ x).drop 8 = x := by simp [List.drop_append]
    simp only [ser, List.cons_append, desFuel, h1, if_false, h2, h3, val8_bits8, treePlaceholder]
  | internal f l r ihl ihr =>
    simp only [treeNodes] at h
    obtain ⟨k, rfl⟩ : ∃ k, n = k + 1 := ⟨n - 1, by omega⟩
    have e1 := ihl (ser r ++ x) (n := k) (by omega)
    have e2 := ihr x (n := k) (by omega)
    simp [ser, desFuel, e1, e2, treePlaceholder]

/-- Fuel for the string's length is fuel enough: more changes nothing. -/
theorem desFuel_eq_des {n : Nat} {s : Bits} (h : s.length ≤ n) : desFuel n s = des s := by
  cases hd : desFuel n s with
  | some r =>
    obtain ⟨t, x⟩ := r
    obtain ⟨rfl, hp⟩ := desFuel_sound hd
    have hle := treeNodes_le_ser_length t
    rw [des, desFuel_ser t x (by simp; omega), hp]
  | none =>
    cases hs : des s with
    | none => rfl
    | some r =>
      obtain ⟨t, x⟩ := r
      obtain ⟨e, _⟩ := desFuel_sound hs
      have hle := treeNodes_le_ser_length t
      rw [e] at h hd
      rw [desFuel_ser t x (by simp at h; omega)] at hd
      simp at hd

/-- The parser on a serialisation followed by anything. -/
theorem des_ser (t : Tree) (x : Bits) : des (ser t ++ x) = some (treePlaceholder t, x) :=
  desFuel_ser t x (by have := treeNodes_le_ser_length t; simp; omega)

/-- A string begins with a serialisation exactly where the parser answers. -/
theorem des_sound {s x : Bits} {t : Tree} (h : des s = some (t, x)) : s = ser t ++ x ∧ treePlaceholder t = t :=
  desFuel_sound h

/-- The parser's equation for an Internal node (42_treecodec.md R103). -/
theorem des_internal (s : Bits) : des (false :: s) =
    match des s with
    | none => none
    | some (l, s1) =>
      match des s1 with
      | none => none
      | some (r, s2) => some (.internal (treeFreq l + treeFreq r) l r, s2) := by
  have h1 : des (false :: s) = desFuel (s.length + 1) (false :: s) := rfl
  rw [h1, desFuel, desFuel_eq_des (Nat.le_refl _)]
  cases hl : des s with
  | none => rfl
  | some r =>
    obtain ⟨l, s1⟩ := r
    obtain ⟨e, _⟩ := des_sound hl
    have hf : desFuel s.length s1 = des s1 := desFuel_eq_des (by rw [e]; simp)
    cases hr : des s1 <;> simp only [hf, hr]

end Sys2Proof.Machine
end

