-- ==== Sys2Proof/Laws/State.lean ====
section
/-! SUPPORT. Every field after every named update of the state, one lemma each, so that no later proof unfolds a record
update. A field an update changes by a case on the fault has its lemmas by cause, further down. -/

namespace Sys2Proof.Machine


/-! `completeOk`. -/

@[simp] theorem completeOk_wacc (v : Bool) (s : State) : (completeOk v s).wacc = s.wacc := rfl
@[simp] theorem completeOk_wcnt (v : Bool) (s : State) : (completeOk v s).wcnt = s.wcnt := rfl
@[simp] theorem completeOk_rbyte (v : Bool) (s : State) : (completeOk v s).rbyte = s.rbyte := rfl
@[simp] theorem completeOk_rcnt (v : Bool) (s : State) : (completeOk v s).rcnt = s.rcnt := rfl
@[simp] theorem completeOk_wErr (v : Bool) (s : State) : (completeOk v s).wErr = s.wErr := rfl
@[simp] theorem completeOk_rErr (v : Bool) (s : State) : (completeOk v s).rErr = s.rErr := rfl
@[simp] theorem completeOk_tErr (v : Bool) (s : State) : (completeOk v s).tErr = s.tErr := rfl
@[simp] theorem completeOk_cErr (v : Bool) (s : State) : (completeOk v s).cErr = s.cErr := rfl
@[simp] theorem completeOk_code (v : Bool) (s : State) : (completeOk v s).code = .ok := rfl
@[simp] theorem completeOk_value (v : Bool) (s : State) : (completeOk v s).value = v := rfl
@[simp] theorem completeOk_errinfo (v : Bool) (s : State) : (completeOk v s).errinfo = s.errinfo := rfl
@[simp] theorem completeOk_tnodes (v : Bool) (s : State) : (completeOk v s).tnodes = s.tnodes := rfl
@[simp] theorem completeOk_tmem (v : Bool) (s : State) : (completeOk v s).tmem = s.tmem := rfl
@[simp] theorem completeOk_snk (v : Bool) (s : State) : (completeOk v s).snk = s.snk := rfl
@[simp] theorem completeOk_src (v : Bool) (s : State) : (completeOk v s).src = s.src := rfl
@[simp] theorem completeOk_spos (v : Bool) (s : State) : (completeOk v s).spos = s.spos := rfl
@[simp] theorem completeOk_wpos (v : Bool) (s : State) : (completeOk v s).wpos = s.wpos := rfl
@[simp] theorem completeOk_rpos (v : Bool) (s : State) : (completeOk v s).rpos = s.rpos := rfl
@[simp] theorem completeOk_snkAnswers (v : Bool) (s : State) : (completeOk v s).snkAnswers = s.snkAnswers := rfl
@[simp] theorem completeOk_srcAnswers (v : Bool) (s : State) : (completeOk v s).srcAnswers = s.srcAnswers := rfl
@[simp] theorem completeOk_host (v : Bool) (s : State) : (completeOk v s).host = s.host := rfl
@[simp] theorem completeOk_reply (v : Bool) (s : State) : (completeOk v s).reply = s.reply := rfl
@[simp] theorem completeOk_draws (v : Bool) (s : State) : (completeOk v s).draws = s.draws := rfl
@[simp] theorem completeOk_tmemEpoch (v : Bool) (s : State) : (completeOk v s).tmemEpoch = s.tmemEpoch := rfl

/-! `postFaultWriter`. -/

@[simp] theorem postFaultWriter_rbyte (c : Cause) (s : State) : (postFaultWriter c s).rbyte = s.rbyte := by cases c <;> rfl
@[simp] theorem postFaultWriter_rcnt (c : Cause) (s : State) : (postFaultWriter c s).rcnt = s.rcnt := by cases c <;> rfl
@[simp] theorem postFaultWriter_wErr (c : Cause) (s : State) : (postFaultWriter c s).wErr = s.wErr := by cases c <;> rfl
@[simp] theorem postFaultWriter_rErr (c : Cause) (s : State) : (postFaultWriter c s).rErr = s.rErr := by cases c <;> rfl
@[simp] theorem postFaultWriter_tErr (c : Cause) (s : State) : (postFaultWriter c s).tErr = s.tErr := by cases c <;> rfl
@[simp] theorem postFaultWriter_cErr (c : Cause) (s : State) : (postFaultWriter c s).cErr = s.cErr := by cases c <;> rfl
@[simp] theorem postFaultWriter_code (c : Cause) (s : State) : (postFaultWriter c s).code = s.code := by cases c <;> rfl
@[simp] theorem postFaultWriter_value (c : Cause) (s : State) : (postFaultWriter c s).value = s.value := by cases c <;> rfl
@[simp] theorem postFaultWriter_errinfo (c : Cause) (s : State) : (postFaultWriter c s).errinfo = s.errinfo := by cases c <;> rfl
@[simp] theorem postFaultWriter_tnodes (c : Cause) (s : State) : (postFaultWriter c s).tnodes = s.tnodes := by cases c <;> rfl
@[simp] theorem postFaultWriter_tmem (c : Cause) (s : State) : (postFaultWriter c s).tmem = s.tmem := by cases c <;> rfl
@[simp] theorem postFaultWriter_snk (c : Cause) (s : State) : (postFaultWriter c s).snk = s.snk := by cases c <;> rfl
@[simp] theorem postFaultWriter_src (c : Cause) (s : State) : (postFaultWriter c s).src = s.src := by cases c <;> rfl
@[simp] theorem postFaultWriter_spos (c : Cause) (s : State) : (postFaultWriter c s).spos = s.spos := by cases c <;> rfl
@[simp] theorem postFaultWriter_wpos (c : Cause) (s : State) : (postFaultWriter c s).wpos = s.wpos := by cases c <;> rfl
@[simp] theorem postFaultWriter_rpos (c : Cause) (s : State) : (postFaultWriter c s).rpos = s.rpos := by cases c <;> rfl
@[simp] theorem postFaultWriter_snkAnswers (c : Cause) (s : State) : (postFaultWriter c s).snkAnswers = s.snkAnswers := by cases c <;> rfl
@[simp] theorem postFaultWriter_srcAnswers (c : Cause) (s : State) : (postFaultWriter c s).srcAnswers = s.srcAnswers := by cases c <;> rfl
@[simp] theorem postFaultWriter_host (c : Cause) (s : State) : (postFaultWriter c s).host = s.host := by cases c <;> rfl
@[simp] theorem postFaultWriter_reply (c : Cause) (s : State) : (postFaultWriter c s).reply = s.reply := by cases c <;> rfl
@[simp] theorem postFaultWriter_tmemEpoch (c : Cause) (s : State) : (postFaultWriter c s).tmemEpoch = s.tmemEpoch := by cases c <;> rfl

/-! `setSticky`. -/

@[simp] theorem setSticky_wacc (c : Cause) (s : State) : (setSticky c s).wacc = s.wacc := by cases c <;> rfl
@[simp] theorem setSticky_wcnt (c : Cause) (s : State) : (setSticky c s).wcnt = s.wcnt := by cases c <;> rfl
@[simp] theorem setSticky_rbyte (c : Cause) (s : State) : (setSticky c s).rbyte = s.rbyte := by cases c <;> rfl
@[simp] theorem setSticky_rcnt (c : Cause) (s : State) : (setSticky c s).rcnt = s.rcnt := by cases c <;> rfl
@[simp] theorem setSticky_code (c : Cause) (s : State) : (setSticky c s).code = s.code := by cases c <;> rfl
@[simp] theorem setSticky_value (c : Cause) (s : State) : (setSticky c s).value = s.value := by cases c <;> rfl
@[simp] theorem setSticky_errinfo (c : Cause) (s : State) : (setSticky c s).errinfo = s.errinfo := by cases c <;> rfl
@[simp] theorem setSticky_tnodes (c : Cause) (s : State) : (setSticky c s).tnodes = s.tnodes := by cases c <;> rfl
@[simp] theorem setSticky_tmem (c : Cause) (s : State) : (setSticky c s).tmem = s.tmem := by cases c <;> rfl
@[simp] theorem setSticky_snk (c : Cause) (s : State) : (setSticky c s).snk = s.snk := by cases c <;> rfl
@[simp] theorem setSticky_src (c : Cause) (s : State) : (setSticky c s).src = s.src := by cases c <;> rfl
@[simp] theorem setSticky_spos (c : Cause) (s : State) : (setSticky c s).spos = s.spos := by cases c <;> rfl
@[simp] theorem setSticky_wpos (c : Cause) (s : State) : (setSticky c s).wpos = s.wpos := by cases c <;> rfl
@[simp] theorem setSticky_rpos (c : Cause) (s : State) : (setSticky c s).rpos = s.rpos := by cases c <;> rfl
@[simp] theorem setSticky_snkAnswers (c : Cause) (s : State) : (setSticky c s).snkAnswers = s.snkAnswers := by cases c <;> rfl
@[simp] theorem setSticky_srcAnswers (c : Cause) (s : State) : (setSticky c s).srcAnswers = s.srcAnswers := by cases c <;> rfl
@[simp] theorem setSticky_host (c : Cause) (s : State) : (setSticky c s).host = s.host := by cases c <;> rfl
@[simp] theorem setSticky_reply (c : Cause) (s : State) : (setSticky c s).reply = s.reply := by cases c <;> rfl
@[simp] theorem setSticky_draws (c : Cause) (s : State) : (setSticky c s).draws = s.draws := by cases c <;> rfl
@[simp] theorem setSticky_tmemEpoch (c : Cause) (s : State) : (setSticky c s).tmemEpoch = s.tmemEpoch := by cases c <;> rfl

/-! `enterFault`. -/

@[simp] theorem enterFault_rbyte (c : Cause) (s : State) : (enterFault c s).rbyte = s.rbyte := by cases c <;> rfl
@[simp] theorem enterFault_rcnt (c : Cause) (s : State) : (enterFault c s).rcnt = s.rcnt := by cases c <;> rfl
@[simp] theorem enterFault_code (c : Cause) (s : State) : (enterFault c s).code = causeCode c := by cases c <;> rfl
@[simp] theorem enterFault_value (c : Cause) (s : State) : (enterFault c s).value = false := by cases c <;> rfl
@[simp] theorem enterFault_errinfo (c : Cause) (s : State) : (enterFault c s).errinfo = causeInfo c := by cases c <;> rfl
@[simp] theorem enterFault_tnodes (c : Cause) (s : State) : (enterFault c s).tnodes = s.tnodes := by cases c <;> rfl
@[simp] theorem enterFault_tmem (c : Cause) (s : State) : (enterFault c s).tmem = s.tmem := by cases c <;> rfl
@[simp] theorem enterFault_snk (c : Cause) (s : State) : (enterFault c s).snk = s.snk := by cases c <;> rfl
@[simp] theorem enterFault_src (c : Cause) (s : State) : (enterFault c s).src = s.src := by cases c <;> rfl
@[simp] theorem enterFault_spos (c : Cause) (s : State) : (enterFault c s).spos = s.spos := by cases c <;> rfl
@[simp] theorem enterFault_wpos (c : Cause) (s : State) : (enterFault c s).wpos = s.wpos := by cases c <;> rfl
@[simp] theorem enterFault_rpos (c : Cause) (s : State) : (enterFault c s).rpos = s.rpos := by cases c <;> rfl
@[simp] theorem enterFault_snkAnswers (c : Cause) (s : State) : (enterFault c s).snkAnswers = s.snkAnswers := by cases c <;> rfl
@[simp] theorem enterFault_srcAnswers (c : Cause) (s : State) : (enterFault c s).srcAnswers = s.srcAnswers := by cases c <;> rfl
@[simp] theorem enterFault_host (c : Cause) (s : State) : (enterFault c s).host = s.host := by cases c <;> rfl
@[simp] theorem enterFault_reply (c : Cause) (s : State) : (enterFault c s).reply = s.reply := by cases c <;> rfl
@[simp] theorem enterFault_tmemEpoch (c : Cause) (s : State) : (enterFault c s).tmemEpoch = s.tmemEpoch := by cases c <;> rfl

/-! `loseTree`. -/

@[simp] theorem loseTree_wacc (s : State) : (loseTree s).wacc = s.wacc := rfl
@[simp] theorem loseTree_wcnt (s : State) : (loseTree s).wcnt = s.wcnt := rfl
@[simp] theorem loseTree_rbyte (s : State) : (loseTree s).rbyte = s.rbyte := rfl
@[simp] theorem loseTree_rcnt (s : State) : (loseTree s).rcnt = s.rcnt := rfl
@[simp] theorem loseTree_wErr (s : State) : (loseTree s).wErr = s.wErr := rfl
@[simp] theorem loseTree_rErr (s : State) : (loseTree s).rErr = s.rErr := rfl
@[simp] theorem loseTree_tErr (s : State) : (loseTree s).tErr = s.tErr := rfl
@[simp] theorem loseTree_cErr (s : State) : (loseTree s).cErr = s.cErr := rfl
@[simp] theorem loseTree_code (s : State) : (loseTree s).code = s.code := rfl
@[simp] theorem loseTree_value (s : State) : (loseTree s).value = s.value := rfl
@[simp] theorem loseTree_errinfo (s : State) : (loseTree s).errinfo = s.errinfo := rfl
@[simp] theorem loseTree_tnodes (s : State) : (loseTree s).tnodes = Config.freeTnodes s.draws := rfl
@[simp] theorem loseTree_tmem (s : State) : (loseTree s).tmem = [] := rfl
@[simp] theorem loseTree_snk (s : State) : (loseTree s).snk = s.snk := rfl
@[simp] theorem loseTree_src (s : State) : (loseTree s).src = s.src := rfl
@[simp] theorem loseTree_spos (s : State) : (loseTree s).spos = s.spos := rfl
@[simp] theorem loseTree_wpos (s : State) : (loseTree s).wpos = s.wpos := rfl
@[simp] theorem loseTree_rpos (s : State) : (loseTree s).rpos = s.rpos := rfl
@[simp] theorem loseTree_snkAnswers (s : State) : (loseTree s).snkAnswers = s.snkAnswers := rfl
@[simp] theorem loseTree_srcAnswers (s : State) : (loseTree s).srcAnswers = s.srcAnswers := rfl
@[simp] theorem loseTree_host (s : State) : (loseTree s).host = s.host := rfl
@[simp] theorem loseTree_reply (s : State) : (loseTree s).reply = s.reply := rfl
@[simp] theorem loseTree_draws (s : State) : (loseTree s).draws = s.draws + 1 := rfl
@[simp] theorem loseTree_tmemEpoch (s : State) : (loseTree s).tmemEpoch = s.draws + 1 := rfl

/-! `tmemWrite`. -/

@[simp] theorem tmemWrite_wacc (a : Nat) (w : BitVec 32) (s : State) : (tmemWrite a w s).wacc = s.wacc := rfl
@[simp] theorem tmemWrite_wcnt (a : Nat) (w : BitVec 32) (s : State) : (tmemWrite a w s).wcnt = s.wcnt := rfl
@[simp] theorem tmemWrite_rbyte (a : Nat) (w : BitVec 32) (s : State) : (tmemWrite a w s).rbyte = s.rbyte := rfl
@[simp] theorem tmemWrite_rcnt (a : Nat) (w : BitVec 32) (s : State) : (tmemWrite a w s).rcnt = s.rcnt := rfl
@[simp] theorem tmemWrite_wErr (a : Nat) (w : BitVec 32) (s : State) : (tmemWrite a w s).wErr = s.wErr := rfl
@[simp] theorem tmemWrite_rErr (a : Nat) (w : BitVec 32) (s : State) : (tmemWrite a w s).rErr = s.rErr := rfl
@[simp] theorem tmemWrite_tErr (a : Nat) (w : BitVec 32) (s : State) : (tmemWrite a w s).tErr = s.tErr := rfl
@[simp] theorem tmemWrite_cErr (a : Nat) (w : BitVec 32) (s : State) : (tmemWrite a w s).cErr = s.cErr := rfl
@[simp] theorem tmemWrite_code (a : Nat) (w : BitVec 32) (s : State) : (tmemWrite a w s).code = s.code := rfl
@[simp] theorem tmemWrite_value (a : Nat) (w : BitVec 32) (s : State) : (tmemWrite a w s).value = s.value := rfl
@[simp] theorem tmemWrite_errinfo (a : Nat) (w : BitVec 32) (s : State) : (tmemWrite a w s).errinfo = s.errinfo := rfl
@[simp] theorem tmemWrite_tnodes (a : Nat) (w : BitVec 32) (s : State) : (tmemWrite a w s).tnodes = s.tnodes := rfl
@[simp] theorem tmemWrite_tmem (a : Nat) (w : BitVec 32) (s : State) : (tmemWrite a w s).tmem = memSet s.tmem a w := rfl
@[simp] theorem tmemWrite_snk (a : Nat) (w : BitVec 32) (s : State) : (tmemWrite a w s).snk = s.snk := rfl
@[simp] theorem tmemWrite_src (a : Nat) (w : BitVec 32) (s : State) : (tmemWrite a w s).src = s.src := rfl
@[simp] theorem tmemWrite_spos (a : Nat) (w : BitVec 32) (s : State) : (tmemWrite a w s).spos = s.spos := rfl
@[simp] theorem tmemWrite_wpos (a : Nat) (w : BitVec 32) (s : State) : (tmemWrite a w s).wpos = s.wpos := rfl
@[simp] theorem tmemWrite_rpos (a : Nat) (w : BitVec 32) (s : State) : (tmemWrite a w s).rpos = s.rpos := rfl
@[simp] theorem tmemWrite_snkAnswers (a : Nat) (w : BitVec 32) (s : State) : (tmemWrite a w s).snkAnswers = s.snkAnswers := rfl
@[simp] theorem tmemWrite_srcAnswers (a : Nat) (w : BitVec 32) (s : State) : (tmemWrite a w s).srcAnswers = s.srcAnswers := rfl
@[simp] theorem tmemWrite_host (a : Nat) (w : BitVec 32) (s : State) : (tmemWrite a w s).host = s.host := rfl
@[simp] theorem tmemWrite_reply (a : Nat) (w : BitVec 32) (s : State) : (tmemWrite a w s).reply = s.reply := rfl
@[simp] theorem tmemWrite_draws (a : Nat) (w : BitVec 32) (s : State) : (tmemWrite a w s).draws = s.draws := rfl
@[simp] theorem tmemWrite_tmemEpoch (a : Nat) (w : BitVec 32) (s : State) : (tmemWrite a w s).tmemEpoch = s.tmemEpoch := rfl

/-! `entryWrite`. -/

@[simp] theorem entryWrite_wacc (i : Index) (tag : Bool) (sym : BitVec 8) (l r : Index) (f : BitVec 32) (s : State) :
    (entryWrite i tag sym l r f s).wacc = s.wacc := rfl
@[simp] theorem entryWrite_wcnt (i : Index) (tag : Bool) (sym : BitVec 8) (l r : Index) (f : BitVec 32) (s : State) :
    (entryWrite i tag sym l r f s).wcnt = s.wcnt := rfl
@[simp] theorem entryWrite_rbyte (i : Index) (tag : Bool) (sym : BitVec 8) (l r : Index) (f : BitVec 32) (s : State) :
    (entryWrite i tag sym l r f s).rbyte = s.rbyte := rfl
@[simp] theorem entryWrite_rcnt (i : Index) (tag : Bool) (sym : BitVec 8) (l r : Index) (f : BitVec 32) (s : State) :
    (entryWrite i tag sym l r f s).rcnt = s.rcnt := rfl
@[simp] theorem entryWrite_wErr (i : Index) (tag : Bool) (sym : BitVec 8) (l r : Index) (f : BitVec 32) (s : State) :
    (entryWrite i tag sym l r f s).wErr = s.wErr := rfl
@[simp] theorem entryWrite_rErr (i : Index) (tag : Bool) (sym : BitVec 8) (l r : Index) (f : BitVec 32) (s : State) :
    (entryWrite i tag sym l r f s).rErr = s.rErr := rfl
@[simp] theorem entryWrite_tErr (i : Index) (tag : Bool) (sym : BitVec 8) (l r : Index) (f : BitVec 32) (s : State) :
    (entryWrite i tag sym l r f s).tErr = s.tErr := rfl
@[simp] theorem entryWrite_cErr (i : Index) (tag : Bool) (sym : BitVec 8) (l r : Index) (f : BitVec 32) (s : State) :
    (entryWrite i tag sym l r f s).cErr = s.cErr := rfl
@[simp] theorem entryWrite_code (i : Index) (tag : Bool) (sym : BitVec 8) (l r : Index) (f : BitVec 32) (s : State) :
    (entryWrite i tag sym l r f s).code = s.code := rfl
@[simp] theorem entryWrite_value (i : Index) (tag : Bool) (sym : BitVec 8) (l r : Index) (f : BitVec 32) (s : State) :
    (entryWrite i tag sym l r f s).value = s.value := rfl
@[simp] theorem entryWrite_errinfo (i : Index) (tag : Bool) (sym : BitVec 8) (l r : Index) (f : BitVec 32) (s : State) :
    (entryWrite i tag sym l r f s).errinfo = s.errinfo := rfl
@[simp] theorem entryWrite_tnodes (i : Index) (tag : Bool) (sym : BitVec 8) (l r : Index) (f : BitVec 32) (s : State) :
    (entryWrite i tag sym l r f s).tnodes = s.tnodes := rfl
@[simp] theorem entryWrite_tmem (i : Index) (tag : Bool) (sym : BitVec 8) (l r : Index) (f : BitVec 32) (s : State) :
    (entryWrite i tag sym l r f s).tmem = memSet (memSet s.tmem (entryAddr i.toNat) (packWord0 tag sym l r)) (entryAddr i.toNat + 1) f := rfl
@[simp] theorem entryWrite_snk (i : Index) (tag : Bool) (sym : BitVec 8) (l r : Index) (f : BitVec 32) (s : State) :
    (entryWrite i tag sym l r f s).snk = s.snk := rfl
@[simp] theorem entryWrite_src (i : Index) (tag : Bool) (sym : BitVec 8) (l r : Index) (f : BitVec 32) (s : State) :
    (entryWrite i tag sym l r f s).src = s.src := rfl
@[simp] theorem entryWrite_spos (i : Index) (tag : Bool) (sym : BitVec 8) (l r : Index) (f : BitVec 32) (s : State) :
    (entryWrite i tag sym l r f s).spos = s.spos := rfl
@[simp] theorem entryWrite_wpos (i : Index) (tag : Bool) (sym : BitVec 8) (l r : Index) (f : BitVec 32) (s : State) :
    (entryWrite i tag sym l r f s).wpos = s.wpos := rfl
@[simp] theorem entryWrite_rpos (i : Index) (tag : Bool) (sym : BitVec 8) (l r : Index) (f : BitVec 32) (s : State) :
    (entryWrite i tag sym l r f s).rpos = s.rpos := rfl
@[simp] theorem entryWrite_snkAnswers (i : Index) (tag : Bool) (sym : BitVec 8) (l r : Index) (f : BitVec 32) (s : State) :
    (entryWrite i tag sym l r f s).snkAnswers = s.snkAnswers := rfl
@[simp] theorem entryWrite_srcAnswers (i : Index) (tag : Bool) (sym : BitVec 8) (l r : Index) (f : BitVec 32) (s : State) :
    (entryWrite i tag sym l r f s).srcAnswers = s.srcAnswers := rfl
@[simp] theorem entryWrite_host (i : Index) (tag : Bool) (sym : BitVec 8) (l r : Index) (f : BitVec 32) (s : State) :
    (entryWrite i tag sym l r f s).host = s.host := rfl
@[simp] theorem entryWrite_reply (i : Index) (tag : Bool) (sym : BitVec 8) (l r : Index) (f : BitVec 32) (s : State) :
    (entryWrite i tag sym l r f s).reply = s.reply := rfl
@[simp] theorem entryWrite_draws (i : Index) (tag : Bool) (sym : BitVec 8) (l r : Index) (f : BitVec 32) (s : State) :
    (entryWrite i tag sym l r f s).draws = s.draws := rfl
@[simp] theorem entryWrite_tmemEpoch (i : Index) (tag : Bool) (sym : BitVec 8) (l r : Index) (f : BitVec 32) (s : State) :
    (entryWrite i tag sym l r f s).tmemEpoch = s.tmemEpoch := rfl

/-! `writeLeaf`. -/

@[simp] theorem writeLeaf_wacc (i : Index) (sym : BitVec 8) (s : State) : (writeLeaf i sym s).wacc = s.wacc := rfl
@[simp] theorem writeLeaf_wcnt (i : Index) (sym : BitVec 8) (s : State) : (writeLeaf i sym s).wcnt = s.wcnt := rfl
@[simp] theorem writeLeaf_rbyte (i : Index) (sym : BitVec 8) (s : State) : (writeLeaf i sym s).rbyte = s.rbyte := rfl
@[simp] theorem writeLeaf_rcnt (i : Index) (sym : BitVec 8) (s : State) : (writeLeaf i sym s).rcnt = s.rcnt := rfl
@[simp] theorem writeLeaf_wErr (i : Index) (sym : BitVec 8) (s : State) : (writeLeaf i sym s).wErr = s.wErr := rfl
@[simp] theorem writeLeaf_rErr (i : Index) (sym : BitVec 8) (s : State) : (writeLeaf i sym s).rErr = s.rErr := rfl
@[simp] theorem writeLeaf_tErr (i : Index) (sym : BitVec 8) (s : State) : (writeLeaf i sym s).tErr = s.tErr := rfl
@[simp] theorem writeLeaf_cErr (i : Index) (sym : BitVec 8) (s : State) : (writeLeaf i sym s).cErr = s.cErr := rfl
@[simp] theorem writeLeaf_code (i : Index) (sym : BitVec 8) (s : State) : (writeLeaf i sym s).code = s.code := rfl
@[simp] theorem writeLeaf_value (i : Index) (sym : BitVec 8) (s : State) : (writeLeaf i sym s).value = s.value := rfl
@[simp] theorem writeLeaf_errinfo (i : Index) (sym : BitVec 8) (s : State) : (writeLeaf i sym s).errinfo = s.errinfo := rfl
@[simp] theorem writeLeaf_tnodes (i : Index) (sym : BitVec 8) (s : State) : (writeLeaf i sym s).tnodes = s.tnodes := rfl
@[simp] theorem writeLeaf_snk (i : Index) (sym : BitVec 8) (s : State) : (writeLeaf i sym s).snk = s.snk := rfl
@[simp] theorem writeLeaf_src (i : Index) (sym : BitVec 8) (s : State) : (writeLeaf i sym s).src = s.src := rfl
@[simp] theorem writeLeaf_spos (i : Index) (sym : BitVec 8) (s : State) : (writeLeaf i sym s).spos = s.spos := rfl
@[simp] theorem writeLeaf_wpos (i : Index) (sym : BitVec 8) (s : State) : (writeLeaf i sym s).wpos = s.wpos := rfl
@[simp] theorem writeLeaf_rpos (i : Index) (sym : BitVec 8) (s : State) : (writeLeaf i sym s).rpos = s.rpos := rfl
@[simp] theorem writeLeaf_snkAnswers (i : Index) (sym : BitVec 8) (s : State) : (writeLeaf i sym s).snkAnswers = s.snkAnswers := rfl
@[simp] theorem writeLeaf_srcAnswers (i : Index) (sym : BitVec 8) (s : State) : (writeLeaf i sym s).srcAnswers = s.srcAnswers := rfl
@[simp] theorem writeLeaf_host (i : Index) (sym : BitVec 8) (s : State) : (writeLeaf i sym s).host = s.host := rfl
@[simp] theorem writeLeaf_reply (i : Index) (sym : BitVec 8) (s : State) : (writeLeaf i sym s).reply = s.reply := rfl
@[simp] theorem writeLeaf_draws (i : Index) (sym : BitVec 8) (s : State) : (writeLeaf i sym s).draws = s.draws := rfl
@[simp] theorem writeLeaf_tmemEpoch (i : Index) (sym : BitVec 8) (s : State) : (writeLeaf i sym s).tmemEpoch = s.tmemEpoch := rfl

/-! `writeInternal`. -/

@[simp] theorem writeInternal_wacc (i l r : Index) (s : State) : (writeInternal i l r s).wacc = s.wacc := rfl
@[simp] theorem writeInternal_wcnt (i l r : Index) (s : State) : (writeInternal i l r s).wcnt = s.wcnt := rfl
@[simp] theorem writeInternal_rbyte (i l r : Index) (s : State) : (writeInternal i l r s).rbyte = s.rbyte := rfl
@[simp] theorem writeInternal_rcnt (i l r : Index) (s : State) : (writeInternal i l r s).rcnt = s.rcnt := rfl
@[simp] theorem writeInternal_wErr (i l r : Index) (s : State) : (writeInternal i l r s).wErr = s.wErr := rfl
@[simp] theorem writeInternal_rErr (i l r : Index) (s : State) : (writeInternal i l r s).rErr = s.rErr := rfl
@[simp] theorem writeInternal_tErr (i l r : Index) (s : State) : (writeInternal i l r s).tErr = s.tErr := rfl
@[simp] theorem writeInternal_cErr (i l r : Index) (s : State) : (writeInternal i l r s).cErr = s.cErr := rfl
@[simp] theorem writeInternal_code (i l r : Index) (s : State) : (writeInternal i l r s).code = s.code := rfl
@[simp] theorem writeInternal_value (i l r : Index) (s : State) : (writeInternal i l r s).value = s.value := rfl
@[simp] theorem writeInternal_errinfo (i l r : Index) (s : State) : (writeInternal i l r s).errinfo = s.errinfo := rfl
@[simp] theorem writeInternal_tnodes (i l r : Index) (s : State) : (writeInternal i l r s).tnodes = s.tnodes := rfl
@[simp] theorem writeInternal_snk (i l r : Index) (s : State) : (writeInternal i l r s).snk = s.snk := rfl
@[simp] theorem writeInternal_src (i l r : Index) (s : State) : (writeInternal i l r s).src = s.src := rfl
@[simp] theorem writeInternal_spos (i l r : Index) (s : State) : (writeInternal i l r s).spos = s.spos := rfl
@[simp] theorem writeInternal_wpos (i l r : Index) (s : State) : (writeInternal i l r s).wpos = s.wpos := rfl
@[simp] theorem writeInternal_rpos (i l r : Index) (s : State) : (writeInternal i l r s).rpos = s.rpos := rfl
@[simp] theorem writeInternal_snkAnswers (i l r : Index) (s : State) : (writeInternal i l r s).snkAnswers = s.snkAnswers := rfl
@[simp] theorem writeInternal_srcAnswers (i l r : Index) (s : State) : (writeInternal i l r s).srcAnswers = s.srcAnswers := rfl
@[simp] theorem writeInternal_host (i l r : Index) (s : State) : (writeInternal i l r s).host = s.host := rfl
@[simp] theorem writeInternal_reply (i l r : Index) (s : State) : (writeInternal i l r s).reply = s.reply := rfl
@[simp] theorem writeInternal_draws (i l r : Index) (s : State) : (writeInternal i l r s).draws = s.draws := rfl
@[simp] theorem writeInternal_tmemEpoch (i l r : Index) (s : State) : (writeInternal i l r s).tmemEpoch = s.tmemEpoch := rfl

/-! `claimEntry`. -/

@[simp] theorem claimEntry_wacc (s : State) : (claimEntry s).wacc = s.wacc := rfl
@[simp] theorem claimEntry_wcnt (s : State) : (claimEntry s).wcnt = s.wcnt := rfl
@[simp] theorem claimEntry_rbyte (s : State) : (claimEntry s).rbyte = s.rbyte := rfl
@[simp] theorem claimEntry_rcnt (s : State) : (claimEntry s).rcnt = s.rcnt := rfl
@[simp] theorem claimEntry_wErr (s : State) : (claimEntry s).wErr = s.wErr := rfl
@[simp] theorem claimEntry_rErr (s : State) : (claimEntry s).rErr = s.rErr := rfl
@[simp] theorem claimEntry_tErr (s : State) : (claimEntry s).tErr = s.tErr := rfl
@[simp] theorem claimEntry_cErr (s : State) : (claimEntry s).cErr = s.cErr := rfl
@[simp] theorem claimEntry_code (s : State) : (claimEntry s).code = s.code := rfl
@[simp] theorem claimEntry_value (s : State) : (claimEntry s).value = s.value := rfl
@[simp] theorem claimEntry_errinfo (s : State) : (claimEntry s).errinfo = s.errinfo := rfl
@[simp] theorem claimEntry_tnodes (s : State) : (claimEntry s).tnodes = s.tnodes + 1 := rfl
@[simp] theorem claimEntry_tmem (s : State) : (claimEntry s).tmem = s.tmem := rfl
@[simp] theorem claimEntry_snk (s : State) : (claimEntry s).snk = s.snk := rfl
@[simp] theorem claimEntry_src (s : State) : (claimEntry s).src = s.src := rfl
@[simp] theorem claimEntry_spos (s : State) : (claimEntry s).spos = s.spos := rfl
@[simp] theorem claimEntry_wpos (s : State) : (claimEntry s).wpos = s.wpos := rfl
@[simp] theorem claimEntry_rpos (s : State) : (claimEntry s).rpos = s.rpos := rfl
@[simp] theorem claimEntry_snkAnswers (s : State) : (claimEntry s).snkAnswers = s.snkAnswers := rfl
@[simp] theorem claimEntry_srcAnswers (s : State) : (claimEntry s).srcAnswers = s.srcAnswers := rfl
@[simp] theorem claimEntry_host (s : State) : (claimEntry s).host = s.host := rfl
@[simp] theorem claimEntry_reply (s : State) : (claimEntry s).reply = s.reply := rfl
@[simp] theorem claimEntry_draws (s : State) : (claimEntry s).draws = s.draws := rfl
@[simp] theorem claimEntry_tmemEpoch (s : State) : (claimEntry s).tmemEpoch = s.tmemEpoch := rfl

/-! `resetBlock`. -/

@[simp] theorem resetBlock_wacc (s : State) : (resetBlock s).wacc = 0#8 := rfl
@[simp] theorem resetBlock_wcnt (s : State) : (resetBlock s).wcnt = 0#3 := rfl
@[simp] theorem resetBlock_rbyte (s : State) : (resetBlock s).rbyte = 0#8 := rfl
@[simp] theorem resetBlock_rcnt (s : State) : (resetBlock s).rcnt = 0#4 := rfl
@[simp] theorem resetBlock_wErr (s : State) : (resetBlock s).wErr = false := rfl
@[simp] theorem resetBlock_rErr (s : State) : (resetBlock s).rErr = false := rfl
@[simp] theorem resetBlock_tErr (s : State) : (resetBlock s).tErr = false := rfl
@[simp] theorem resetBlock_cErr (s : State) : (resetBlock s).cErr = false := rfl
@[simp] theorem resetBlock_code (s : State) : (resetBlock s).code = .ok := rfl
@[simp] theorem resetBlock_value (s : State) : (resetBlock s).value = false := rfl
@[simp] theorem resetBlock_errinfo (s : State) : (resetBlock s).errinfo = 0#32 := rfl
@[simp] theorem resetBlock_tnodes (s : State) : (resetBlock s).tnodes = 0#10 := rfl
@[simp] theorem resetBlock_tmem (s : State) : (resetBlock s).tmem = s.tmem := rfl
@[simp] theorem resetBlock_snk (s : State) : (resetBlock s).snk = s.snk := rfl
@[simp] theorem resetBlock_src (s : State) : (resetBlock s).src = s.src := rfl
@[simp] theorem resetBlock_spos (s : State) : (resetBlock s).spos = s.spos := rfl
@[simp] theorem resetBlock_wpos (s : State) : (resetBlock s).wpos = 0 := rfl
@[simp] theorem resetBlock_rpos (s : State) : (resetBlock s).rpos = 0 := rfl
@[simp] theorem resetBlock_snkAnswers (s : State) : (resetBlock s).snkAnswers = s.snkAnswers := rfl
@[simp] theorem resetBlock_srcAnswers (s : State) : (resetBlock s).srcAnswers = s.srcAnswers := rfl
@[simp] theorem resetBlock_host (s : State) : (resetBlock s).host = s.host := rfl
@[simp] theorem resetBlock_reply (s : State) : (resetBlock s).reply = s.reply := rfl
@[simp] theorem resetBlock_draws (s : State) : (resetBlock s).draws = s.draws := rfl
@[simp] theorem resetBlock_tmemEpoch (s : State) : (resetBlock s).tmemEpoch = s.tmemEpoch := rfl

/-! `takeAction`. -/

@[simp] theorem takeAction_wacc (rest : List HostAction) (s : State) : (takeAction rest s).wacc = s.wacc := rfl
@[simp] theorem takeAction_wcnt (rest : List HostAction) (s : State) : (takeAction rest s).wcnt = s.wcnt := rfl
@[simp] theorem takeAction_rbyte (rest : List HostAction) (s : State) : (takeAction rest s).rbyte = s.rbyte := rfl
@[simp] theorem takeAction_rcnt (rest : List HostAction) (s : State) : (takeAction rest s).rcnt = s.rcnt := rfl
@[simp] theorem takeAction_wErr (rest : List HostAction) (s : State) : (takeAction rest s).wErr = s.wErr := rfl
@[simp] theorem takeAction_rErr (rest : List HostAction) (s : State) : (takeAction rest s).rErr = s.rErr := rfl
@[simp] theorem takeAction_tErr (rest : List HostAction) (s : State) : (takeAction rest s).tErr = s.tErr := rfl
@[simp] theorem takeAction_cErr (rest : List HostAction) (s : State) : (takeAction rest s).cErr = s.cErr := rfl
@[simp] theorem takeAction_code (rest : List HostAction) (s : State) : (takeAction rest s).code = s.code := rfl
@[simp] theorem takeAction_value (rest : List HostAction) (s : State) : (takeAction rest s).value = s.value := rfl
@[simp] theorem takeAction_errinfo (rest : List HostAction) (s : State) : (takeAction rest s).errinfo = s.errinfo := rfl
@[simp] theorem takeAction_tnodes (rest : List HostAction) (s : State) : (takeAction rest s).tnodes = s.tnodes := rfl
@[simp] theorem takeAction_tmem (rest : List HostAction) (s : State) : (takeAction rest s).tmem = s.tmem := rfl
@[simp] theorem takeAction_snk (rest : List HostAction) (s : State) : (takeAction rest s).snk = s.snk := rfl
@[simp] theorem takeAction_src (rest : List HostAction) (s : State) : (takeAction rest s).src = s.src := rfl
@[simp] theorem takeAction_spos (rest : List HostAction) (s : State) : (takeAction rest s).spos = s.spos := rfl
@[simp] theorem takeAction_wpos (rest : List HostAction) (s : State) : (takeAction rest s).wpos = s.wpos := rfl
@[simp] theorem takeAction_rpos (rest : List HostAction) (s : State) : (takeAction rest s).rpos = s.rpos := rfl
@[simp] theorem takeAction_snkAnswers (rest : List HostAction) (s : State) : (takeAction rest s).snkAnswers = s.snkAnswers := rfl
@[simp] theorem takeAction_srcAnswers (rest : List HostAction) (s : State) : (takeAction rest s).srcAnswers = s.srcAnswers := rfl
@[simp] theorem takeAction_host (rest : List HostAction) (s : State) : (takeAction rest s).host = rest := rfl
@[simp] theorem takeAction_reply (rest : List HostAction) (s : State) : (takeAction rest s).reply = none := rfl
@[simp] theorem takeAction_draws (rest : List HostAction) (s : State) : (takeAction rest s).draws = s.draws := rfl
@[simp] theorem takeAction_tmemEpoch (rest : List HostAction) (s : State) : (takeAction rest s).tmemEpoch = s.tmemEpoch := rfl

/-! `enterFault`, the fields that depend on the cause (60_exceptions.md R163 steps 2 and 3). -/

@[simp] theorem enterFault_wErr (c : Cause) (s : State) :
    (enterFault c s).wErr = (s.wErr || decide (causeCode c = .sinkError)) := by cases c <;> simp [enterFault, setSticky, postFaultWriter, causeCode]
@[simp] theorem enterFault_rErr (c : Cause) (s : State) :
    (enterFault c s).rErr = (s.rErr || decide (causeCode c = .sourceError)) := by cases c <;> simp [enterFault, setSticky, postFaultWriter, causeCode]
@[simp] theorem enterFault_tErr (c : Cause) (s : State) :
    (enterFault c s).tErr = (s.tErr || decide (causeCode c = .treeCapacity ∨ causeCode c = .treeInvariant)) := by
  cases c <;> simp [enterFault, setSticky, postFaultWriter, causeCode]
@[simp] theorem enterFault_cErr (c : Cause) (s : State) :
    (enterFault c s).cErr = (s.cErr || decide (causeCode c = .illegalCommand)) := by cases c <;> simp [enterFault, setSticky, postFaultWriter, causeCode]

/-- Only a SinkError changes `WACC` (40_bitwriter.md R81). -/
theorem enterFault_wacc (c : Cause) (s : State) (h : causeCode c ≠ .sinkError) : (enterFault c s).wacc = s.wacc := by
  cases c <;> simp_all [enterFault, setSticky, postFaultWriter, causeCode]

/-- Only a SinkError changes `WCNT` (40_bitwriter.md R81). -/
theorem enterFault_wcnt (c : Cause) (s : State) (h : causeCode c ≠ .sinkError) : (enterFault c s).wcnt = s.wcnt := by
  cases c <;> simp_all [enterFault, setSticky, postFaultWriter, causeCode]

/-- Only a SinkError draws a free value in fault entry. -/
theorem enterFault_draws (c : Cause) (s : State) (h : causeCode c ≠ .sinkError) : (enterFault c s).draws = s.draws := by
  cases c <;> simp_all [enterFault, setSticky, postFaultWriter, causeCode]

end Sys2Proof.Machine
end

