-- ==== Sys2Proof/Laws/Memory.lean ====
section
/-! SUPPORT. The laws of memory: reads after writes, the canonical form, and what an entry of TMEM reads as after a write. -/

namespace Sys2Proof.Machine

/-! Read after write. -/

@[simp] theorem memGet_memSet_same (m : WordMemory) (a : Nat) (w : BitVec 32) : memGet (memSet m a w) a = some w := by
  induction m with
  | nil => simp [memSet, memGet]
  | cons c rest ih =>
    obtain ⟨k, v⟩ := c
    simp only [memSet]
    split
    · simp [memGet]
    · split
      · simp [memGet]
      · have : k ≠ a := by omega
        simp [memGet, this, ih]

theorem memGet_memSet_other (m : WordMemory) {a b : Nat} (w : BitVec 32) (h : b ≠ a) :
    memGet (memSet m a w) b = memGet m b := by
  induction m with
  | nil => simp [memSet, memGet, h.symm]
  | cons c rest ih =>
    obtain ⟨k, v⟩ := c
    simp only [memSet]
    split
    · simp [memGet, h.symm]
    · split
      · rename_i h1
        subst h1
        simp [memGet, h.symm]
      · simp [memGet, ih]

/-! The canonical form. -/

theorem memRisesAbove_memSet (m : WordMemory) {b a : Nat} (w : BitVec 32) (hb : b < a) (h : memRisesAbove b m = true) :
    memRisesAbove b (memSet m a w) = true := by
  induction m generalizing b with
  | nil => simp [memSet, memRisesAbove, hb]
  | cons c rest ih =>
    obtain ⟨k, v⟩ := c
    simp only [memRisesAbove, Bool.and_eq_true, decide_eq_true_eq] at h
    simp only [memSet]
    split
    · simp_all [memRisesAbove]
    · split
      · simp_all [memRisesAbove]
      · simp only [memRisesAbove, Bool.and_eq_true, decide_eq_true_eq]
        exact ⟨h.1, ih (by omega) h.2⟩

/-- A write keeps the canonical form. -/
theorem memSet_wf (m : WordMemory) (a : Nat) (w : BitVec 32) (h : Memory.wf m = true) :
    Memory.wf (memSet m a w) = true := by
  cases m with
  | nil => simp [memSet, Memory.wf, memRisesAbove]
  | cons c rest =>
    obtain ⟨k, v⟩ := c
    simp only [Memory.wf] at h
    simp only [memSet]
    split
    · simp_all [Memory.wf, memRisesAbove]
    · split
      · simp_all [Memory.wf]
      · exact memRisesAbove_memSet rest w (by omega) h

/-- A write within bounds keeps every listed address within them. -/
theorem memWithin_memSet (m : WordMemory) {lo hi a : Nat} (w : BitVec 32) (ha : lo ≤ a ∧ a < hi)
    (h : memWithin lo hi m = true) : memWithin lo hi (memSet m a w) = true := by
  induction m with
  | nil => simp [memSet, memWithin, ha]
  | cons c rest ih =>
    obtain ⟨k, v⟩ := c
    simp only [memWithin, Bool.and_eq_true, decide_eq_true_eq] at h
    simp only [memSet]
    split
    · simp [memWithin, ha, h]
    · split
      · simp [memWithin, ha, h]
      · simp [memWithin, ih h.2, h]

/-- Power-up memory is canonical. -/
theorem reset_memory_wf : Memory.wf State.reset.tmem = true := rfl

/-! Words of TMEM. -/

/-- What a word of TMEM reads as depends on the listed words and the epoch alone. -/
theorem tmemRead_congr {s t : State} (hm : t.tmem = s.tmem) (he : t.tmemEpoch = s.tmemEpoch) (a : Nat) :
    tmemRead t a = tmemRead s a := by simp [tmemRead, hm, he]

@[simp] theorem tmemRead_tmemWrite_same (a : Nat) (w : BitVec 32) (s : State) : tmemRead (tmemWrite a w s) a = w := by
  simp [tmemRead]

theorem tmemRead_tmemWrite_other {a b : Nat} (w : BitVec 32) (s : State) (h : b ≠ a) :
    tmemRead (tmemWrite a w s) b = tmemRead s b := by
  simp [tmemRead, memGet_memSet_other _ _ h]

/-! Entries of TMEM. -/

theorem tmemRead_entryWrite_other (i : Index) (tag : Bool) (sym : BitVec 8) (l r : Index) (f : BitVec 32) (s : State)
    {a : Nat} (h0 : a ≠ entryAddr i.toNat) (h1 : a ≠ entryAddr i.toNat + 1) :
    tmemRead (entryWrite i tag sym l r f s) a = tmemRead s a := by
  rw [entryWrite, tmemRead_tmemWrite_other _ _ h1, tmemRead_tmemWrite_other _ _ h0]

@[simp] theorem entryWord0_entryWrite_same (i : Index) (tag : Bool) (sym : BitVec 8) (l r : Index) (f : BitVec 32)
    (s : State) : entryWord0 (entryWrite i tag sym l r f s) i = packWord0 tag sym l r := by
  rw [entryWord0, entryWrite, tmemRead_tmemWrite_other _ _ (by omega), tmemRead_tmemWrite_same]

@[simp] theorem entryWord1_entryWrite_same (i : Index) (tag : Bool) (sym : BitVec 8) (l r : Index) (f : BitVec 32)
    (s : State) : entryWord1 (entryWrite i tag sym l r f s) i = f := by
  rw [entryWord1, entryWrite, tmemRead_tmemWrite_same]

theorem entryWord0_entryWrite_other (i j : Index) (tag : Bool) (sym : BitVec 8) (l r : Index) (f : BitVec 32) (s : State)
    (h : j ≠ i) : entryWord0 (entryWrite i tag sym l r f s) j = entryWord0 s j := by
  have : j.toNat ≠ i.toNat := fun e => h (BitVec.eq_of_toNat_eq e)
  exact tmemRead_entryWrite_other _ _ _ _ _ _ _ (by simp [entryAddr]; omega) (by simp [entryAddr]; omega)

theorem entryWord1_entryWrite_other (i j : Index) (tag : Bool) (sym : BitVec 8) (l r : Index) (f : BitVec 32) (s : State)
    (h : j ≠ i) : entryWord1 (entryWrite i tag sym l r f s) j = entryWord1 s j := by
  have : j.toNat ≠ i.toNat := fun e => h (BitVec.eq_of_toNat_eq e)
  exact tmemRead_entryWrite_other _ _ _ _ _ _ _ (by simp [entryAddr]; omega) (by simp [entryAddr]; omega)

/-! The fields of a packed word (20_memory.md R46). -/

@[simp] theorem packWord0_tag (tag : Bool) (sym : BitVec 8) (l r : Index) : (packWord0 tag sym l r).getLsbD 31 = tag := by
  simp only [packWord0, BitVec.getLsbD_cast, BitVec.getLsbD_append]
  cases tag <;> rfl

@[simp] theorem packWord0_sym (tag : Bool) (sym : BitVec 8) (l r : Index) :
    (packWord0 tag sym l r).extractLsb' 18 8 = sym := by
  apply BitVec.eq_of_getLsbD_eq
  intro j hj
  simp only [packWord0, BitVec.getLsbD_extractLsb', BitVec.getLsbD_cast, BitVec.getLsbD_append]
  have h1 : ¬ 18 + j < 9 := by omega
  have h2 : ¬ 18 + j - 9 < 9 := by omega
  have h4 : 18 + j - 9 - 9 = j := by omega
  simp only [h1, h2, h4, if_true, if_false, hj, decide_true, Bool.true_and]

@[simp] theorem packWord0_left (tag : Bool) (sym : BitVec 8) (l r : Index) :
    (packWord0 tag sym l r).extractLsb' 9 9 = l := by
  apply BitVec.eq_of_getLsbD_eq
  intro j hj
  simp only [packWord0, BitVec.getLsbD_extractLsb', BitVec.getLsbD_cast, BitVec.getLsbD_append]
  have h1 : ¬ 9 + j < 9 := by omega
  have h2 : 9 + j - 9 = j := by omega
  simp only [h1, h2, if_true, if_false, hj, decide_true, Bool.true_and]

@[simp] theorem packWord0_right (tag : Bool) (sym : BitVec 8) (l r : Index) :
    (packWord0 tag sym l r).extractLsb' 0 9 = r := by
  apply BitVec.eq_of_getLsbD_eq
  intro j hj
  simp only [packWord0, BitVec.getLsbD_extractLsb', BitVec.getLsbD_cast, BitVec.getLsbD_append, Nat.zero_add, if_true, hj,
    decide_true, Bool.true_and]

/-! The fields of an entry after a write of it: the spec lemma of `entryWrite`. -/

@[simp] theorem entryTag_entryWrite_same (i : Index) (tag : Bool) (sym : BitVec 8) (l r : Index) (f : BitVec 32)
    (s : State) : entryTag (entryWrite i tag sym l r f s) i = tag := by simp only [entryTag, entryWord0_entryWrite_same, packWord0_tag]

@[simp] theorem entrySym_entryWrite_same (i : Index) (tag : Bool) (sym : BitVec 8) (l r : Index) (f : BitVec 32)
    (s : State) : entrySym (entryWrite i tag sym l r f s) i = sym := by simp [entrySym]

@[simp] theorem entryLeft_entryWrite_same (i : Index) (tag : Bool) (sym : BitVec 8) (l r : Index) (f : BitVec 32)
    (s : State) : entryLeft (entryWrite i tag sym l r f s) i = l := by simp [entryLeft]

@[simp] theorem entryRight_entryWrite_same (i : Index) (tag : Bool) (sym : BitVec 8) (l r : Index) (f : BitVec 32)
    (s : State) : entryRight (entryWrite i tag sym l r f s) i = r := by simp [entryRight]

@[simp] theorem entryFreq_entryWrite_same (i : Index) (tag : Bool) (sym : BitVec 8) (l r : Index) (f : BitVec 32)
    (s : State) : entryFreq (entryWrite i tag sym l r f s) i = f := by simp [entryFreq]

end Sys2Proof.Machine
end

