-- ==== Sys2Proof/Laws/Ops.lean ====
section
/-! SUPPORT. What each shared operation can do, said once: how pieces of a command compose, what each piece may change, which
faults it can raise, and when it runs to its end. -/

namespace Sys2Proof.Machine

/-! ## Composition -/

@[simp] theorem andThen_done {α β : Type} (a : α) (s : State) (f : α → State → Res β) :
    andThen (.done a s) f = f a s := rfl

@[simp] theorem andThen_raised {α β : Type} (c : Cause) (s : State) (f : α → State → Res β) :
    andThen (.raised c s : Res α) f = .raised c s := rfl

@[simp] theorem andThen_stuck {α β : Type} (e : Fault) (f : α → State → Res β) :
    andThen (.stuck e : Res α) f = .stuck e := rfl

theorem andThen_assoc {α β γ : Type} (r : Res α) (f : α → State → Res β) (g : β → State → Res γ) :
    andThen (andThen r f) g = andThen r fun a s => andThen (f a s) g := by cases r <;> rfl

/-- A composition that ran to its end did so piece by piece. -/
theorem andThen_eq_done {α β : Type} {r : Res α} {f : α → State → Res β} {b : β} {t : State} :
    andThen r f = .done b t ↔ ∃ a s, r = .done a s ∧ f a s = .done b t := by
  cases r <;> simp [andThen]

/-- A composition that raised did so in its first piece or in its second. -/
theorem andThen_eq_raised {α β : Type} {r : Res α} {f : α → State → Res β} {c : Cause} {t : State} :
    andThen r f = .raised c t ↔ r = .raised c t ∨ ∃ a s, r = .done a s ∧ f a s = .raised c t := by
  cases r <;> simp [andThen]

/-- Every state a result holds satisfies `P`. -/
def ResAll {α : Type} (P : State → Prop) (r : Res α) : Prop :=
  match r with
  | .done _ t => P t
  | .raised _ t => P t
  | .stuck _ => True

/-- Every fault a result raises has a code that satisfies `P`. -/
def ResRaises {α : Type} (P : StatusCode → Prop) (r : Res α) : Prop :=
  match r with
  | .done _ _ => True
  | .raised c _ => P (causeCode c)
  | .stuck _ => True

/-- A result is not a stuck transaction. -/
def ResEnds {α : Type} (r : Res α) : Prop :=
  match r with
  | .done _ _ => True
  | .raised _ _ => True
  | .stuck _ => False

theorem resAll_andThen {α β : Type} {P : State → Prop} {r : Res α} {f : α → State → Res β} (h : ResAll P r)
    (hf : ∀ a t, r = .done a t → P t → ResAll P (f a t)) : ResAll P (andThen r f) := by
  cases r with
  | done a t => exact hf a t rfl h
  | raised c t => exact h
  | stuck e => trivial

theorem resRaises_andThen {α β : Type} {P : StatusCode → Prop} {r : Res α} {f : α → State → Res β} (h : ResRaises P r)
    (hf : ∀ a t, r = .done a t → ResRaises P (f a t)) : ResRaises P (andThen r f) := by
  cases r with
  | done a t => exact hf a t rfl
  | raised c t => exact h
  | stuck e => trivial

theorem resEnds_andThen {α β : Type} {r : Res α} {f : α → State → Res β} (h : ResEnds r)
    (hf : ∀ a t, r = .done a t → ResEnds (f a t)) : ResEnds (andThen r f) := by
  cases r with
  | done a t => exact hf a t rfl
  | raised c t => trivial
  | stuck e => exact h.elim

theorem resAll_mono {α : Type} {P Q : State → Prop} {r : Res α} (h : ResAll P r) (hpq : ∀ t, P t → Q t) : ResAll Q r := by
  cases r with
  | done a t => exact hpq t h
  | raised c t => exact hpq t h
  | stuck e => trivial

theorem resAll_and {α : Type} {P Q : State → Prop} {r : Res α} (hp : ResAll P r) (hq : ResAll Q r) :
    ResAll (fun t => P t ∧ Q t) r := by
  cases r with
  | done a t => exact ⟨hp, hq⟩
  | raised c t => exact ⟨hp, hq⟩
  | stuck e => trivial

/-! ## The streams -/

/-- What `SnkWrite` can do (20_memory.md R42). -/
theorem snkWrite_cases (v : BitVec 8) (s : State) :
    (nextAnswer s.snkAnswers = .ok ∧
      snkWrite v s = .done () { s with snk := s.snk ++ [v], snkAnswers := s.snkAnswers.tail }) ∨
    (∃ e, nextAnswer s.snkAnswers = .fail e ∧
      snkWrite v s = .raised (.sinkError e) { s with snkAnswers := s.snkAnswers.tail }) ∨
    (nextAnswer s.snkAnswers = .never ∧ snkWrite v s = .stuck .sinkNeverAnswers) := by
  cases h : nextAnswer s.snkAnswers <;> simp [snkWrite, h]

/-- What `SrcRead` can do (20_memory.md R43). -/
theorem srcRead_cases (s : State) :
    (∃ v, nextAnswer s.srcAnswers = .ok ∧ s.src[s.spos]? = some v ∧
      srcRead s = .done v { s with spos := s.spos + 1, srcAnswers := s.srcAnswers.tail }) ∨
    (nextAnswer s.srcAnswers ≠ .never ∧ ∃ e, srcRead s = .raised (.sourceError e) { s with srcAnswers := s.srcAnswers.tail }) ∨
    (nextAnswer s.srcAnswers = .never ∧ srcRead s = .stuck .sourceNeverAnswers) := by
  cases h : nextAnswer s.srcAnswers <;> cases h2 : s.src[s.spos]? <;> simp [srcRead, h, h2]

theorem nextAnswer_of_all_ok {as : List Answer} (h : ∀ a ∈ as, a = .ok) : nextAnswer as = .ok := by
  cases as with
  | nil => rfl
  | cons a rest => exact h a List.mem_cons_self

theorem nextAnswer_ne_never {as : List Answer} (h : .never ∉ as) : nextAnswer as ≠ .never := by
  cases as with
  | nil => simp [nextAnswer]
  | cons a rest =>
    intro he
    simp only [nextAnswer] at he
    exact h (he ▸ List.mem_cons_self)

/-! ## What the writer's pieces may change -/

/-- `t` differs from `s` in BW, its sink and its ghost position alone. -/
def OnlyWriter (s t : State) : Prop :=
  t = { s with wacc := t.wacc, wcnt := t.wcnt, snk := t.snk, wpos := t.wpos, snkAnswers := t.snkAnswers }

theorem OnlyWriter.refl (s : State) : OnlyWriter s s := rfl

theorem OnlyWriter.trans {s t u : State} (h1 : OnlyWriter s t) (h2 : OnlyWriter t u) : OnlyWriter s u := by
  unfold OnlyWriter at *
  rw [h2, h1]

theorem OnlyWriter.sameReader {s t : State} (h : OnlyWriter s t) : SameReader s t := by
  rw [h]; exact ⟨rfl, rfl, rfl, rfl, rfl, rfl⟩

theorem OnlyWriter.sameTree {s t : State} (h : OnlyWriter s t) : SameTree s t := by
  rw [h]; exact ⟨rfl, rfl, rfl, fun _ => rfl⟩

theorem OnlyWriter.sameSticky {s t : State} (h : OnlyWriter s t) : SameSticky s t := by
  rw [h]; exact ⟨rfl, rfl, rfl, rfl⟩

theorem OnlyWriter.sameHost {s t : State} (h : OnlyWriter s t) : SameHost s t := by
  rw [h]; exact ⟨rfl, rfl⟩

theorem OnlyWriter.errinfo {s t : State} (h : OnlyWriter s t) : t.errinfo = s.errinfo := by rw [h]

theorem OnlyWriter.code {s t : State} (h : OnlyWriter s t) : t.code = s.code := by rw [h]

theorem OnlyWriter.draws {s t : State} (h : OnlyWriter s t) : t.draws = s.draws := by rw [h]

theorem snkWrite_onlyWriter (v : BitVec 8) (s : State) : ResAll (OnlyWriter s) (snkWrite v s) := by
  obtain ⟨_, h⟩ | ⟨e, _, h⟩ | ⟨_, h⟩ := snkWrite_cases v s <;> rw [h] <;> trivial

theorem putBit_onlyWriter (b : Bool) (s : State) : ResAll (OnlyWriter s) (putBit b s) := by
  unfold putBit
  split
  · rfl
  · exact resAll_andThen (snkWrite_onlyWriter _ s) fun _ t _ ht => OnlyWriter.trans ht rfl

theorem putBits_onlyWriter (bits : Bits) (s : State) : ResAll (OnlyWriter s) (putBits bits s) := by
  induction bits generalizing s with
  | nil => rfl
  | cons b rest ih =>
    exact resAll_andThen (putBit_onlyWriter b s) fun _ t _ ht => resAll_mono (ih t) fun _ => ht.trans

theorem flushPending_onlyWriter (s : State) : ResAll (OnlyWriter s) (flushPending s) := by
  unfold flushPending
  split
  · rfl
  · exact resAll_andThen (snkWrite_onlyWriter _ s) fun _ t _ ht => OnlyWriter.trans ht rfl

theorem serNode_onlyWriter (fuel : Nat) (i : Index) (visits : Nat) (s : State) :
    ResAll (OnlyWriter s) (serNode fuel i visits s) := by
  induction fuel generalizing i visits s with
  | zero => rfl
  | succ n ih =>
    unfold serNode
    split
    · rfl
    · split
      · rfl
      · split
        · exact resAll_andThen (putBits_onlyWriter _ s) fun _ t _ ht => ht
        · refine resAll_andThen (putBits_onlyWriter _ s) fun _ t _ ht => ?_
          refine resAll_andThen (resAll_mono (ih _ _ t) fun _ => ht.trans) fun _ u _ hu => ?_
          exact resAll_mono (ih _ _ u) fun _ => hu.trans

/-! ## What the reader's and TDES's pieces may change -/

/-- `t` differs from `s` in BR, the source's position and answers, and BR's ghost position alone. -/
def OnlyReader (s t : State) : Prop :=
  t = { s with rbyte := t.rbyte, rcnt := t.rcnt, spos := t.spos, rpos := t.rpos, srcAnswers := t.srcAnswers }

/-- `t` differs from `s` in BR and its source as `OnlyReader` says, in `TNODES` and in the words of `TMEM` alone. -/
def OnlyTdes (s t : State) : Prop :=
  t = { s with rbyte := t.rbyte, rcnt := t.rcnt, spos := t.spos, rpos := t.rpos, srcAnswers := t.srcAnswers,
               tnodes := t.tnodes, tmem := t.tmem }

theorem OnlyReader.refl (s : State) : OnlyReader s s := rfl

theorem OnlyTdes.refl (s : State) : OnlyTdes s s := rfl

theorem OnlyReader.trans {s t u : State} (h1 : OnlyReader s t) (h2 : OnlyReader t u) : OnlyReader s u := by
  unfold OnlyReader at *
  rw [h2, h1]

theorem OnlyTdes.trans {s t u : State} (h1 : OnlyTdes s t) (h2 : OnlyTdes t u) : OnlyTdes s u := by
  unfold OnlyTdes at *
  rw [h2, h1]

theorem OnlyReader.onlyTdes {s t : State} (h : OnlyReader s t) : OnlyTdes s t := by
  unfold OnlyReader at h
  unfold OnlyTdes
  rw [h]

theorem OnlyReader.sameWriter {s t : State} (h : OnlyReader s t) : SameWriter s t := by
  rw [h]; exact ⟨rfl, rfl, rfl, rfl, rfl⟩

theorem OnlyReader.sameTree {s t : State} (h : OnlyReader s t) : SameTree s t := by
  rw [h]; exact ⟨rfl, rfl, rfl, fun _ => rfl⟩

theorem OnlyTdes.sameWriter {s t : State} (h : OnlyTdes s t) : SameWriter s t := by
  rw [h]; exact ⟨rfl, rfl, rfl, rfl, rfl⟩

theorem OnlyTdes.sameSticky {s t : State} (h : OnlyTdes s t) : SameSticky s t := by
  rw [h]; exact ⟨rfl, rfl, rfl, rfl⟩

theorem OnlyTdes.sameHost {s t : State} (h : OnlyTdes s t) : SameHost s t := by
  rw [h]; exact ⟨rfl, rfl⟩

theorem OnlyTdes.src {s t : State} (h : OnlyTdes s t) : t.src = s.src := by rw [h]

theorem OnlyTdes.errinfo {s t : State} (h : OnlyTdes s t) : t.errinfo = s.errinfo := by rw [h]

theorem OnlyTdes.code {s t : State} (h : OnlyTdes s t) : t.code = s.code := by rw [h]

theorem OnlyTdes.value {s t : State} (h : OnlyTdes s t) : t.value = s.value := by rw [h]

theorem OnlyTdes.draws {s t : State} (h : OnlyTdes s t) : t.draws = s.draws := by rw [h]

theorem OnlyTdes.tmemEpoch {s t : State} (h : OnlyTdes s t) : t.tmemEpoch = s.tmemEpoch := by rw [h]

theorem srcRead_onlyReader (s : State) : ResAll (OnlyReader s) (srcRead s) := by
  obtain ⟨v, _, _, h⟩ | ⟨_, e, h⟩ | ⟨_, h⟩ := srcRead_cases s <;> rw [h] <;> trivial

theorem getBit_onlyReader (s : State) : ResAll (OnlyReader s) (getBit s) := by
  unfold getBit
  split
  · exact resAll_andThen (srcRead_onlyReader s) fun _ t _ ht => OnlyReader.trans ht rfl
  · rfl

theorem getBits_onlyReader (n : Nat) (s : State) : ResAll (OnlyReader s) (getBits n s) := by
  induction n generalizing s with
  | zero => rfl
  | succ k ih =>
    refine resAll_andThen (getBit_onlyReader s) fun _ t _ ht => ?_
    exact resAll_andThen (resAll_mono (ih t) fun _ => ht.trans) fun _ u _ hu => hu

theorem getBitsInto_onlyReader (n : Nat) (acc : BitVec 8) (s : State) :
    ResAll (OnlyReader s) (getBitsInto n acc s) := by
  induction n generalizing acc s with
  | zero => rfl
  | succ k ih => exact resAll_andThen (getBit_onlyReader s) fun _ t _ ht => resAll_mono (ih _ t) fun _ => ht.trans

theorem allocEntry_onlyTdes (s : State) : ResAll (OnlyTdes s) (allocEntry s) := by
  unfold allocEntry
  split <;> rfl

theorem writeLeaf_onlyTdes (i : Index) (sym : BitVec 8) (s : State) : OnlyTdes s (writeLeaf i sym s) := rfl

theorem writeInternal_onlyTdes (i l r : Index) (s : State) : OnlyTdes s (writeInternal i l r s) := rfl

theorem desNode_onlyTdes (fuel : Nat) (s : State) : ResAll (OnlyTdes s) (desNode fuel s) := by
  induction fuel generalizing s with
  | zero => rfl
  | succ n ih =>
    refine resAll_andThen (resAll_mono (getBit_onlyReader s) fun _ => OnlyReader.onlyTdes) fun tag t _ ht => ?_
    refine resAll_andThen (resAll_mono (allocEntry_onlyTdes t) fun _ => ht.trans) fun i u _ hu => ?_
    split
    · refine resAll_andThen (resAll_mono (getBitsInto_onlyReader 8 0#8 u) fun _ h => hu.trans h.onlyTdes) fun sym v _ hv => ?_
      exact hv.trans (writeLeaf_onlyTdes i sym v)
    · refine resAll_andThen (resAll_mono (ih u) fun _ => hu.trans) fun l v _ hv => ?_
      refine resAll_andThen (resAll_mono (ih v) fun _ => hv.trans) fun r w _ hw => ?_
      exact hw.trans (writeInternal_onlyTdes i l r w)

theorem openInternal_onlyTdes (s : State) : ResAll (OnlyTdes s) (openInternal s) := by
  refine resAll_andThen (allocEntry_onlyTdes s) fun i t _ ht => ?_
  refine resAll_andThen (resAll_mono (desNode_onlyTdes _ t) fun _ => ht.trans) fun l u _ hu => ?_
  refine resAll_andThen (resAll_mono (desNode_onlyTdes _ u) fun _ => hu.trans) fun r v _ hv => ?_
  exact hv.trans (writeInternal_onlyTdes i l r v)

theorem storeLeaf_onlyTdes (sym : BitVec 8) (s : State) : ResAll (OnlyTdes s) (storeLeaf sym s) :=
  resAll_andThen (allocEntry_onlyTdes s) fun i t _ ht => ht.trans (writeLeaf_onlyTdes i sym t)

/-! ## Which faults the pieces raise -/

theorem snkWrite_raises (v : BitVec 8) (s : State) : ResRaises (· = .sinkError) (snkWrite v s) := by
  obtain ⟨_, h⟩ | ⟨e, _, h⟩ | ⟨_, h⟩ := snkWrite_cases v s <;> rw [h] <;> trivial

theorem putBit_raises (b : Bool) (s : State) : ResRaises (· = .sinkError) (putBit b s) := by
  unfold putBit
  split
  · trivial
  · exact resRaises_andThen (snkWrite_raises _ s) fun _ _ _ => trivial

theorem putBits_raises (bits : Bits) (s : State) : ResRaises (· = .sinkError) (putBits bits s) := by
  induction bits generalizing s with
  | nil => trivial
  | cons b rest ih => exact resRaises_andThen (putBit_raises b s) fun _ t _ => ih t

theorem flushPending_raises (s : State) : ResRaises (· = .sinkError) (flushPending s) := by
  unfold flushPending
  split
  · trivial
  · exact resRaises_andThen (snkWrite_raises _ s) fun _ _ _ => trivial

theorem resRaises_mono {α : Type} {P Q : StatusCode → Prop} {r : Res α} (h : ResRaises P r) (hpq : ∀ c, P c → Q c) :
    ResRaises Q r := by
  cases r with
  | done a t => trivial
  | raised c t => exact hpq _ h
  | stuck e => trivial

theorem serNode_raises (fuel : Nat) (i : Index) (visits : Nat) (s : State) :
    ResRaises (fun c => c = .sinkError ∨ c = .treeInvariant) (serNode fuel i visits s) := by
  induction fuel generalizing i visits s with
  | zero => exact Or.inr rfl
  | succ n ih =>
    unfold serNode
    split
    · exact Or.inr rfl
    · split
      · exact Or.inr rfl
      · split
        · exact resRaises_andThen (resRaises_mono (putBits_raises _ s) fun _ => Or.inl) fun _ _ _ => trivial
        · refine resRaises_andThen (resRaises_mono (putBits_raises _ s) fun _ => Or.inl) fun _ t _ => ?_
          exact resRaises_andThen (ih _ _ t) fun _ u _ => ih _ _ u

theorem srcRead_raises (s : State) : ResRaises (· = .sourceError) (srcRead s) := by
  obtain ⟨v, _, _, h⟩ | ⟨_, e, h⟩ | ⟨_, h⟩ := srcRead_cases s <;> rw [h] <;> trivial

theorem getBit_raises (s : State) : ResRaises (· = .sourceError) (getBit s) := by
  unfold getBit
  split
  · exact resRaises_andThen (srcRead_raises s) fun _ _ _ => trivial
  · trivial

theorem getBitsInto_raises (n : Nat) (acc : BitVec 8) (s : State) : ResRaises (· = .sourceError) (getBitsInto n acc s) := by
  induction n generalizing acc s with
  | zero => trivial
  | succ k ih => exact resRaises_andThen (getBit_raises s) fun _ t _ => ih _ t

theorem allocEntry_raises (s : State) : ResRaises (· = .treeCapacity) (allocEntry s) := by
  unfold allocEntry
  split <;> trivial

theorem desNode_raises (fuel : Nat) (s : State) :
    ResRaises (fun c => c = .sourceError ∨ c = .treeCapacity) (desNode fuel s) := by
  induction fuel generalizing s with
  | zero => exact Or.inr rfl
  | succ n ih =>
    refine resRaises_andThen (resRaises_mono (getBit_raises s) fun _ => Or.inl) fun tag t _ => ?_
    refine resRaises_andThen (resRaises_mono (allocEntry_raises t) fun _ => Or.inr) fun i u _ => ?_
    split
    · exact resRaises_andThen (resRaises_mono (getBitsInto_raises 8 0#8 u) fun _ => Or.inl) fun _ _ _ => trivial
    · refine resRaises_andThen (ih u) fun _ v _ => ?_
      exact resRaises_andThen (ih v) fun _ _ _ => trivial

/-! ## When the pieces run to their end -/

theorem putBit_early (b : Bool) {s : State} (h : s.wcnt.toNat < 7) :
    putBit b s = .done () { s with wacc := accWithBit b s, wcnt := s.wcnt + 1, wpos := s.wpos + 1 } := by
  simp [putBit, h]

theorem putBit_eighth (b : Bool) {s : State} (h : ¬ s.wcnt.toNat < 7) (ha : nextAnswer s.snkAnswers = .ok) :
    putBit b s = .done () { s with
      wacc := 0#8, wcnt := 0#3, snk := s.snk ++ [accWithBit b s], snkAnswers := s.snkAnswers.tail,
      wpos := s.wpos + 1 } := by
  simp [putBit, h, snkWrite, ha]

/-- With an accepting sink `PutBit` runs to its end, and the sink goes on accepting. -/
theorem putBit_accepted (b : Bool) {s : State} (h : SinkAccepts s) :
    ∃ t, putBit b s = .done () t ∧ SinkAccepts t ∧ t.wpos = s.wpos + 1 := by
  by_cases hk : s.wcnt.toNat < 7
  · exact ⟨_, putBit_early b hk, h, rfl⟩
  · exact ⟨_, putBit_eighth b hk (nextAnswer_of_all_ok h), fun a ha => h a (List.mem_of_mem_tail ha), rfl⟩

/-- With an accepting sink any bit string can be put. -/
theorem putBits_accepted (bits : Bits) {s : State} (h : SinkAccepts s) :
    ∃ t, putBits bits s = .done () t ∧ SinkAccepts t ∧ t.wpos = s.wpos + bits.length := by
  induction bits generalizing s with
  | nil => exact ⟨s, rfl, h, rfl⟩
  | cons b rest ih =>
    obtain ⟨t, ht, hst, hw⟩ := putBit_accepted b h
    obtain ⟨u, hu, hsu, hwu⟩ := ih hst
    exact ⟨u, by simp [putBits, ht, hu], hsu, by simp [hwu, hw]; omega⟩

/-- Putting a concatenation is putting its parts in order. -/
theorem putBits_append (a b : Bits) (s : State) :
    putBits (a ++ b) s = andThen (putBits a s) fun _ t => putBits b t := by
  induction a generalizing s with
  | nil => rfl
  | cons x rest ih =>
    simp only [List.cons_append, putBits, andThen_assoc]
    congr 1
    funext _ t
    exact ih t

/-- `putBits` that ran to its end has packed its bits after the `p` pending ones (40_bitwriter.md R84, from any position). -/
theorem putBits_done (bits : Bits) (p : Bits) {s t : State} (hp : p.length < 8) (hc : s.wcnt.toNat = p.length)
    (ha : s.wacc = packByte p 0) (h : putBits bits s = .done () t) :
    t.snk = s.snk ++ (pack (p ++ bits)).take ((p ++ bits).length / 8) ∧
      t.wcnt.toNat = (p ++ bits).length % 8 ∧
      t.wacc = (pack (p ++ bits)).getD ((p ++ bits).length / 8) 0#8 ∧
      t.snkAnswers = s.snkAnswers.drop ((p ++ bits).length / 8) ∧ t.wpos = s.wpos + bits.length := by
  induction bits generalizing p s with
  | nil =>
    cases h
    refine ⟨?_, ?_, ?_, ?_, rfl⟩
    · simp [show p.length / 8 = 0 by omega]
    · simp [hc, Nat.mod_eq_of_lt hp]
    · simp only [List.append_nil, show p.length / 8 = 0 by omega, ha]
      cases p with
      | nil => simp
      | cons x rest => rw [pack_short (by simp) hp]; rfl
    · simp [show p.length / 8 = 0 by omega]
  | cons b rest ih =>
    have hl : p ++ b :: rest = (p ++ [b]) ++ rest := by simp
    have hacc : accWithBit b s = packByte (p ++ [b]) 0 := by rw [accWithBit, ha, hc, packByte_append_bit p b hp]
    obtain ⟨⟨⟩, s1, h1, h2⟩ := andThen_eq_done.mp h
    by_cases hk : p.length < 7
    · rw [putBit_early b (show s.wcnt.toNat < 7 by omega)] at h1
      injection h1 with _ h1
      subst h1
      obtain ⟨g1, g2, g3, g4, g5⟩ := ih (p ++ [b])
        (s := { s with wacc := accWithBit b s, wcnt := s.wcnt + 1, wpos := s.wpos + 1 })
        (by simp; omega) (by simp [BitVec.toNat_add, hc]; omega) hacc h2
      exact ⟨hl ▸ g1, hl ▸ g2, hl ▸ g3, hl ▸ g4, by rw [g5]; simp; omega⟩
    · have h8 : (p ++ [b]).length = 8 := by simp; omega
      have hsnk : accWithBit b s = val8 (p ++ [b]) := by
        rw [hacc]; simpa using packByte_zero h8 []
      have hd : ((p ++ [b]) ++ rest).length / 8 = rest.length / 8 + 1 := by rw [List.length_append, h8]; omega
      have hm : ((p ++ [b]) ++ rest).length % 8 = rest.length % 8 := by rw [List.length_append, h8]; omega
      have hna : nextAnswer s.snkAnswers = .ok := by
        obtain ⟨e, _⟩ | ⟨e, _, e2⟩ | ⟨_, e2⟩ := snkWrite_cases (accWithBit b s) s
        · exact e
        · simp [putBit, show ¬ s.wcnt.toNat < 7 by omega, e2] at h1
        · simp [putBit, show ¬ s.wcnt.toNat < 7 by omega, e2] at h1
      rw [putBit_eighth b (show ¬ s.wcnt.toNat < 7 by omega) hna] at h1
      injection h1 with _ h1
      subst h1
      obtain ⟨g1, g2, g3, g4, g5⟩ := ih []
        (s := { s with wacc := 0#8, wcnt := 0#3, snk := s.snk ++ [accWithBit b s],
                       snkAnswers := s.snkAnswers.tail, wpos := s.wpos + 1 })
        (by simp) rfl (by simp) h2
      refine ⟨?_, ?_, ?_, ?_, by rw [g5]; simp; omega⟩
      · rw [hl, pack_append_eight h8, hd, g1]; simp [hsnk]
      · rw [hl, hm, g2]; simp
      · rw [hl, pack_append_eight h8, hd, g3]; simp
      · rw [hl, hd, g4]; simp

/-- With an accepting sink the bits of a string can be put, with what `putBits_done` says of it. -/
theorem putBits_pending (bits : Bits) (p : Bits) {s : State} (hp : p.length < 8) (hc : s.wcnt.toNat = p.length)
    (ha : s.wacc = packByte p 0) (h : SinkAccepts s) :
    ∃ t, putBits bits s = .done () t ∧
      t.snk = s.snk ++ (pack (p ++ bits)).take ((p ++ bits).length / 8) ∧
      t.wcnt.toNat = (p ++ bits).length % 8 ∧
      t.wacc = (pack (p ++ bits)).getD ((p ++ bits).length / 8) 0#8 ∧
      t.snkAnswers = s.snkAnswers.drop ((p ++ bits).length / 8) ∧ SinkAccepts t ∧ OnlyWriter s t := by
  obtain ⟨t, h1, h2, _⟩ := putBits_accepted bits h
  obtain ⟨g1, g2, g3, g4, _⟩ := putBits_done bits p hp hc ha h1
  have ho := putBits_onlyWriter bits s
  rw [h1] at ho
  exact ⟨t, h1, g1, g2, g3, g4, h2, ho⟩

/-! ## What BR delivers -/

/-- The bits BR would deliver begin with the held byte's, then the source's (41_bitreader.md R93). -/
theorem streamBits_nil_held {s : State} (h : s.rcnt = 0#4) : streamBits s = unpack (s.src.drop s.spos) := by
  simp [streamBits, h]

/-- `GetBit` that ran to its end has returned the next bit of the stream. -/
theorem getBit_done {s t : State} {b : Bool} (hc : s.rcnt.toNat ≤ 8) (h : getBit s = .done b t) :
    streamBits s = b :: streamBits t ∧ t.rcnt.toNat ≤ 7 ∧
      t.spos = s.spos + (if s.rcnt = 0#4 then 1 else 0) ∧ t.rpos = s.rpos + 1 := by
  by_cases h0 : s.rcnt = 0#4
  · rw [getBit, if_pos h0] at h
    obtain ⟨v, _, hv, e⟩ | ⟨_, er, e⟩ | ⟨_, e⟩ := srcRead_cases s
    · simp only [e, andThen_done, takeBit] at h
      injection h with h1 h2
      subst h1 h2
      obtain ⟨hlt, hval⟩ := List.getElem?_eq_some_iff.mp hv
      refine ⟨?_, by simp, by simp [h0], rfl⟩
      rw [streamBits_nil_held h0, List.drop_eq_getElem_cons hlt, hval]
      simp only [streamBits, unpack_cons, show (8#4 - 1).toNat = 7 from rfl]
      have := take_bits8_shiftLeft_one v (n := 7) (by omega)
      rw [List.take_of_length_le (by simp)] at this
      rw [this]; rfl
    · simp [e] at h
    · simp [e] at h
  · rw [getBit, if_neg h0, takeBit] at h
    injection h with h1 h2
    subst h1 h2
    have hn : s.rcnt.toNat ≠ 0 := fun e => h0 (BitVec.eq_of_toNat_eq e)
    have hs : (s.rcnt - 1).toNat = s.rcnt.toNat - 1 := by
      simp [BitVec.toNat_sub]; omega
    refine ⟨?_, by simp only [hs]; omega, by simp [h0], rfl⟩
    simp only [streamBits, hs]
    have := take_bits8_shiftLeft_one s.rbyte (n := s.rcnt.toNat - 1) (by omega)
    rw [show s.rcnt.toNat - 1 + 1 = s.rcnt.toNat by omega] at this
    rw [this]; rfl

/-- `GetBit` delivers the next bit of the stream, when there is one and the source delivers. -/
theorem getBit_delivers {s : State} {b : Bool} {rest : Bits} (hd : SourceDelivers s) (hc : s.rcnt.toNat ≤ 8)
    (hs : streamBits s = b :: rest) :
    ∃ t, getBit s = .done b t ∧ streamBits t = rest ∧ SourceDelivers t ∧ t.rcnt.toNat ≤ 8 ∧ t.rpos = s.rpos + 1 ∧
      OnlyReader s t := by
  by_cases h0 : s.rcnt = 0#4
  · rw [streamBits_nil_held h0] at hs
    have hlt : s.spos < s.src.length := by
      by_contra hcon
      rw [List.drop_eq_nil_of_le (by omega)] at hs
      simp at hs
    rw [List.drop_eq_getElem_cons hlt, unpack_cons,
      show bits8 s.src[s.spos] = s.src[s.spos].getLsbD 7 :: (bits8 s.src[s.spos]).tail from rfl, List.cons_append] at hs
    obtain ⟨hb, hr⟩ := List.cons.inj hs
    have hsrc : srcRead s = .done s.src[s.spos] { s with spos := s.spos + 1, srcAnswers := s.srcAnswers.tail } := by
      simp [srcRead, nextAnswer_of_all_ok hd, List.getElem?_eq_getElem hlt]
    refine ⟨{ s with rbyte := s.src[s.spos] <<< 1, rcnt := 7#4, spos := s.spos + 1, srcAnswers := s.srcAnswers.tail,
                     rpos := s.rpos + 1 }, ?_, ?_, fun a ha => hd a (List.mem_of_mem_tail ha), by simp, rfl, rfl⟩
    · simp only [getBit, h0, if_true, hsrc, andThen_done, takeBit]
      rw [hb]
      rfl
    · simp only [streamBits, ← hr, BitVec.toNat_ofNat]
      rw [bits8_shiftLeft_one]
      rfl
  · have hpos : 0 < s.rcnt.toNat := Nat.pos_of_ne_zero fun h => h0 (BitVec.eq_of_toNat_eq (by simpa using h))
    obtain ⟨k, hk⟩ : ∃ k, s.rcnt.toNat = k + 1 := ⟨s.rcnt.toNat - 1, by omega⟩
    have hs' := hs
    rw [streamBits, hk, take_bits8_shiftLeft_one _ (by omega), List.cons_append] at hs'
    obtain ⟨hb, hr⟩ := List.cons.inj hs'
    have hk' : (s.rcnt - 1#4).toNat = k := by
      rw [BitVec.toNat_sub_of_le (by simp [BitVec.le_def]; omega)]; simp [hk]
    refine ⟨{ s with rbyte := s.rbyte <<< 1, rcnt := s.rcnt - 1, rpos := s.rpos + 1 }, ?_, ?_, hd, ?_, rfl, rfl⟩
    · simp only [getBit, h0, if_false, takeBit, hb]
    · rw [← hr, streamBits]
      exact congrArg (fun n => List.take n (bits8 (s.rbyte <<< 1)) ++ unpack (List.drop s.spos s.src)) hk'
    · show (s.rcnt - 1#4).toNat ≤ 8
      omega

/-- `GetBit` on an exhausted stream raises SourceError with `E_EOS`, `RBYTE`, `RCNT` and `SPOS` untouched. -/
theorem getBit_exhausted {s : State} (hd : SourceDelivers s) (hs : streamBits s = []) :
    ∃ t, getBit s = .raised (.sourceError Config.eEos) t ∧ t.rcnt = 0#4 ∧ t.src.length ≤ t.spos := by
  have h0 : s.rcnt = 0#4 := by
    apply BitVec.eq_of_toNat_eq
    have := congrArg List.length hs
    simp [streamBits] at this
    simp; omega
  have hle : s.src.length ≤ s.spos := by
    rw [streamBits_nil_held h0] at hs
    have := congrArg List.length hs
    simp at this
    omega
  exact ⟨{ s with srcAnswers := s.srcAnswers.tail },
    by simp [getBit, h0, srcRead, nextAnswer_of_all_ok hd, List.getElem?_eq_none hle], h0, hle⟩

/-- Reading `n` bits delivers the stream's first `n`. -/
theorem getBits_delivers (bits rest : Bits) {s : State} (hd : SourceDelivers s) (hc : s.rcnt.toNat ≤ 8)
    (hs : streamBits s = bits ++ rest) :
    ∃ t, getBits bits.length s = .done bits t ∧ streamBits t = rest ∧ SourceDelivers t ∧ t.rcnt.toNat ≤ 8 ∧
      t.rpos = s.rpos + bits.length ∧ OnlyReader s t := by
  induction bits generalizing s with
  | nil => exact ⟨s, rfl, hs, hd, hc, rfl, OnlyReader.refl s⟩
  | cons b more ih =>
    obtain ⟨t, h1, h2, h3, h4, h5, h6⟩ := getBit_delivers hd hc hs
    obtain ⟨u, g1, g2, g3, g4, g5, g6⟩ := ih h3 h4 h2
    exact ⟨u, by simp [getBits, h1, g1], g2, g3, g4, by simp [g5, h5]; omega, h6.trans g6⟩

/-- Reading bits into a byte shifts the stream's bits in. -/
theorem getBitsInto_delivers (bits rest : Bits) (acc : BitVec 8) {s : State} (hd : SourceDelivers s)
    (hc : s.rcnt.toNat ≤ 8) (hs : streamBits s = bits ++ rest) :
    ∃ t, getBitsInto bits.length acc s = .done (bits.foldl shiftIn acc) t ∧ streamBits t = rest ∧ SourceDelivers t ∧
      t.rcnt.toNat ≤ 8 ∧ t.rpos = s.rpos + bits.length ∧ OnlyReader s t := by
  induction bits generalizing s acc with
  | nil => exact ⟨s, rfl, hs, hd, hc, rfl, OnlyReader.refl s⟩
  | cons b more ih =>
    obtain ⟨t, h1, h2, h3, h4, h5, h6⟩ := getBit_delivers hd hc hs
    obtain ⟨u, g1, g2, g3, g4, g5, g6⟩ := ih (shiftIn acc b) h3 h4 h2
    exact ⟨u, by simp [getBitsInto, h1, g1], g2, g3, g4, by simp [g5, h5]; omega, h6.trans g6⟩

/-- Reading bits into a byte, when they run out: SourceError with `E_EOS`, every byte of the source consumed. -/
theorem getBitsInto_exhausted (n : Nat) (acc : BitVec 8) {s : State} (hd : SourceDelivers s) (hc : s.rcnt.toNat ≤ 8)
    (hs : (streamBits s).length < n) :
    ∃ t, getBitsInto n acc s = .raised (.sourceError Config.eEos) t ∧ t.rcnt = 0#4 ∧ t.src.length ≤ t.spos := by
  induction n generalizing s acc with
  | zero => omega
  | succ k ih =>
    cases hb : streamBits s with
    | nil =>
      obtain ⟨t, h1, h2, h3⟩ := getBit_exhausted hd hb
      exact ⟨t, by simp [getBitsInto, h1], h2, h3⟩
    | cons b rest =>
      obtain ⟨t, h1, h2, h3, h4, _, _⟩ := getBit_delivers hd hc hb
      obtain ⟨u, g1, g2, g3⟩ := ih (shiftIn acc b) h3 h4 (by rw [h2]; simp [hb] at hs; omega)
      exact ⟨u, by simp [getBitsInto, h1, g1], g2, g3⟩

end Sys2Proof.Machine
end

