-- ==== Sys2Proof/Laws/Host.lean ====
section
/-! SUPPORT. The laws of the host reference's shared operations: how runs are joined, how expansions are, which
entries a CodeTable keeps, and how the bits that TDES has read and the paths through TMEM are extended. -/

namespace Sys2Proof.Machine

/-! ## Joining runs -/

@[simp] theorem mapRun_value {α β : Type} (f : α → β) (t : State) (a : α) :
    mapRun f (.next (t, .value a)) = .next (t, .value (f a)) := rfl

@[simp] theorem mapRun_commandFault {α β : Type} (f : α → β) (t : State) (code : StatusCode) (info : BitVec 32) :
    mapRun f (.next (t, .commandFault code info)) = .next (t, .commandFault code info) := rfl

@[simp] theorem mapRun_fault {α β : Type} (f : α → β) (e : Fault) : mapRun f (.fault e : ExpansionRun α) = .fault e := rfl

@[simp] theorem mapRun_refused {α β : Type} (f : α → β) (e : Refusal) :
    mapRun f (.refused e : ExpansionRun α) = .refused e := rfl

theorem mapRun_mapRun {α β γ : Type} (g : β → γ) (f : α → β) (r : ExpansionRun α) :
    mapRun g (mapRun f r) = mapRun (fun a => g (f a)) r := by
  rcases r with ⟨u, _ | _⟩ | _ | _ <;> rfl

theorem mapRun_id {α : Type} (r : ExpansionRun α) : mapRun (fun a => a) r = r := by
  rcases r with ⟨u, _ | _⟩ | _ | _ <;> rfl

/-- A mapped run has a value exactly when the run has one. -/
theorem mapRun_eq_value {α β : Type} {f : α → β} {r : ExpansionRun α} {t : State} {b : β} :
    mapRun f r = .next (t, .value b) ↔ ∃ a, r = .next (t, .value a) ∧ f a = b := by
  constructor
  · intro h
    unfold mapRun at h
    split at h <;> simp_all
  · rintro ⟨a, rfl, rfl⟩; rfl

@[simp] theorem afterFinished_finished (t : State) (out : List Byte) (k : State → PipelineRun) :
    afterFinished (.next (t, .finished out)) k = k t := rfl

@[simp] theorem afterFinished_failed (t : State) (out : List Byte) (why : PipelineFailure) (k : State → PipelineRun) :
    afterFinished (.next (t, .failed out why)) k = .next (t, .failed out why) := rfl

@[simp] theorem outputOf_finished (out : List Byte) : outputOf (.finished out) = out := rfl

@[simp] theorem outputOf_failed (out : List Byte) (why : PipelineFailure) : outputOf (.failed out why) = out := rfl

/-- An output that accepts takes all the bytes, and still accepts. -/
theorem writeOutput_accepted (bytes : List Byte) {out : OutputSink} (s : State) (k : OutputSink → PipelineRun)
    (h : OutputAccepts out.answers) :
    ∃ more, writeOutput bytes out s k = k ⟨out.written ++ bytes, more⟩ ∧ OutputAccepts more := by
  induction bytes generalizing out with
  | nil => exact ⟨out.answers, by simp [writeOutput], h⟩
  | cons v rest ih =>
    have ha : nextAnswer out.answers = .ok := nextAnswer_of_all_ok h
    obtain ⟨more, e, hm⟩ := ih (out := ⟨out.written ++ [v], out.answers.tail⟩)
      (fun a ha => h a (List.mem_of_mem_tail ha))
    exact ⟨more, by rw [writeOutput, ha]; simp [e], hm⟩

/-- An output that refuses: all the bytes before the refused one are written, and its value is why the run ends. -/
theorem writeOutput_refused (before after : List Byte) (v : Byte) (e : BitVec 32) (written : List Byte)
    (rest : List Answer) (s : State) (k : OutputSink → PipelineRun) :
    writeOutput (before ++ v :: after) ⟨written, List.replicate before.length .ok ++ .fail e :: rest⟩ s k
      = .next (s, .failed (written ++ before) (.outputError e)) := by
  induction before generalizing written with
  | nil => simp [writeOutput, nextAnswer]
  | cons b more ih => simp [writeOutput, nextAnswer, List.replicate_succ, ih]

/-- A joined run finishes exactly when its first part finishes and its second does from there. -/
theorem afterFinished_eq_finished {r : PipelineRun} {k : State → PipelineRun} {u : State} {out : List Byte} :
    afterFinished r k = .next (u, .finished out) ↔
      ∃ t first, r = .next (t, .finished first) ∧ k t = .next (u, .finished out) := by
  constructor
  · intro h
    unfold afterFinished at h
    split at h <;> simp_all
  · rintro ⟨t, first, rfl, h⟩; exact h

/-! ## Expansions -/

@[simp] theorem runExpansion_nil (s : State) : runExpansion [] s = .next (s, .value []) := rfl

/-- The first command of an expansion that completes `OK`. -/
theorem runExpansion_cons_ok {i : Instr} {rest : List Instr} {s t : State} (h : exec i s = .next t) (hok : t.code = .ok) :
    runExpansion (i :: rest) s = mapRun (fun vs => t.value :: vs) (runExpansion rest t) := by
  simp [runExpansion, h, hok]

/-- The first command of an expansion that completes with a fault. -/
theorem runExpansion_cons_fault {i : Instr} {rest : List Instr} {s t : State} (h : exec i s = .next t)
    (hf : t.code ≠ .ok) : runExpansion (i :: rest) s = .next (t, .commandFault t.code t.errinfo) := by
  simp [runExpansion, h, hf]

/-- Two expansions one after the other: their values are joined. -/
theorem runExpansion_append {a b : List Instr} {s t : State} {vs : Bits}
    (h : runExpansion a s = .next (t, .value vs)) :
    runExpansion (a ++ b) s = mapRun (fun ws => vs ++ ws) (runExpansion b t) := by
  induction a generalizing s vs with
  | nil =>
    cases h
    exact (mapRun_id _).symm
  | cons i rest ih =>
    rw [runExpansion] at h
    split at h
    · split at h
      · obtain ⟨ws, hr, rfl⟩ := mapRun_eq_value.1 h
        rw [List.cons_append, runExpansion_cons_ok ‹_› ‹_›, ih hr, mapRun_mapRun]
        rfl
      · cases h
    · cases h
    · cases h

/-! ## One entry for each symbol -/

/-- The entries kept are some of the records, in their order. -/
theorem oneEntryPerSymbol_sublist (records : List (BitVec 8 × Bits)) : (oneEntryPerSymbol records).Sublist records := by
  induction records with
  | nil => exact List.Sublist.slnil
  | cons e rest ih => exact List.Sublist.cons_cons e (List.filter_sublist.trans ih)

/-- A symbol has an entry exactly where it has a record. -/
theorem mem_oneEntryPerSymbol (records : List (BitVec 8 × Bits)) (sym : BitVec 8) :
    sym ∈ (oneEntryPerSymbol records).map Prod.fst ↔ sym ∈ records.map Prod.fst := by
  induction records with
  | nil => rfl
  | cons e rest ih =>
    simp only [oneEntryPerSymbol, List.map_cons, List.mem_cons, ← ih, List.mem_map, List.mem_filter, bne_iff_ne]
    constructor
    · rintro (rfl | ⟨x, ⟨hx, -⟩, rfl⟩)
      · exact .inl rfl
      · exact .inr ⟨x, hx, rfl⟩
    · rintro (rfl | ⟨x, hx, rfl⟩)
      · exact .inl rfl
      · by_cases h : x.1 = e.1
        · exact .inl h
        · exact .inr ⟨x, ⟨hx, h⟩, rfl⟩

/-- No symbol has two entries. -/
theorem oneEntryPerSymbol_nodup (records : List (BitVec 8 × Bits)) : ((oneEntryPerSymbol records).map Prod.fst).Nodup := by
  induction records with
  | nil => exact List.nodup_nil
  | cons e rest ih =>
    rw [oneEntryPerSymbol, List.map_cons, List.nodup_cons]
    exact ⟨by simp, ih.sublist (List.filter_sublist.map _)⟩

/-- The code looked up is that of the symbol's first record. -/
theorem codeOf_oneEntryPerSymbol (records : List (BitVec 8 × Bits)) (sym : BitVec 8) :
    codeOf (oneEntryPerSymbol records) sym = codeOf records sym := by
  induction records with
  | nil => rfl
  | cons e rest ih =>
    simp only [codeOf, oneEntryPerSymbol, List.find?_cons] at *
    by_cases h : e.1 = sym
    · simp [h]
    · have hb : (e.1 == sym) = false := by simpa using h
      rw [hb, ← ih, List.find?_filter]
      refine congrArg (fun p => (List.find? p (oneEntryPerSymbol rest)).map Prod.snd) (funext fun x => ?_)
      by_cases hx : x.1 = sym
      · simp [hx, Ne.symm h]
      · simp [hx]

/-! ## Tags read, and paths -/

@[simp] theorem tagCountAfter_nil (k : Nat) : tagCountAfter k [] = 0 := by cases k <;> rfl

@[simp] theorem tagCountAfter_succ (k : Nat) (b : Bool) (rest : Bits) :
    tagCountAfter (k + 1) (b :: rest) = tagCountAfter k rest := rfl

@[simp] theorem tagCountAfter_zero (tag : Bool) (rest : Bits) :
    tagCountAfter 0 (tag :: rest) = 1 + tagCountAfter (if tag then 8 else 0) rest := rfl

/-- A path continued: the index along its first part, then along its second from there. -/
theorem indexAlong_append (s : State) (i : Index) (p q : Bits) :
    indexAlong s i (p ++ q) = (indexAlong s i p).bind fun j => indexAlong s j q := by
  induction p generalizing i with
  | nil => rfl
  | cons b rest ih =>
    simp only [List.cons_append, indexAlong]
    split
    · rfl
    · split
      · rfl
      · exact ih _

end Sys2Proof.Machine
end

