-- ==== Sys2Proof/Laws/PerInstr.lean ====
section
/-! SUPPORT. Statements made once per instruction, about the instruction as syntax: its encoding is well formed and decodes
to it (30_encoding.md R62, R64, R65). -/

namespace Sys2Proof.Laws.RoundTrip

/-- The encoding of `i` is well formed and decodes to `i`. -/
def Statement (i : Instr) : Prop := InstrWF i = true ∧ decode (encode i) = some i

theorem wbit (b : Bool) : Statement (.wbit b) := by cases b <;> exact ⟨rfl, rfl⟩

theorem wflush : Statement .wflush := ⟨rfl, rfl⟩

theorem rbit : Statement .rbit := ⟨rfl, rfl⟩

theorem tser : Statement .tser := ⟨rfl, rfl⟩

theorem tdes : Statement .tdes := ⟨rfl, rfl⟩

theorem tok0 : Statement .tok0 := ⟨rfl, rfl⟩

theorem tok1 (sym : BitVec 8) : Statement (.tok1 sym) := by
  refine ⟨rfl, ?_⟩
  simp only [encode, decode, decodeToken]
  rw [if_neg (by simp), List.take_of_length_le (by simp), List.drop_of_length_le (by simp), val8_bits8]

end Sys2Proof.Laws.RoundTrip
end

