-- ==== Sys2Proof/Laws/TreeCodec.lean ====
section
/-! SUPPORT. What TSER and TDES's traversals do, said once: TSER puts the serialisation of the tree it walks, TDES reads the
tree its bits begin with, runs out of entries, or runs out of bits. -/

namespace Sys2Proof.Machine

/-! ## Images -/

theorem entryAddr_lt {i j : Nat} (h : i < j) : entryAddr i + 1 < entryAddr j := by simp [entryAddr]; omega

theorem entryAddr_le {i j : Nat} (h : i ≤ j) : entryAddr i ≤ entryAddr j := by simp [entryAddr]; omega

theorem toNat_ofNat_index {i : Nat} (h : i < 512) : (BitVec.ofNat 9 i).toNat = i := by
  simp [Nat.mod_eq_of_lt h]

theorem index_ne_nil {i : Nat} (h : i < 511) : BitVec.ofNat 9 i ≠ Config.nil := by
  intro e
  have := congrArg BitVec.toNat e
  rw [toNat_ofNat_index (by omega)] at this
  simp [Config.nil] at this
  omega

/-- An image is decided by the words of its own entries. -/
theorem preorderImage_congr (t : Tree) {s u : State} {i : Nat} (hi : i + treeNodes t ≤ 512)
    (h : ∀ a, entryAddr i ≤ a → a < entryAddr (i + treeNodes t) → tmemRead u a = tmemRead s a) :
    PreorderImage u t i = PreorderImage s t i := by
  induction t generalizing i with
  | leaf sym f =>
    simp only [treeNodes] at *
    have e := toNat_ofNat_index (i := i) (by omega)
    simp only [PreorderImage, entryWord0, entryWord1, e]
    rw [h (entryAddr i) (by omega) (by have := entryAddr_lt (i := i) (j := i + 1) (by omega); omega),
      h (entryAddr i + 1) (by omega) (entryAddr_lt (by omega))]
  | internal f l r ihl ihr =>
    simp only [treeNodes] at *
    have e := toNat_ofNat_index (i := i) (by omega)
    simp only [PreorderImage, entryWord0, entryWord1, e]
    rw [h (entryAddr i) (by omega)
        (by have := entryAddr_lt (i := i) (j := i + (1 + treeNodes l + treeNodes r)) (by omega); omega),
      h (entryAddr i + 1) (by omega) (entryAddr_lt (by omega)),
      ihl (i := i + 1) (by omega) fun a h1 h2 =>
        h a (Nat.le_trans (entryAddr_le (by omega)) h1) (Nat.lt_of_lt_of_le h2 (entryAddr_le (by omega))),
      ihr (i := i + 1 + treeNodes l) (by omega) fun a h1 h2 =>
        h a (Nat.le_trans (entryAddr_le (by omega)) h1) (Nat.lt_of_lt_of_le h2 (entryAddr_le (by omega)))]

/-- The frequency word of an image's root is its number of leaves. -/
theorem preorderImage_freq {t : Tree} {s : State} {i : Nat} (h : PreorderImage s t i = true) :
    entryFreq s (BitVec.ofNat 9 i) = BitVec.ofNat 32 (treeLeaves t) := by
  cases t with
  | leaf sym f =>
    simp only [PreorderImage, Bool.and_eq_true, beq_iff_eq] at h
    exact h.2
  | internal f l r =>
    simp only [PreorderImage, Bool.and_eq_true, beq_iff_eq] at h
    exact h.1.1.2

/-- An image of a tree holds that tree, with placeholder frequencies (42_treecodec.md R107, R110). -/
theorem holdsAt_of_preorderImage (t : Tree) {s : State} {i : Nat} (hi : i + treeNodes t ≤ 511)
    (h : PreorderImage s t i = true) : HoldsAt s (treePlaceholder t) (BitVec.ofNat 9 i) = true := by
  have hf := preorderImage_freq h
  induction t generalizing i with
  | leaf sym f =>
    simp only [treeNodes] at hi
    simp only [PreorderImage, Bool.and_eq_true, beq_iff_eq] at h
    have hn := index_ne_nil (i := i) (by omega)
    have h1 : entryTag s (BitVec.ofNat 9 i) = true := by rw [entryTag, h.1, packWord0_tag]
    have h2 : entrySym s (BitVec.ofNat 9 i) = sym := by rw [entrySym, h.1, packWord0_sym]
    simp [HoldsAt, treePlaceholder, hn, h1, h2, hf, treeLeaves]
  | internal f l r ihl ihr =>
    simp only [treeNodes] at hi
    simp only [PreorderImage, Bool.and_eq_true, beq_iff_eq] at h
    obtain ⟨⟨⟨h0, h1⟩, hl⟩, hr⟩ := h
    have hn := index_ne_nil (i := i) (by omega)
    have e1 : entryTag s (BitVec.ofNat 9 i) = false := by rw [entryTag, h0, packWord0_tag]
    have e2 : entryLeft s (BitVec.ofNat 9 i) = BitVec.ofNat 9 (i + 1) := by rw [entryLeft, h0, packWord0_left]
    have e3 : entryRight s (BitVec.ofNat 9 i) = BitVec.ofNat 9 (i + 1 + treeNodes l) := by
      rw [entryRight, h0, packWord0_right]
    have gl := ihl (by omega) hl (preorderImage_freq hl)
    have gr := ihr (by omega) hr (preorderImage_freq hr)
    have n1 := treeNodes_add_one l
    have n2 := treeNodes_add_one r
    have hfr : (entryFreq s (BitVec.ofNat 9 i)).toNat = treeLeaves l + treeLeaves r := by
      rw [hf, treeLeaves, BitVec.toNat_ofNat, Nat.mod_eq_of_lt (by omega)]
    simp [HoldsAt, treePlaceholder, hn, e1, e2, e3, gl, gr, hfr]

/-! ## TSER -/

/-- What a tree the memory holds reads as does not depend on BW. -/
theorem holdsAt_onlyWriter (t : Tree) {s u : State} {i : Index} (o : OnlyWriter s u) : HoldsAt u t i = HoldsAt s t i := by
  have hread := o.sameTree.reads
  induction t generalizing i with
  | leaf => simp only [HoldsAt, entryTag, entrySym, entryFreq, entryWord0, entryWord1, hread]
  | internal f l r ihl ihr =>
    simp only [HoldsAt, entryTag, entryLeft, entryRight, entryFreq, entryWord0, entryWord1, hread, ihl, ihr]

/-- On a memory that holds a tree TSER's traversal is `putBits` of its serialisation, however the sink answers. -/
theorem serNode_eq_putBits (t : Tree) {s : State} {i : Index} {visits n : Nat} (h : HoldsAt s t i = true)
    (hn : treeNodes t ≤ n) (hv : visits + treeNodes t ≤ Config.nodeCap) :
    serNode n i visits s = andThen (putBits (ser t) s) fun _ u => .done (visits + treeNodes t) u := by
  induction t generalizing s i visits n with
  | leaf sym f =>
    simp only [treeNodes] at *
    obtain ⟨k, rfl⟩ : ∃ k, n = k + 1 := ⟨n - 1, by omega⟩
    simp only [HoldsAt, Bool.and_eq_true, bne_iff_ne, ne_eq, beq_iff_eq] at h
    obtain ⟨⟨⟨h1, h2⟩, h3⟩, _⟩ := h
    have hcap : ¬ Config.nodeCap < visits + 1 := by omega
    simp only [serNode, h1, if_false, hcap, h2, if_true, h3]
    rfl
  | internal f l r ihl ihr =>
    simp only [treeNodes] at *
    obtain ⟨k, rfl⟩ : ∃ k, n = k + 1 := ⟨n - 1, by omega⟩
    simp only [HoldsAt, Bool.and_eq_true, bne_iff_ne, ne_eq, beq_iff_eq, Bool.not_eq_true'] at h
    obtain ⟨⟨⟨⟨h1, h2⟩, _⟩, hl⟩, hr⟩ := h
    have hcap : ¬ Config.nodeCap < visits + 1 := by omega
    rw [show ser (.internal f l r) = internalToken ++ (ser l ++ ser r) from rfl]
    simp only [putBits_append, andThen_assoc, serNode, h1, if_false, hcap, h2, Bool.false_eq_true]
    cases e1 : putBits internalToken s with
    | raised c u => rfl
    | stuck c => rfl
    | done a s1 =>
      have o1 : OnlyWriter s s1 := by have := putBits_onlyWriter internalToken s; rw [e1] at this; exact this
      simp only [andThen_done]
      rw [ihl (by rw [holdsAt_onlyWriter l o1]; exact hl) (by omega) (by omega), andThen_assoc]
      cases e2 : putBits (ser l) s1 with
      | raised c u => rfl
      | stuck c => rfl
      | done a s2 =>
        have o2 : OnlyWriter s1 s2 := by have := putBits_onlyWriter (ser l) s1; rw [e2] at this; exact this
        simp only [andThen_done]
        rw [ihr (by rw [holdsAt_onlyWriter r (o1.trans o2)]; exact hr) (by omega) (by omega)]
        simp only [show visits + 1 + treeNodes l + treeNodes r = visits + (1 + treeNodes l + treeNodes r) by omega]

/-- TSER's traversal over a tree the memory holds whose bits can be put. -/
theorem serNode_holds (t : Tree) {s u : State} {i : Index} {visits n : Nat} (h : HoldsAt s t i = true)
    (hn : treeNodes t ≤ n) (hv : visits + treeNodes t ≤ Config.nodeCap) (hu : putBits (ser t) s = .done () u) :
    serNode n i visits s = .done (visits + treeNodes t) u := by
  rw [serNode_eq_putBits t h hn hv, hu, andThen_done]

/-- A traversal of TSER that ran to its end has visited a tree, within `NODE_CAP` visits. -/
theorem serNode_done {n : Nat} {i : Index} {visits v : Nat} {s u : State} (h : serNode n i visits s = .done v u) :
    ∃ t, HoldsAt s t i = true ∧ v = visits + treeNodes t ∧ v ≤ Config.nodeCap := by
  induction n generalizing i visits v s u with
  | zero => cases h
  | succ n ih =>
    rw [serNode] at h
    split at h
    · cases h
    · rename_i hi
      split at h
      · cases h
      · rename_i hcap
        split at h
        · rename_i ht
          obtain ⟨_, s1, _, h2⟩ := andThen_eq_done.mp h
          injection h2 with h2 _
          exact ⟨.leaf (entrySym s i) (entryFreq s i).toNat, by simp [HoldsAt, hi, ht], by simp [treeNodes, ← h2], by omega⟩
        · rename_i ht
          obtain ⟨_, s1, h1, h⟩ := andThen_eq_done.mp h
          obtain ⟨w, s2, h2, h3⟩ := andThen_eq_done.mp h
          have o1 : OnlyWriter s s1 := by have := putBits_onlyWriter internalToken s; rw [h1] at this; exact this
          have o2 : OnlyWriter s1 s2 := by have := serNode_onlyWriter n (entryLeft s i) (visits + 1) s1; rw [h2] at this; exact this
          obtain ⟨l, g1, g2, _⟩ := ih h2
          obtain ⟨r, g3, g4, g5⟩ := ih h3
          rw [holdsAt_onlyWriter l o1] at g1
          rw [holdsAt_onlyWriter r (o1.trans o2)] at g3
          exact ⟨.internal (entryFreq s i).toNat l r, by simp [HoldsAt, hi, ht, g1, g3], by simp only [treeNodes]; omega, g5⟩

/-! ## TDES -/

/-- `GetBit` and allocation in turn: the first step of every node that TDES reads. -/
theorem allocEntry_free {s : State} (h : s.tnodes.toNat < Config.nodeCap) :
    allocEntry s = .done (s.tnodes.setWidth 9) (claimEntry s) := by
  have : ¬ Config.nodeCap ≤ s.tnodes.toNat := by omega
  simp [allocEntry, this]

theorem allocEntry_full {s : State} (h : Config.nodeCap ≤ s.tnodes.toNat) : allocEntry s = .raised .treeCapacity s := by
  simp [allocEntry, h]

theorem tnodes_add_one {s : State} (h : s.tnodes.toNat < Config.nodeCap) : (s.tnodes + 1).toNat = s.tnodes.toNat + 1 := by
  simp only [Config.nodeCap] at h
  simp [BitVec.toNat_add]
  omega

theorem tnodes_index (s : State) :
    s.tnodes.setWidth 9 = BitVec.ofNat 9 s.tnodes.toNat := by
  apply BitVec.eq_of_toNat_eq
  simp

/-- What reading one whole tree leaves behind. -/
structure ReadsTree (t : Tree) (rest : Bits) (s u : State) : Prop where
  tnodes : u.tnodes.toNat = s.tnodes.toNat + treeNodes t
  image : PreorderImage u t s.tnodes.toNat = true
  below : ∀ a, a < entryAddr s.tnodes.toNat → tmemRead u a = tmemRead s a
  above : ∀ a, entryAddr u.tnodes.toNat ≤ a → tmemRead u a = tmemRead s a
  stream : streamBits u = rest
  delivers : SourceDelivers u
  rcnt : u.rcnt.toNat ≤ 8
  rpos : u.rpos = s.rpos + (ser t).length
  only : OnlyTdes s u

/-- Writing the Leaf entry a token has allocated. -/
theorem writeLeaf_image (sym : BitVec 8) {s : State} {i : Nat} :
    PreorderImage (writeLeaf (BitVec.ofNat 9 i) sym s) (.leaf sym 1) i = true := by
  simp [PreorderImage, writeLeaf, Config.placeholderFreq]

theorem tmemRead_writeLeaf_other (sym : BitVec 8) {s : State} {i a : Nat} (hi : i < 511)
    (h : a < entryAddr i ∨ entryAddr (i + 1) ≤ a) : tmemRead (writeLeaf (BitVec.ofNat 9 i) sym s) a = tmemRead s a := by
  have e := toNat_ofNat_index (i := i) (by omega)
  have := entryAddr_lt (i := i) (j := i + 1) (by omega)
  apply tmemRead_entryWrite_other <;> rw [e] <;> omega

theorem tmemRead_writeInternal_other (l r : Index) {s : State} {i a : Nat} (hi : i < 511)
    (h : a < entryAddr i ∨ entryAddr (i + 1) ≤ a) :
    tmemRead (writeInternal (BitVec.ofNat 9 i) l r s) a = tmemRead s a := by
  have e := toNat_ofNat_index (i := i) (by omega)
  have := entryAddr_lt (i := i) (j := i + 1) (by omega)
  apply tmemRead_entryWrite_other <;> rw [e] <;> omega

/-- Joining two images that lie one after the other. -/
theorem writeInternal_image (f : Nat) {l r : Tree} {s : State} {i : Nat} (hi : i + 1 + treeNodes l + treeNodes r ≤ 511)
    (hl : PreorderImage s l (i + 1) = true) (hr : PreorderImage s r (i + 1 + treeNodes l) = true) :
    PreorderImage (writeInternal (BitVec.ofNat 9 i) (BitVec.ofNat 9 (i + 1)) (BitVec.ofNat 9 (i + 1 + treeNodes l)) s)
      (.internal f l r) i = true := by
  have pl := treeNodes_pos l
  have pr := treeNodes_pos r
  have keep : ∀ a, entryAddr (i + 1) ≤ a →
      tmemRead (writeInternal (BitVec.ofNat 9 i) (BitVec.ofNat 9 (i + 1)) (BitVec.ofNat 9 (i + 1 + treeNodes l)) s) a
        = tmemRead s a := fun a ha => tmemRead_writeInternal_other _ _ (by omega) (Or.inr ha)
  have gl := preorderImage_congr l (s := s) (i := i + 1) (by omega) fun a h1 _ => keep a h1
  have gr := preorderImage_congr r (s := s) (i := i + 1 + treeNodes l) (by omega) fun a h1 _ =>
    keep a (Nat.le_trans (entryAddr_le (by omega)) h1)
  have fl := preorderImage_freq hl
  have fr := preorderImage_freq hr
  simp only [PreorderImage, gl, gr, hl, hr, Bool.and_true, Bool.and_eq_true, beq_iff_eq]
  refine ⟨by rw [writeInternal, entryWord0_entryWrite_same], ?_⟩
  rw [writeInternal, entryWord1_entryWrite_same, fl, fr, ← BitVec.ofNat_add]

/-- Two subtrees read one after the other, joined by an Internal entry allocated before them (42_treecodec.md R107). -/
theorem readsTree_join (f : Nat) {l r : Tree} {rest1 rest : Bits} {s s1 s2 s3 : State}
    (hcap : s.tnodes.toNat + treeNodes (.internal f l r) ≤ Config.nodeCap) (h1 : s1 = claimEntry s)
    (hl : ReadsTree l rest1 s1 s2) (hr : ReadsTree r rest s2 s3) :
    let u := writeInternal (s.tnodes.setWidth 9) (s1.tnodes.setWidth 9) (s2.tnodes.setWidth 9) s3
    u.tnodes.toNat = s.tnodes.toNat + treeNodes (.internal f l r) ∧
      PreorderImage u (.internal f l r) s.tnodes.toNat = true ∧
      (∀ a, a < entryAddr s.tnodes.toNat → tmemRead u a = tmemRead s a) ∧
      (∀ a, entryAddr u.tnodes.toNat ≤ a → tmemRead u a = tmemRead s a) ∧
      streamBits u = rest ∧ SourceDelivers u ∧ u.rcnt.toNat ≤ 8 ∧
      u.rpos = s.rpos + (ser l).length + (ser r).length ∧ OnlyTdes s u := by
  intro u
  simp only [treeNodes, Config.nodeCap] at hcap
  have pl := treeNodes_pos l
  have pr := treeNodes_pos r
  have lt0 : s.tnodes.toNat < Config.nodeCap := by simp [Config.nodeCap]; omega
  have t1 : s1.tnodes.toNat = s.tnodes.toNat + 1 := by rw [h1]; exact tnodes_add_one lt0
  have t2 := hl.tnodes
  have t3 := hr.tnodes
  have lt1 : s1.tnodes.toNat < Config.nodeCap := by simp [Config.nodeCap]; omega
  have lt2 : s2.tnodes.toNat < Config.nodeCap := by simp [Config.nodeCap]; omega
  have read1 : ∀ a, tmemRead s1 a = tmemRead s a := by intro a; rw [h1]; rfl
  have hu : u = writeInternal (BitVec.ofNat 9 s.tnodes.toNat) (BitVec.ofNat 9 (s.tnodes.toNat + 1))
      (BitVec.ofNat 9 (s.tnodes.toNat + 1 + treeNodes l)) s3 := by
    show writeInternal _ _ _ s3 = _
    rw [tnodes_index s, tnodes_index s1, tnodes_index s2, t2, t1]
  have ut : u.tnodes.toNat = s.tnodes.toNat + treeNodes (.internal f l r) := by
    rw [hu, writeInternal_tnodes, t3, t2, t1]; simp [treeNodes]; omega
  have il : PreorderImage s3 l (s.tnodes.toNat + 1) = true := by
    rw [preorderImage_congr l (s := s2) (by omega) fun a _ h2 => hr.below a (by rw [t2, t1]; exact h2), ← t1]
    exact hl.image
  have ir : PreorderImage s3 r (s.tnodes.toNat + 1 + treeNodes l) = true := by
    rw [← t1, ← t2]; exact hr.image
  refine ⟨ut, ?_, ?_, ?_, hr.stream, hr.delivers, hr.rcnt, ?_, ?_⟩
  · rw [hu]; exact writeInternal_image f (by omega) il ir
  · intro a ha
    have e1 := entryAddr_le (i := s.tnodes.toNat) (j := s1.tnodes.toNat) (by omega)
    have e2 := entryAddr_le (i := s.tnodes.toNat) (j := s2.tnodes.toNat) (by omega)
    rw [hu, tmemRead_writeInternal_other _ _ (by omega) (Or.inl ha), hr.below a (by omega), hl.below a (by omega), read1]
  · intro a ha
    rw [ut, treeNodes] at ha
    have e1 := entryAddr_le (i := s.tnodes.toNat + 1) (j := s.tnodes.toNat + (1 + treeNodes l + treeNodes r)) (by omega)
    have e2 := entryAddr_le (i := s2.tnodes.toNat) (j := s.tnodes.toNat + (1 + treeNodes l + treeNodes r)) (by omega)
    have e3 := entryAddr_le (i := s3.tnodes.toNat) (j := s.tnodes.toNat + (1 + treeNodes l + treeNodes r)) (by omega)
    rw [hu, tmemRead_writeInternal_other _ _ (by omega) (Or.inr (by omega)), hr.above a (by omega),
      hl.above a (by omega), read1]
  · rw [hu, writeInternal_rpos, hr.rpos, hl.rpos, h1, claimEntry_rpos]
  · have o1 : OnlyTdes s s1 := by rw [h1]; rfl
    exact ((o1.trans hl.only).trans hr.only).trans (writeInternal_onlyTdes _ _ _ s3)

/-- TDES reads the tree its bits begin with, when its entries are there (42_treecodec.md R107, R109). -/
theorem desNode_reads (t : Tree) {rest : Bits} {s : State} {n : Nat} (hd : SourceDelivers s) (hc : s.rcnt.toNat ≤ 8)
    (hs : streamBits s = ser t ++ rest) (hn : Config.nodeCap + 1 ≤ n + s.tnodes.toNat)
    (hcap : s.tnodes.toNat + treeNodes t ≤ Config.nodeCap) :
    ∃ u, desNode n s = .done (s.tnodes.setWidth 9) u ∧ ReadsTree t rest s u := by
  induction t generalizing s n rest with
  | leaf sym f =>
    simp only [treeNodes] at hcap
    obtain ⟨k, rfl⟩ : ∃ k, n = k + 1 := ⟨n - 1, by omega⟩
    obtain ⟨s1, g1, g2, g3, g4, g5, g6⟩ := getBit_delivers (b := true) (rest := bits8 sym ++ rest) hd hc (by simpa [ser] using hs)
    have ht1 : s1.tnodes = s.tnodes := g6.sameTree.tnodes
    have lt0 : s.tnodes.toNat < Config.nodeCap := by omega
    have lt1 : s1.tnodes.toNat < Config.nodeCap := by rw [ht1]; exact lt0
    obtain ⟨s2, k1, k2, k3, k4, k5, k6⟩ := getBitsInto_delivers (bits8 sym) rest 0#8
      (s := claimEntry s1) g3 g4 g2
    have hv : (bits8 sym).foldl shiftIn 0#8 = sym := val8_bits8 sym
    have ht2 : s2.tnodes = s.tnodes + 1 := by rw [k6.sameTree.tnodes, claimEntry_tnodes, ht1]
    have read2 : ∀ a, tmemRead s2 a = tmemRead s a := fun a =>
      (k6.sameTree.reads a).trans ((show tmemRead _ a = tmemRead s1 a from rfl).trans (g6.sameTree.reads a))
    rw [bits8_length, hv] at k1
    refine ⟨writeLeaf (s.tnodes.setWidth 9) sym s2, ?_, ?_⟩
    · simp only [desNode, g1, andThen_done, allocEntry_free lt1, if_true, k1]
      rw [ht1]
    · rw [tnodes_index s]
      have hlt : s.tnodes.toNat < 511 := lt0
      refine ⟨?_, writeLeaf_image sym, ?_, ?_, k2, k3, k4, ?_, ?_⟩
      · rw [writeLeaf_tnodes, ht2, tnodes_add_one lt0, treeNodes]
      · intro a ha; rw [tmemRead_writeLeaf_other sym hlt (Or.inl ha), read2]
      · intro a ha
        rw [writeLeaf_tnodes, ht2, tnodes_add_one lt0] at ha
        rw [tmemRead_writeLeaf_other sym hlt (Or.inr ha), read2]
      · rw [writeLeaf_rpos, k5, claimEntry_rpos, g5]
        simp [ser]
      · have o1 : OnlyTdes s1 (claimEntry s1) := rfl
        exact ((g6.onlyTdes.trans o1).trans k6.onlyTdes).trans (writeLeaf_onlyTdes _ _ s2)
  | internal f l r ihl ihr =>
    have pl := treeNodes_pos l
    have pr := treeNodes_pos r
    have hcap' := hcap
    simp only [treeNodes] at hcap
    obtain ⟨k, rfl⟩ : ∃ k, n = k + 1 := ⟨n - 1, by omega⟩
    obtain ⟨s1, g1, g2, g3, g4, g5, g6⟩ :=
      getBit_delivers (b := false) (rest := ser l ++ (ser r ++ rest)) hd hc (by simpa [ser] using hs)
    have ht1 : s1.tnodes = s.tnodes := g6.sameTree.tnodes
    have lt1 : s1.tnodes.toNat < Config.nodeCap := by rw [ht1]; omega
    have htn := tnodes_add_one lt1
    obtain ⟨s3, e3, r3⟩ := ihl (s := claimEntry s1) (n := k) g3 g4 g2
      (by rw [claimEntry_tnodes, htn, ht1]; omega)
      (by rw [claimEntry_tnodes, htn, ht1]; omega)
    have t3 : s3.tnodes.toNat = s.tnodes.toNat + 1 + treeNodes l := by
      rw [r3.tnodes, claimEntry_tnodes, htn, ht1]
    obtain ⟨s4, e4, r4⟩ := ihr (s := s3) (n := k) r3.delivers r3.rcnt r3.stream (by omega) (by omega)
    refine ⟨writeInternal (s1.tnodes.setWidth 9) ((claimEntry s1).tnodes.setWidth 9) (s3.tnodes.setWidth 9) s4, ?_, ?_⟩
    · simp only [desNode, g1, andThen_done, allocEntry_free lt1, Bool.false_eq_true, if_false, e3, e4]
      rw [ht1]
    · obtain ⟨j1, j2, j3, j4, j5, j6, j7, j8, j9⟩ := readsTree_join f (s := s1) (rest := rest)
        (by rw [ht1]; exact hcap') rfl r3 r4
      refine ⟨by rw [j1, ht1], by rw [← ht1]; exact j2, ?_, ?_, j5, j6, j7, ?_, g6.onlyTdes.trans j9⟩
      · intro a ha; rw [← g6.sameTree.reads a]; exact j3 a (by rw [ht1]; exact ha)
      · intro a ha; rw [← g6.sameTree.reads a]; exact j4 a ha
      · rw [j8, g5]; simp [ser]; omega

/-- TDES runs out of entries on a tree of more nodes than are left (42_treecodec.md R111). -/
theorem desNode_full (t : Tree) {rest : Bits} {s : State} {n : Nat} (hd : SourceDelivers s) (hc : s.rcnt.toNat ≤ 8)
    (hs : streamBits s = ser t ++ rest) (hn : Config.nodeCap + 1 ≤ n + s.tnodes.toNat)
    (hle : s.tnodes.toNat ≤ Config.nodeCap) (hcap : Config.nodeCap < s.tnodes.toNat + treeNodes t) :
    ∃ u, desNode n s = .raised .treeCapacity u := by
  induction t generalizing s n rest with
  | leaf sym f =>
    simp only [treeNodes] at hcap
    obtain ⟨k, rfl⟩ : ∃ k, n = k + 1 := ⟨n - 1, by omega⟩
    obtain ⟨s1, g1, _, _, _, _, g6⟩ := getBit_delivers (b := true) (rest := bits8 sym ++ rest) hd hc (by simpa [ser] using hs)
    have ht1 : s1.tnodes = s.tnodes := g6.sameTree.tnodes
    exact ⟨s1, by simp only [desNode, g1, andThen_done, allocEntry_full (s := s1) (by rw [ht1]; omega), andThen_raised]⟩
  | internal f l r ihl ihr =>
    have pl := treeNodes_pos l
    have pr := treeNodes_pos r
    simp only [treeNodes] at hcap
    obtain ⟨k, rfl⟩ : ∃ k, n = k + 1 := ⟨n - 1, by omega⟩
    obtain ⟨s1, g1, g2, g3, g4, g5, g6⟩ :=
      getBit_delivers (b := false) (rest := ser l ++ (ser r ++ rest)) hd hc (by simpa [ser] using hs)
    have ht1 : s1.tnodes = s.tnodes := g6.sameTree.tnodes
    have ht1' := congrArg BitVec.toNat ht1
    by_cases lt1 : s1.tnodes.toNat < Config.nodeCap
    · have htn := tnodes_add_one lt1
      have e2 : (claimEntry s1).tnodes.toNat = s.tnodes.toNat + 1 := by
        rw [← ht1]; exact htn
      by_cases hl : s.tnodes.toNat + 1 + treeNodes l ≤ Config.nodeCap
      · obtain ⟨s3, e3, r3⟩ := desNode_reads l (s := claimEntry s1) (n := k) g3 g4 g2
          (by omega) (by omega)
        have t3 := r3.tnodes
        obtain ⟨u, hu⟩ := ihr (s := s3) (n := k) r3.delivers r3.rcnt r3.stream (by omega) (by omega) (by omega)
        exact ⟨u, by simp only [desNode, g1, andThen_done, allocEntry_free lt1, Bool.false_eq_true, if_false, e3, hu,
          andThen_raised]⟩
      · obtain ⟨u, hu⟩ := ihl (s := claimEntry s1) (n := k) g3 g4 g2 (by omega) (by omega) (by omega)
        exact ⟨u, by simp only [desNode, g1, andThen_done, allocEntry_free lt1, Bool.false_eq_true, if_false, hu,
          andThen_raised]⟩
    · exact ⟨s1, by simp only [desNode, g1, andThen_done, allocEntry_full (s := s1) (by omega), andThen_raised]⟩

/-- TDES runs out of bits when they end inside the tree and entries cannot run out first (42_treecodec.md R105). -/
theorem desNode_runs_out {s : State} {n : Nat} (hd : SourceDelivers s) (hc : s.rcnt.toNat ≤ 8)
    (hs : des (streamBits s) = none) (hn : Config.nodeCap + 1 ≤ n + s.tnodes.toNat)
    (hcap : s.tnodes.toNat + (streamBits s).length ≤ Config.nodeCap) :
    ∃ u, desNode n s = .raised (.sourceError Config.eEos) u ∧ u.rcnt = 0#4 ∧ u.src.length ≤ u.spos := by
  induction n generalizing s with
  | zero => omega
  | succ k ih =>
    cases hb : streamBits s with
    | nil =>
      obtain ⟨t, h1, h2, h3⟩ := getBit_exhausted hd hb
      exact ⟨t, by simp only [desNode, h1, andThen_raised], h2, h3⟩
    | cons b rest =>
      obtain ⟨s1, g1, g2, g3, g4, g5, g6⟩ := getBit_delivers hd hc hb
      have ht1 := congrArg BitVec.toNat g6.sameTree.tnodes
      rw [hb] at hs hcap
      simp only [List.length_cons] at hcap
      have lt1 : s1.tnodes.toNat < Config.nodeCap := by omega
      have htn : (claimEntry s1).tnodes.toNat = s.tnodes.toNat + 1 := by rw [← ht1]; exact tnodes_add_one lt1
      have g2' : streamBits (claimEntry s1) = rest := g2
      cases b with
      | true =>
        have hlt : rest.length < 8 := by
          by_contra hge
          simp [des, desFuel, hge] at hs
        obtain ⟨u, h1, h2, h3⟩ := getBitsInto_exhausted 8 0#8 (s := claimEntry s1) g3 g4 (by rw [g2']; exact hlt)
        exact ⟨u, by simp only [desNode, g1, andThen_done, allocEntry_free lt1, if_true, h1, andThen_raised], h2, h3⟩
      | false =>
        rw [des_internal] at hs
        cases hl : des rest with
        | none =>
          obtain ⟨u, h1, h2, h3⟩ := ih (s := claimEntry s1) g3 g4 (by rw [g2']; exact hl) (by omega) (by rw [g2']; omega)
          exact ⟨u, by simp only [desNode, g1, andThen_done, allocEntry_free lt1, Bool.false_eq_true, if_false, h1,
            andThen_raised], h2, h3⟩
        | some r =>
          obtain ⟨l, rest1⟩ := r
          simp only [hl] at hs
          obtain ⟨e, _⟩ := des_sound hl
          have hle := treeNodes_le_ser_length l
          have hlen : rest.length = (ser l).length + rest1.length := by rw [e]; simp
          obtain ⟨s3, e3, r3⟩ := desNode_reads l (s := claimEntry s1) (n := k) g3 g4 (by rw [g2']; exact e) (by omega) (by omega)
          have t3 := r3.tnodes
          have hr : des rest1 = none := by
            cases hr : des rest1 with
            | none => rfl
            | some q => simp [hr] at hs
          obtain ⟨u, h1, h2, h3⟩ := ih (s := s3) r3.delivers r3.rcnt (by rw [r3.stream]; exact hr) (by omega)
            (by rw [r3.stream]; omega)
          exact ⟨u, by simp only [desNode, g1, andThen_done, allocEntry_free lt1, Bool.false_eq_true, if_false, e3, h1,
            andThen_raised], h2, h3⟩

/-- Where the parser meets the end of the bits TDES does not run to its end. -/
theorem desNode_not_done {s : State} {n : Nat} (hd : SourceDelivers s) (hc : s.rcnt.toNat ≤ 8)
    (hs : des (streamBits s) = none) (hn : Config.nodeCap + 1 ≤ n + s.tnodes.toNat)
    (hle : s.tnodes.toNat ≤ Config.nodeCap) (i : Index) (u : State) : desNode n s ≠ .done i u := by
  induction n generalizing s i u with
  | zero => omega
  | succ k ih =>
    intro hdone
    cases hb : streamBits s with
    | nil =>
      obtain ⟨t, h1, _, _⟩ := getBit_exhausted hd hb
      simp only [desNode, h1, andThen_raised] at hdone
      cases hdone
    | cons b rest =>
      obtain ⟨s1, g1, g2, g3, g4, g5, g6⟩ := getBit_delivers hd hc hb
      have ht1 := congrArg BitVec.toNat g6.sameTree.tnodes
      rw [hb] at hs
      by_cases lt1 : s1.tnodes.toNat < Config.nodeCap
      · have htn : (claimEntry s1).tnodes.toNat = s.tnodes.toNat + 1 := by rw [← ht1]; exact tnodes_add_one lt1
        have g2' : streamBits (claimEntry s1) = rest := g2
        cases b with
        | true =>
          have hlt : rest.length < 8 := by
            by_contra hge
            simp [des, desFuel, hge] at hs
          obtain ⟨v, h1, _, _⟩ := getBitsInto_exhausted 8 0#8 (s := claimEntry s1) g3 g4 (by rw [g2']; exact hlt)
          simp only [desNode, g1, andThen_done, allocEntry_free lt1, if_true, h1, andThen_raised] at hdone
          cases hdone
        | false =>
          simp only [desNode, g1, andThen_done, allocEntry_free lt1, Bool.false_eq_true, if_false] at hdone
          obtain ⟨jl, s3, e3, hdone⟩ := andThen_eq_done.mp hdone
          obtain ⟨jr, s4, e4, _⟩ := andThen_eq_done.mp hdone
          rw [des_internal] at hs
          cases hl : des rest with
          | none => exact ih (s := claimEntry s1) g3 g4 (by rw [g2']; exact hl) (by omega) (by omega) jl s3 e3
          | some r =>
            obtain ⟨l, rest1⟩ := r
            simp only [hl] at hs
            obtain ⟨e, _⟩ := des_sound hl
            by_cases hfit : (claimEntry s1).tnodes.toNat + treeNodes l ≤ Config.nodeCap
            · obtain ⟨s3', e3', r3⟩ := desNode_reads l (s := claimEntry s1) (n := k) g3 g4 (by rw [g2']; exact e)
                (by omega) hfit
              rw [e3'] at e3
              injection e3 with _ e3
              subst e3
              have t3 := r3.tnodes
              have hr : des rest1 = none := by
                cases hr : des rest1 with
                | none => rfl
                | some q => simp [hr] at hs
              exact ih (s := s3') r3.delivers r3.rcnt (by rw [r3.stream]; exact hr) (by omega) (by omega) jr s4 e4
            · obtain ⟨v, hv⟩ := desNode_full l (s := claimEntry s1) (n := k) g3 g4 (by rw [g2']; exact e) (by omega)
                (by omega) (by omega)
              rw [hv] at e3
              cases e3
      · simp only [desNode, g1, andThen_done, allocEntry_full (s := s1) (by omega), andThen_raised] at hdone
        cases hdone

/-- `TNODES` never goes down inside TDES and never passes `NODE_CAP`. -/
theorem desNode_tnodes {k : Nat} {v w : State} {j : Index} (hv : v.tnodes.toNat ≤ Config.nodeCap)
    (h : desNode k v = .done j w) : v.tnodes.toNat ≤ w.tnodes.toNat ∧ w.tnodes.toNat ≤ Config.nodeCap := by
  revert hv h
  induction k generalizing v w j with
  | zero => intro _ h; cases h
  | succ k ih =>
    intro hv h
    obtain ⟨tag, v1, h1, h⟩ := andThen_eq_done.mp h
    obtain ⟨i, v2, h2, h⟩ := andThen_eq_done.mp h
    have e1 : v1.tnodes = v.tnodes := by
      have := getBit_onlyReader v
      rw [h1] at this
      exact (OnlyReader.sameTree this).tnodes
    by_cases hlt : v1.tnodes.toNat < Config.nodeCap
    · rw [allocEntry_free hlt] at h2
      injection h2 with _ h2
      have e2 : v2.tnodes.toNat = v.tnodes.toNat + 1 := by
        rw [← h2, ← e1]; exact tnodes_add_one hlt
      rw [e1] at hlt
      split at h
      · obtain ⟨sym, v3, h3, h⟩ := andThen_eq_done.mp h
        injection h with _ h
        have e3 : v3.tnodes = v2.tnodes := by
          have := getBitsInto_onlyReader 8 0#8 v2
          rw [h3] at this
          exact (OnlyReader.sameTree this).tnodes
        rw [← h, writeLeaf_tnodes, e3]
        omega
      · obtain ⟨l, v3, h3, h⟩ := andThen_eq_done.mp h
        obtain ⟨r, v4, h4, h⟩ := andThen_eq_done.mp h
        injection h with _ h
        have i3 := ih (by omega) h3
        have i4 := ih (by omega) h4
        rw [← h, writeInternal_tnodes]
        omega
    · rw [allocEntry_full (by omega)] at h2
      cases h2

/-- The fuel of TDES's traversal never shows: any two fuels with a level for every entry left agree. -/
theorem desNode_fuel {s : State} {n m : Nat} (hn : Config.nodeCap + 1 ≤ n + s.tnodes.toNat)
    (hm : Config.nodeCap + 1 ≤ m + s.tnodes.toNat) (hle : s.tnodes.toNat ≤ Config.nodeCap) : desNode n s = desNode m s := by
  induction n generalizing s m with
  | zero => omega
  | succ n ih =>
    obtain ⟨k, rfl⟩ : ∃ k, m = k + 1 := ⟨m - 1, by omega⟩
    simp only [desNode]
    cases h1 : getBit s with
    | raised c t => rfl
    | stuck e => rfl
    | done tag s1 =>
      have e1 : s1.tnodes = s.tnodes := by
        have := getBit_onlyReader s
        rw [h1] at this
        exact (OnlyReader.sameTree this).tnodes
      simp only [andThen_done]
      by_cases hlt : s1.tnodes.toNat < Config.nodeCap
      · have htn : (claimEntry s1).tnodes.toNat = s.tnodes.toNat + 1 := by rw [← e1]; exact tnodes_add_one hlt
        rw [e1] at hlt
        rw [allocEntry_free (s := s1) (by rw [e1]; exact hlt), andThen_done, andThen_done]
        split
        · rfl
        · rw [ih (s := claimEntry s1) (m := k) (by omega) (by omega) (by omega)]
          cases h3 : desNode k (claimEntry s1) with
          | raised c t => rfl
          | stuck e => rfl
          | done l s3 =>
            have t3 := desNode_tnodes (by omega) h3
            simp only [andThen_done]
            rw [ih (s := s3) (m := k) (by omega) (by omega) t3.2]
      · rw [allocEntry_full (by omega)]
        rfl

end Sys2Proof.Machine
end

