-- ==== Sys2Proof/Tests/Slice0.lean ====
section
/-! SUPPORT. Tests: ill-formed terms that the checks refuse, words written out from the spec's encodings, single steps with
the results spec/95_test_vectors.md gives, and a witness for the hypotheses of every obligation that has some. -/

namespace Sys2Proof.Tests

open Sys2Proof.Machine

/-! ## Ill-formed terms, one for each check -/

/-- 30_encoding.md R61: bit 8 set above a legal command word (95 vector 2.1). -/
theorem test_wf_upper_bit : upperBitsClear 0x110#32 = false ∧ CommandWordWF 0x110#32 = false := by decide

/-- 30_encoding.md R61: reserved bit 3 set (95 vector 2.1). -/
theorem test_wf_reserved_bit : reservedBitsClear 0x18#32 = false ∧ CommandWordWF 0x18#32 = false := by decide

/-- 30_encoding.md R62: `op` = 0 and `op` = 6 (95 vector 2.1). -/
theorem test_wf_op : opAssigned 0#32 = false ∧ opAssigned 0x60#32 = false ∧ CommandWordWF 0x60#32 = false := by decide

/-- 30_encoding.md R61: `b` = 1 on WFLUSH (95 vector 2.1). -/
theorem test_wf_operand_bit : operandBitAllowed 0x21#32 = false ∧ CommandWordWF 0x21#32 = false := by decide

/-- 30_encoding.md R64: nothing, a `0` with more bits, and a `1` with seven bits are no token. -/
theorem test_wf_token : TokenWF [] = false ∧ TokenWF [false, false] = false ∧
    TokenWF [true, false, false, false, false, false, false, false] = false := by decide

/-- 30_encoding.md R73: `write_bit(2)` breaks the caller's contract; it is refused, not taken modulo 2. -/
theorem test_wf_call : SourceCallWF (.writeBit 2) = false ∧
    (match execCall (.writeBit 2) State.reset with | .refused .callerContract => true | _ => false) = true := by decide

/-- An encoded object the checks refuse. -/
theorem test_wf_encoded : EncodedWF (.command 0x21#8) = false ∧ EncodedWF (.token [true]) = false := by decide

/-! ## Decoding words written out from the spec's encodings -/

/-- 30_encoding.md R62: `0001000x`. -/
theorem test_decode_wbit : decodeCommand 0b00010000#32 = .ok (.wbit false) ∧ decodeCommand 0b00010001#32 = .ok (.wbit true) := by
  decide

/-- 30_encoding.md R62: `00100000`. -/
theorem test_decode_wflush : decodeCommand 0b00100000#32 = .ok .wflush := by decide

/-- 30_encoding.md R62: `00110000`. -/
theorem test_decode_rbit : decodeCommand 0b00110000#32 = .ok .rbit := by decide

/-- 30_encoding.md R62: `01000000`. -/
theorem test_decode_tser : decodeCommand 0b01000000#32 = .ok .tser := by decide

/-- 30_encoding.md R62: `01010000`. -/
theorem test_decode_tdes : decodeCommand 0b01010000#32 = .ok .tdes := by decide

/-- 30_encoding.md R64: the bit `0`, two more bits following. -/
theorem test_decode_tok0 : decodeToken [false, true, false] = some (.tok0, [true, false]) := by decide

/-- 95 vector Y11: `1 10000011 0000000` is a Leaf with symbol 0x83 and seven bits more. -/
theorem test_decode_tok1 :
    decodeToken [true, true, false, false, false, false, false, true, true, false, false, false, false, false, false, false]
      = some (.tok1 0x83#8, [false, false, false, false, false, false, false]) := by decide

/-- 95 vector 2.1: the illegal words, by name. -/
theorem test_decode_illegal :
    decodeCommand 0#32 = .error .reservedOp ∧ decodeCommand 0x12#32 = .error .reservedBitsSet ∧
    decodeCommand 0x31#32 = .error .operandBitSet ∧ decodeCommand 0xFF#32 = .error .reservedBitsSet ∧
    decodeCommand 0x80000020#32 = .error .upperBitsSet := by decide

/-- spec/opcode_table.json: each row's match value, in whole bytes, is that row's instruction. -/
theorem test_table_words :
    decodeTableWord 8 0x10 = some (.wbit false) ∧ decodeTableWord 8 0x20 = some .wflush ∧
    decodeTableWord 8 0x30 = some .rbit ∧ decodeTableWord 8 0x40 = some .tser ∧ decodeTableWord 8 0x50 = some .tdes ∧
    decodeTableWord 8 0 = some .tok0 ∧ decodeTableWord 16 0x183 = some (.tok1 0x83#8) := by decide

/-! ## One step at a time -/

/-- The next state's view by `f`, if there is a next state. -/
def view {α : Type} (r : Host.Outcome State Fault Refusal) (f : State → α) : Option α :=
  match r with
  | .next t => some (f t)
  | .fault _ => none
  | .refused _ => none

/-- Is the outcome a next state? -/
def isNext (r : Host.Outcome State Fault Refusal) : Bool := (view r fun _ => ()).isSome

/-- From reset, with a source that holds these bytes. -/
def sourced (bytes : List Byte) : State := { State.reset with src := bytes }

/-- From reset, with the words of these entries in TMEM. -/
def stored (cells : WordMemory) : State := { State.reset with tmem := cells }

/-- A Leaf for 0x61 in entry 0 and the bits of a Leaf for 0x61 in the source: all seven instructions run here. -/
def demo : State := { stored [(0x400, 0x8187FFFF#32), (0x401, 4#32)] with src := [0xB0#8, 0x80#8] }

/-- 95 S1: the third WBIT of `101`. -/
theorem test_wbit_third :
    view (exec (.wbit true) { State.reset with wacc := 0x80#8, wcnt := 2#3 }) (fun t => (t.wacc, t.wcnt, t.snk))
      = some (0xA0#8, 3#3, []) := by decide

/-- 95 S1: the eighth WBIT emits the byte. -/
theorem test_wbit_eighth :
    view (exec (.wbit false) { State.reset with wacc := 0xB2#8, wcnt := 7#3 }) (fun t => (t.wacc, t.wcnt, t.snk))
      = some (0#8, 0#3, [0xB2#8]) := by decide

/-- 95 S2: a flush of five bits. -/
theorem test_wflush_partial :
    view (exec .wflush { State.reset with wacc := 0xB0#8, wcnt := 5#3 }) (fun t => (t.wacc, t.wcnt, t.snk))
      = some (0#8, 0#3, [0xB0#8]) := by decide

/-- 95 W14: a sink that fails: `RESULT` 1, `W_ERR`, `ERRINFO` verbatim, nothing accepted. -/
theorem test_wflush_refused :
    view (exec .wflush { State.reset with wacc := 0x80#8, wcnt := 1#3, snkAnswers := [.fail 0x2A#32] })
      (fun t => (resultWord t, t.wErr, t.errinfo, t.snk)) = some (1#32, true, 0x2A#32, []) := by decide

/-- 95 S5: the first RBIT of 0xB2. -/
theorem test_rbit_first :
    view (exec .rbit (sourced [0xB2#8])) (fun t => (resultWord t, t.rbyte, t.rcnt, t.spos))
      = some (0x100#32, 0x64#8, 7#4, 1) := by decide

/-- 95 B1: the end of the source. -/
theorem test_rbit_end :
    view (exec .rbit (sourced [])) (fun t => (resultWord t, statusWord t, t.errinfo, t.spos))
      = some (2#32, 0x200#32, 1#32, 0) := by decide

/-- 95 X2: TSER of the two-leaf tree. -/
theorem test_tser_two_leaves :
    view (exec .tser (stored [(0x400, 0x202#32), (0x402, 0x8107FFFF#32), (0x404, 0x810BFFFF#32)]))
      (fun t => (t.snk, t.wacc, t.wcnt, t.code)) = some ([0x50#8, 0x68#8], 0x40#8, 3#3, .ok) := by decide

/-- 95 X5: a missing child, after the root's own bit. -/
theorem test_tser_missing_child :
    view (exec .tser (stored [(0x400, 0x3FFFF#32)])) (fun t => (resultWord t, statusWord t, t.wacc, t.wcnt))
      = some (5#32, 0x401#32, 0#8, 1#3) := by decide

/-- 95 Y3: TDES of the two-leaf tree, the data bits held. -/
theorem test_tdes_two_leaves :
    view (exec .tdes (sourced [0x50#8, 0x68#8, 0x4D#8, 0xA0#8])) (fun t => (t.tmem, t.tnodes, t.rbyte, t.rcnt, t.spos))
      = some ([(0x400, 0x202#32), (0x401, 2#32), (0x402, 0x8107FFFF#32), (0x403, 1#32), (0x404, 0x810BFFFF#32),
          (0x405, 1#32)], 3#10, 0x68#8, 5#4, 3) := by decide

/-- 95 Y7: a stream that ends inside a Leaf. -/
theorem test_tdes_truncated :
    view (exec .tdes (sourced [0xB0#8])) (fun t => (resultWord t, t.errinfo, t.rcnt, t.spos)) = some (2#32, 1#32, 0#4, 1) := by
  decide

/-- 95 Y3 without its first bit: token TOK0 reads its two Leaves and joins them (42_treecodec.md R107). -/
theorem test_tok0_joins :
    view (exec .tok0 { sourced [0x50#8, 0x68#8, 0x4D#8, 0xA0#8] with spos := 1, rbyte := 0xA0#8, rcnt := 7#4 })
      (fun t => (tmemRead t 0x400, tmemRead t 0x401, t.tnodes)) = some (0x202#32, 2#32, 3#10) := by decide

/-- 95 Y1: token TOK1 stores the Leaf for 0x61. -/
theorem test_tok1_stores :
    view (exec (.tok1 0x61#8) State.reset) (fun t => (tmemRead t 0x400, tmemRead t 0x401, t.tnodes))
      = some (0x8187FFFF#32, 1#32, 1#10) := by decide

/-- 95 vector 2.1: after an illegal command from reset. -/
theorem test_illegal_command :
    view (portWrite 0x000#11 0x110#32 State.reset) (fun t => (resultWord t, statusWord t, t.errinfo, t.tnodes))
      = some (3#32, 0x800#32, 0#32, 0#10) := by decide

/-- 95 W11: a byte the host writes directly lands before the pending bits. -/
theorem test_host_byte_first :
    view (perform (.sinkByte 0xFF#8) { State.reset with wacc := 0xA0#8, wcnt := 3#3 }) (fun t => (t.snk, t.wacc, t.wcnt))
      = some ([0xFF#8], 0xA0#8, 3#3) := by decide

/-- The fetch: an instruction placed by its table word is what the next step runs. -/
theorem test_fetch :
    view (step (State.reset.withFetchWord 8 0x11)) (fun t => (t.wacc, t.wcnt)) = some (0x80#8, 1#3) ∧
    view (step (State.reset.withFetchWord 16 0x161)) (fun t => (tmemRead t 0x400, t.tnodes))
      = some (0x8187FFFF#32, 1#10) ∧
    view (step (State.reset.withFetchWord 8 0)) (fun t => t.code) = some .sourceError := by decide

/-- 44_host_tree_and_codes.md R149: the frequency table of "abracadabra". -/
theorem test_frequencies :
    countBytes [0x61#8, 0x62#8, 0x72#8, 0x61#8, 0x63#8, 0x61#8, 0x64#8, 0x61#8, 0x62#8, 0x72#8, 0x61#8]
      = [(0x61#8, 5), (0x62#8, 2), (0x63#8, 1), (0x64#8, 1), (0x72#8, 2)] := by decide

/-- 30_encoding.md R72: `RBYTE8` returns `val8` of its eight results. -/
theorem test_rbyte8 :
    (match runRbyte8 (sourced [0xB2#8]) with | .next (_, .value v) => v == 0xB2#8 | _ => false) = true := by decide

/-- 44_host_tree_and_codes.md R147: a symbol that two leaves carry has exactly one entry. -/
theorem test_codes_distinct :
    (extractCodes (.internal 3 (.leaf 0x61#8 1) (.internal 2 (.leaf 0x61#8 1) (.leaf 0x62#8 1)))).map Prod.fst
      = [0x61#8, 0x62#8] := by decide

/-- The policy that writes nothing after a zero header and reads nothing back (43_host_pipelines.md R134). -/
def bareHeader : EmptyInputPolicy := ⟨[], false, nofun⟩

/-- 60_exceptions.md R161 for DECOMPRESS's own output (95 P1's artifact): the third byte is refused, its value verbatim. -/
theorem test_decompress_output_refused :
    (match decompress bareHeader [.ok, .ok, .fail 7#32] (sourced [4#8, 0#8, 0#8, 0#8, 0xB0#8, 0x80#8]) with
      | .next (_, e) => e == .failed [0x61#8, 0x61#8] (.outputError 7#32)
      | _ => false) = true := by decide

/-- The policy that writes a one-Leaf tree after a zero header and reads it back (43_host_pipelines.md R134). -/
def leafAfterHeader : EmptyInputPolicy := ⟨ser (.leaf 0#8 0), true, fun _ => by decide⟩

/-- A merge order. -/
def anyOrder : MergeOrder := ⟨fun _ _ => true, fun _ _ => true⟩

/-- 44_host_tree_and_codes.md R140: COMPRESS of an input whose read fails ends with the read's own error. -/
theorem test_compress_read_fails :
    (match compress anyOrder bareHeader ⟨[0x61#8, 0x61#8], some (1, 0x2A#32), none⟩ State.reset with
      | .next (u, .failed [] (.inputError e)) => e == 0x2A#32 && u.snk == []
      | _ => false) = true := by decide

/-- 95 P5 part d: five symbols are written before the RBIT that meets the end of the source. -/
theorem test_decompress_truncated :
    (match decompress bareHeader [] (sourced [8#8, 0#8, 0#8, 0#8, 0x50#8, 0x68#8, 0x4D#8]) with
      | .next (_, e) => e == .failed [0x41#8, 0x42#8, 0x42#8, 0x41#8, 0x42#8] (.commandFault .sourceError 1#32)
      | _ => false) = true := by decide

/-! ## Witnesses: states and operands that meet the hypotheses of the obligations -/

theorem test_wit_IllegalWordRaisesIllegalCommand :
    0#32 ∉ [0x10#32, 0x11#32, 0x20#32, 0x30#32, 0x40#32, 0x50#32] ∧
    0x110#32 ∉ [0x10#32, 0x11#32, 0x20#32, 0x30#32, 0x40#32, 0x50#32] := by decide

theorem test_wit_ResetKeepsMemoryAndStreams : (resetBlock State.reset).host = [] := rfl

theorem test_wit_FaultEntryUndoesNothing :
    causeCode .treeCapacity ≠ .sinkError ∧ causeCode (.sourceError 1#32) ≠ .sinkError := by decide

theorem test_wit_StickyBitsClearedOnlyByReset :
    let s := { State.reset with host := [.write 0#11 0x20#32], wErr := true, rErr := true, tErr := true, cErr := true }
    s.host = .write 0#11 0x20#32 :: [] ∧ HostAction.write 0#11 0x20#32 ≠ .reset ∧ isNext (step s) = true := by decide

/-- Every instruction runs on `demo`: for EachCommandRaisesItsOwnFaults and the two frames. -/
theorem test_wit_every_instruction_runs :
    [Instr.wbit true, .wflush, .rbit, .tser, .tdes, .tok0, .tok1 0x61#8].all (fun i => isNext (exec i demo)) = true := by
  decide

/-- The commands that complete `OK` on `demo`: for the frames' clauses under `OK`. -/
theorem test_wit_every_command_ok :
    [Instr.wbit true, .wflush, .rbit, .tser, .tdes].all (fun i => view (exec i demo) (·.code) == some .ok) = true := by decide

theorem test_wit_UnansweredTransactionIsStuck :
    nextAnswer { State.reset with snkAnswers := [.never], wcnt := 7#3 }.snkAnswers = .never ∧
    { State.reset with snkAnswers := [.never], wcnt := 7#3 }.wcnt = 7#3 ∧ (7#3 : BitVec 3) ≠ 0#3 ∧
    nextAnswer { State.reset with srcAnswers := [.never] }.srcAnswers = .never ∧ State.reset.rcnt = 0#4 := by decide

/-- The clause for TSER: the eighth bit of a Leaf meets a sink that does not answer. -/
theorem test_wit_TserIsStuck :
    let s := { demo with snkAnswers := [.never] }
    HoldsTree s (.leaf 0x61#8 4) = true ∧ putBits (ser (.leaf 0x61#8 4)) s = .stuck .sinkNeverAnswers := by decide

/-- The clauses for TDES and TOK0: the source does not answer after the first byte, inside the tree. -/
theorem test_wit_TdesIsStuck :
    let s := { sourced [0x50#8, 0x68#8] with srcAnswers := [.ok, .never] }
    (∃ v, getBits (bits8 0x50#8).length s = .done (bits8 0x50#8) v ∧ getBit v = .stuck .sourceNeverAnswers) ∧
    des (bits8 0x50#8) = none ∧ tagCount (bits8 0x50#8) ≤ Config.nodeCap ∧
    des (false :: bits8 0x50#8) = none ∧ s.tnodes.toNat + tagCount (false :: bits8 0x50#8) ≤ Config.nodeCap :=
  ⟨⟨_, rfl, rfl⟩, by decide⟩

theorem test_wit_EveryStepEndsWhenStreamsAnswer : StreamsAnswer demo := by
  refine ⟨?_, ?_⟩ <;> simp [demo, stored, State.reset]

/-- The three cases of WBIT and of WFLUSH: before the eighth bit, the eighth accepted, the eighth refused. -/
theorem test_wit_WbitPutsOneBit :
    State.reset.wcnt.toNat < 7 ∧ ¬ (7#3).toNat < 7 ∧ nextAnswer State.reset.snkAnswers = .ok ∧
    nextAnswer { State.reset with wcnt := 7#3, snkAnswers := [.fail 5#32] }.snkAnswers = .fail 5#32 := by decide

theorem test_wit_WflushEmitsThePartialByte :
    State.reset.wcnt = 0#3 ∧ { State.reset with wcnt := 5#3 }.wcnt ≠ 0#3 ∧
    nextAnswer { State.reset with wcnt := 5#3 }.snkAnswers = .ok ∧
    isNext (exec .wflush { State.reset with wcnt := 5#3 }) = true ∧
    nextAnswer { State.reset with wcnt := 5#3, snkAnswers := [.fail 5#32] }.snkAnswers = .fail 5#32 := by decide

theorem test_wit_FlushedBitsAreInTheSink :
    let s := { State.reset with wacc := 0xA0#8, wcnt := 3#3 }
    WriterInv s = true ∧ s.wErr = false ∧ view (exec .wflush s) (·.code) = some .ok := by decide

theorem accepts_of_none {s : State} (h : s.snkAnswers = []) : SinkAccepts s := by simp [SinkAccepts, h]

theorem delivers_of_none {s : State} (h : s.srcAnswers = []) : SourceDelivers s := by simp [SourceDelivers, h]

theorem test_wit_BitsArePacked :
    WriterAtBoundary State.reset ∧ SinkAccepts State.reset ∧
    (∃ t u, putBits [true, false, true] State.reset = .done () t ∧ exec .wflush t = .next u ∧ u.code = .ok) :=
  ⟨⟨rfl, rfl, rfl⟩, accepts_of_none rfl, _, _, rfl, rfl, rfl⟩

theorem test_wit_SinkTransactionsAreCounted :
    ∃ t u, WriterAtBoundary State.reset ∧ putBits [true, false, true] State.reset = .done () t ∧
      exec .wflush t = .next u ∧ u.code = .ok := ⟨_, _, ⟨rfl, rfl, rfl⟩, rfl, rfl, rfl⟩

theorem test_wit_RbitReturnsNextBit :
    (sourced [0xB2#8]).rcnt = 0#4 ∧ nextAnswer (sourced [0xB2#8]).srcAnswers = .ok ∧
    (sourced [0xB2#8]).src[(sourced [0xB2#8]).spos]? = some 0xB2#8 ∧
    srcRead (sourced []) = .raised (.sourceError 1#32) { sourced [] with srcAnswers := (sourced []).srcAnswers.tail } ∧
    { State.reset with rcnt := 1#4 }.rcnt ≠ 0#4 := by decide

theorem test_wit_SourceFailureRaisesSourceError :
    let s := { sourced [0xFF#8] with srcAnswers := [.fail 0x2A#32] }
    s.rcnt = 0#4 ∧ nextAnswer s.srcAnswers = .fail 0x2A#32 ∧ s.spos < s.src.length ∧
    nextAnswer (sourced []).srcAnswers ≠ .never ∧ (sourced []).src.length ≤ (sourced []).spos := by decide

theorem test_wit_BytesAreUnpacked :
    (sourced [0xA0#8]).rcnt = 0#4 ∧ (∃ bits t, getBits 3 (sourced [0xA0#8]) = .done bits t) ∧
    SourceDelivers (sourced [0xA0#8]) ∧ (sourced [0xA0#8]).src.drop (sourced [0xA0#8]).spos = pack [true, false, true] :=
  ⟨rfl, ⟨_, _, rfl⟩, delivers_of_none rfl, by decide⟩

theorem test_wit_WrittenBitsReadBack :
    WriterAtBoundary State.reset ∧ SinkAccepts State.reset ∧
    (∃ t u, putBits [true, false, true] State.reset = .done () t ∧ exec .wflush t = .next u ∧
      (sourced [0xA0#8]).src.drop (sourced [0xA0#8]).spos = u.snk.drop State.reset.snk.length) ∧
    (sourced [0xA0#8]).rcnt = 0#4 ∧ SourceDelivers (sourced [0xA0#8]) :=
  ⟨⟨rfl, rfl, rfl⟩, accepts_of_none rfl, ⟨_, _, rfl, rfl, rfl⟩, rfl, delivers_of_none rfl⟩

theorem test_wit_DesFollowsItsEquations :
    des [true, false, true, true, false, false, false, false, true] = some (.leaf 0x61#8 1, []) := by decide

theorem test_wit_SerialiseDeserialiseRoundTrip : ser (.leaf 0x61#8 4) ++ [] = ser (.leaf 0x61#8 1) := by decide

theorem test_wit_TruncatedTreeEndsBits :
    ser (.leaf 0#8 1) = [true] ++ List.replicate 8 false ∧ (List.replicate 8 false : Bits) ≠ [] := by decide

theorem test_wit_TserRealisesSer : HoldsTree demo (.leaf 0x61#8 4) = true ∧ SinkAccepts demo :=
  ⟨by decide, accepts_of_none rfl⟩

theorem test_wit_TserStopsAtTheRefusedByte :
    let s := { demo with snkAnswers := [.fail 7#32] }
    HoldsTree s (.leaf 0x61#8 4) = true ∧ ∃ u, putBits (ser (.leaf 0x61#8 4)) s = .raised (.sinkError 7#32) u :=
  ⟨by decide, _, rfl⟩

/-- Both cases of TserEndsOnEveryImage: an image that holds a tree, and one with a missing child that holds none. -/
theorem test_wit_TserEndsOnEveryImage :
    (SinkAccepts demo ∧ ∃ t, HoldsTree demo t = true) ∧
    SinkAccepts (stored [(0x400, 0x3FFFF#32)]) ∧ ¬ ∃ t, HoldsTree (stored [(0x400, 0x3FFFF#32)]) t = true := by
  refine ⟨⟨accepts_of_none rfl, .leaf 0x61#8 4, by decide⟩, accepts_of_none rfl, ?_⟩
  have htag : entryTag (stored [(0x400, 0x3FFFF#32)]) Config.root = false := by decide
  have hleft : entryLeft (stored [(0x400, 0x3FFFF#32)]) Config.root = Config.nil := by decide
  rintro ⟨t, ht⟩
  cases t with
  | leaf sym f => simp [HoldsTree, HoldsAt, htag] at ht
  | internal f l r => cases l <;> simp [HoldsTree, HoldsAt, hleft] at ht

theorem test_wit_MissingChildRaisesTreeInvariant :
    let s := stored [(0x400, 0x3FFFF#32)]
    entryTag s Config.root = false ∧ entryLeft s Config.root = Config.nil ∧ ∃ u, putBits [false] s = .done () u :=
  ⟨by decide, by decide, _, rfl⟩

/-- A missing right child below the root: entry 1, the root's right child, is Internal with a Leaf on its left. -/
theorem test_wit_MissingChildAnywhere :
    let s := stored [(0x400, 0x401#32), (0x402, 0x5FF#32), (0x404, 0x8107FFFF#32)]
    SinkAccepts s ∧ indexAlong s Config.root [true, true] = some Config.nil := ⟨accepts_of_none rfl, by decide⟩

/-- A cycle below the root, through a right child: entry 1's right child is entry 1. -/
theorem test_wit_CycleAnywhere :
    let s := stored [(0x400, 0x401#32), (0x402, 0x401#32), (0x404, 0x8107FFFF#32)]
    SinkAccepts s ∧ indexAlong s Config.root [true] = some 1#9 ∧ ([true] : Bits) ≠ [] ∧
      indexAlong s 1#9 [true] = some 1#9 := ⟨accepts_of_none rfl, by decide⟩

theorem test_wit_CycleRaisesTreeInvariant :
    let s := stored [(0x400, 0#32)]
    entryTag s Config.root = false ∧ entryLeft s Config.root = Config.root ∧
      ∃ u, putBits (List.replicate 511 false) s = .done () u :=
  ⟨by decide, by decide, (putBits_accepted (List.replicate 511 false) (accepts_of_none rfl)).imp fun _ h => h.1⟩

theorem test_wit_TdesRealisesDes :
    SourceDelivers demo ∧ demo.rcnt.toNat ≤ 8 ∧
    des (streamBits demo) = some (.leaf 0x61#8 1, List.replicate 7 false) ∧
    treeNodes (.leaf 0x61#8 1) ≤ Config.nodeCap := ⟨delivers_of_none rfl, by decide, by decide, by decide⟩

/-- The left-leaning tree with `n` Internal nodes and `n + 1` Leaves for 0xFF. -/
def comb : Nat → Tree
  | 0 => .leaf 0xFF#8 1
  | n + 1 => .internal 0 (comb n) (.leaf 0xFF#8 1)

theorem comb_nodes (n : Nat) : treeNodes (comb n) = 2 * n + 1 := by
  induction n with
  | zero => rfl
  | succ n ih => simp only [comb, treeNodes, ih]; omega

theorem comb_leaves (n : Nat) : treeLeaves (comb n) = n + 1 := by
  induction n with
  | zero => rfl
  | succ n ih => simp only [comb, treeLeaves, ih]

/-- Trees with each of the numbers of leaves the statement names. -/
theorem test_wit_SerialisedLength :
    treeLeaves (comb 0) = 1 ∧ treeLeaves (comb 1) = 2 ∧ treeLeaves (comb 2) = 3 ∧ treeLeaves (comb 4) = 5 ∧
    treeLeaves (comb 5) = 6 ∧ treeLeaves (comb 255) = 256 := by simp only [comb_leaves]; decide

theorem comb_ser (n : Nat) : ser (comb n) = List.replicate n false ++ List.replicate (9 * (n + 1)) true := by
  induction n with
  | zero => rfl
  | succ n ih =>
    have : ser (.leaf 0xFF#8 1) = List.replicate 9 true := by decide
    simp only [comb, ser] at *
    rw [ih, this, List.append_assoc, List.replicate_append_replicate]
    rfl

theorem unpack_replicate (n : Nat) (b : Bool) (v : Byte) (h : bits8 v = List.replicate 8 b) :
    unpack (List.replicate n v) = List.replicate (8 * n) b := by
  induction n with
  | zero => rfl
  | succ n ih =>
    rw [List.replicate_succ, unpack_cons, ih, h, List.replicate_append_replicate, show 8 + 8 * n = 8 * (n + 1) by omega]

/-- A tree of 513 nodes, and a source that holds it. -/
theorem test_wit_OversizedTreeRaisesTreeCapacity :
    let s := sourced (List.replicate 32 0#8 ++ List.replicate 290 0xFF#8)
    SourceDelivers s ∧ s.rcnt.toNat ≤ 8 ∧
      des (streamBits s) = some (treePlaceholder (comb 256), List.replicate 7 true) ∧
      Config.nodeCap < treeNodes (treePlaceholder (comb 256)) := by
  refine ⟨delivers_of_none rfl, by decide, ?_, by rw [treeNodes_placeholder, comb_nodes]; decide⟩
  rw [← des_ser, comb_ser, List.append_assoc, List.replicate_append_replicate, streamBits_nil_held rfl]
  show des (unpack (List.drop 0 (List.replicate 32 0#8 ++ List.replicate 290 0xFF#8))) = _
  rw [List.drop_zero, unpack_append, unpack_replicate 32 false 0#8 (by decide), unpack_replicate 290 true 0xFF#8 (by decide)]

theorem des_zeros (n : Nat) : des (List.replicate n false) = none := by
  induction n with
  | zero => rfl
  | succ n ih => rw [List.replicate_succ, des_internal, ih]

theorem tagCount_zeros (n : Nat) : tagCount (List.replicate n false) = n := by
  induction n with
  | zero => rfl
  | succ n ih =>
    simp only [tagCount, List.replicate_succ, tagCountAfter] at *
    simp [ih]; omega

/-- 95 Y10: 64 bytes of zeros, 512 tags of a tree that never ends. -/
theorem test_wit_OversizedTreeNeverEnds :
    let s := sourced (List.replicate 64 0#8)
    (∃ v, getBits ((List.replicate 511 false).length + 1) s = .done (List.replicate 511 false ++ [false]) v) ∧
      des (List.replicate 511 false) = none ∧ tagCount (List.replicate 511 false) = Config.nodeCap ∧
      tagCount (List.replicate 511 false ++ [false]) = Config.nodeCap + 1 := by
  have h : List.replicate 511 false ++ [false] = List.replicate 512 false := by
    rw [show [false] = List.replicate 1 false from rfl, List.replicate_append_replicate]
  refine ⟨?_, des_zeros 511, tagCount_zeros 511, by rw [h]; exact tagCount_zeros 512⟩
  have hs : streamBits (sourced (List.replicate 64 0#8)) = List.replicate 512 false ++ [] := by
    rw [streamBits_nil_held rfl, List.append_nil]
    exact unpack_replicate 64 false 0#8 (by decide)
  obtain ⟨v, hv, -⟩ := getBits_delivers (List.replicate 512 false) [] (delivers_of_none rfl) (by decide) hs
  exact ⟨v, by rw [h, List.length_replicate]; rw [List.length_replicate] at hv; exact hv⟩

/-- A source that fails with its own value before its end, inside the tree. -/
theorem test_wit_TruncatedBeforeTheEnd :
    let s := { sourced [0x50#8, 0x68#8] with srcAnswers := [.ok, .fail 0x2A#32] }
    (∃ v w, getBits (bits8 0x50#8).length s = .done (bits8 0x50#8) v ∧ getBit v = .raised (.sourceError 0x2A#32) w) ∧
      des (bits8 0x50#8) = none ∧ tagCount (bits8 0x50#8) ≤ Config.nodeCap := ⟨⟨_, _, rfl, rfl⟩, by decide⟩

theorem test_wit_TruncatedStreamRaisesSourceError :
    let s := sourced [0x50#8]
    SourceDelivers s ∧ s.rcnt.toNat ≤ 8 ∧ s.spos ≤ s.src.length ∧ des (streamBits s) = none ∧
      (streamBits s).length ≤ Config.nodeCap :=
  ⟨delivers_of_none rfl, by decide, by decide, by decide, by decide⟩

theorem test_wit_TserReproducesWhatTdesRead :
    SourceDelivers demo ∧ SinkAccepts demo ∧ demo.rcnt.toNat ≤ 8 ∧ ∃ u, exec .tdes demo = .next u ∧ u.code = .ok :=
  ⟨delivers_of_none rfl, accepts_of_none rfl, by decide, _, rfl, rfl⟩

theorem test_wit_TreeSurvivesTserThenTdes :
    HoldsTree demo (.leaf 0x61#8 4) = true ∧ WriterAtBoundary demo ∧ SinkAccepts demo ∧
    (∃ u v, exec .tser demo = .next u ∧ exec .wflush u = .next v ∧
      (sourced [0xB0#8, 0x80#8]).src.drop (sourced [0xB0#8, 0x80#8]).spos = v.snk.drop demo.snk.length) ∧
    (sourced [0xB0#8, 0x80#8]).rcnt = 0#4 ∧ SourceDelivers (sourced [0xB0#8, 0x80#8]) :=
  ⟨by decide, ⟨rfl, rfl, rfl⟩, accepts_of_none rfl, ⟨_, _, rfl, rfl, rfl⟩, rfl, delivers_of_none rfl⟩

theorem test_wit_Tok1StoresLeaf :
    State.reset.tnodes.toNat < Config.nodeCap ∧ { State.reset with tnodes := 510#10 }.tnodes.toNat < Config.nodeCap ∧
    (0x500 ≠ entryAddr State.reset.tnodes.toNat ∧ 0x500 ≠ entryAddr State.reset.tnodes.toNat + 1) := by decide

/-- 95 T4 without its first bit, in the source after a byte already used: 0xA0 held with seven bits. -/
theorem test_wit_Tok0JoinsTwoSubtrees :
    let s := { sourced [0x50#8, 0x68#8, 0x40#8] with spos := 1, rbyte := 0xA0#8, rcnt := 7#4 }
    SourceDelivers s ∧ s.rcnt.toNat ≤ 8 ∧
      streamBits s = ser (.leaf 0x41#8 1) ++ ser (.leaf 0x42#8 1) ++ List.replicate 5 false ∧
      s.tnodes.toNat + 1 + treeNodes (.leaf 0x41#8 1) + treeNodes (.leaf 0x42#8 1) ≤ Config.nodeCap :=
  ⟨delivers_of_none rfl, by decide, by decide, by decide⟩

theorem test_wit_TokenWithoutEntryRaisesTreeCapacity :
    Config.nodeCap ≤ { State.reset with tnodes := 511#10 }.tnodes.toNat := by decide

theorem test_wit_TdesRunsItsFirstToken :
    decodeToken (streamBits demo) = some (.tok1 0x61#8, List.replicate 7 false) ∧
    decodeToken (streamBits (sourced [0x50#8])) = some (.tok0, [true, false, true, false, false, false, false]) := by decide

theorem test_wit_StreamsOnlyAdvance :
    let s := { demo with host := [.sourceByte] }
    isNext (step s) = true ∧ s.spos ≤ s.src.length := by decide

theorem test_wit_EveryStepKeepsInvariant : State.reset.Inv ∧ isNext (step State.reset) = true :=
  ⟨⟨rfl, rfl, rfl, rfl⟩, rfl⟩

theorem test_wit_StepRunsDecodedCommand :
    let s := { State.reset with host := [.write 0#11 0x30#32] }
    s.host = .write 0x000#11 0x30#32 :: [] ∧ decodeCommand 0x30#32 = .ok .rbit := by decide

/-- The boundaries of the port's address ranges, read: 95 vector 2.7 gives the reserved address. -/
theorem test_wit_PortReadsTheRegisters :
    portRead 0x007#11 demo = 0#32 ∧ portRead 0x010#11 demo = 0#32 ∧ portRead 0x3FF#11 demo = 0#32 ∧
    portRead 0x400#11 demo = 0x8187FFFF#32 ∧ portRead 0x7FE#11 demo = 0#32 ∧ portRead 0x7FF#11 demo = 0#32 ∧
    portRead 0x7FD#11 { demo with tmem := [(0x7FD, 9#32)] } = 9#32 := by decide

/-- The boundaries of the port's address ranges, written. -/
theorem test_wit_PortWritesTreeMemory :
    (0x001#11 : PortAddr) ≠ 0x000#11 ∧
    [0x400#11, 0x7FD#11].all (fun a => view (perform (.write a 5#32) demo) (portRead a) == some 5#32) = true ∧
    [0x001#11, 0x3FF#11, 0x7FE#11, 0x7FF#11].all (fun a => view (perform (.write a 5#32) demo) id == some demo) = true := by
  decide

theorem test_wit_DirectAccessesPassTheBlockBy :
    nextAnswer demo.snkAnswers = .ok ∧ nextAnswer demo.srcAnswers = .ok ∧ demo.src[demo.spos]? = some 0xB0#8 := by decide

/-- The clause of CodesArePrefixFree for trees of distinct symbols, and both cases of its last clause. -/
theorem test_wit_CodesArePrefixFree :
    (treeSymbols (.internal 2 (.leaf 0x41#8 1) (.leaf 0x42#8 1))).Nodup ∧
    treeLeaves (.leaf 0x41#8 1) = 1 ∧ (0x41#8, [false]) ∈ extractCodes (.leaf 0x41#8 1) ∧
    treeLeaves (.internal 2 (.leaf 0x41#8 1) (.leaf 0x42#8 1)) ≠ 1 ∧
    (0x42#8, [true]) ∈ extractCodes (.internal 2 (.leaf 0x41#8 1) (.leaf 0x42#8 1)) := by decide

theorem test_wit_BuilderKeepsFrequencyInvariant : ([(0x61#8, 4)] : FrequencyTable) ≠ [] := by decide

theorem test_wit_EncodedDataDecodes :
    ∀ x ∈ ([0x42#8, 0x41#8] : List Byte), x ∈ treeSymbols (.internal 2 (.leaf 0x41#8 1) (.leaf 0x42#8 1)) := by decide

/-- The four clauses of PseudoInstructionsExpand. -/
theorem test_wit_PseudoInstructionsExpand :
    (∃ t, putBits [true, false] State.reset = .done () t) ∧
    (∃ t, getBits (bits8 0xB2#8).length (sourced [0xB2#8]) = .done (bits8 0xB2#8) t) ∧
    WriterAtBoundary State.reset ∧ nextAnswer State.reset.snkAnswers = .ok ∧
    (WriterAtBoundary { State.reset with snkAnswers := [.fail 5#32] } ∧
      nextAnswer { State.reset with snkAnswers := [.fail 5#32] }.snkAnswers = .fail 5#32) ∧
    (sourced [0xB2#8]).rcnt = 0#4 ∧ nextAnswer (sourced [0xB2#8]).srcAnswers = .ok ∧
    (sourced [0xB2#8]).src[(sourced [0xB2#8]).spos]? = some 0xB2#8 :=
  ⟨⟨_, rfl⟩, ⟨_, rfl⟩, ⟨rfl, rfl, rfl⟩, rfl, ⟨⟨rfl, rfl, rfl⟩, rfl⟩, rfl, rfl, rfl⟩

/-- The two clauses of FrequenciesAreCounts. -/
theorem test_wit_FrequenciesAreCounts :
    (⟨[0x61#8], none, none⟩ : InputSource).countFails = none ∧
    (⟨[0x61#8], some (0, 5#32), none⟩ : InputSource).countFails = some (0, 5#32) := by decide

/-- The input "aaaa" of 95 P1, read without a failure. -/
def aaaa : InputSource := ⟨[0x61#8, 0x61#8, 0x61#8, 0x61#8], none, none⟩

/-- The artifact of 95 P1. -/
def aaaaArtifact : List Byte := [4#8, 0#8, 0#8, 0#8, 0xB0#8, 0x80#8]

/-- A compress run of this input that is over, from reset, with the bytes the sink then holds. -/
def OverWith (policy : EmptyInputPolicy) (input : InputSource) (bytes : List Byte) : Prop :=
  ∃ u, CompressRunOver anyOrder policy input State.reset u ∧
    compress anyOrder policy input State.reset = .next (u, .finished []) ∧ u.snk = bytes

/-- The clauses of CompressWritesTheArtifact: runs that are over, of "aaaa" (95 P1) and of the empty input under both kinds
of policy, and a sink that accepts. -/
theorem test_wit_CompressWritesTheArtifact :
    aaaa.bytes.length < 2 ^ 32 ∧ SinkAccepts State.reset ∧ aaaa.countFails = none ∧ aaaa.encodeFails = none ∧
    OverWith bareHeader aaaa aaaaArtifact ∧
    OverWith bareHeader ⟨[], none, none⟩ [0#8, 0#8, 0#8, 0#8] ∧
    OverWith leafAfterHeader ⟨[], none, none⟩ [0#8, 0#8, 0#8, 0#8, 0x80#8, 0#8] :=
  ⟨by decide, accepts_of_none rfl, rfl, rfl, ⟨_, ⟨_, rfl, rfl, rfl⟩, rfl, rfl⟩, ⟨_, ⟨_, rfl, rfl, rfl⟩, rfl, rfl⟩,
    ⟨_, ⟨_, rfl, rfl, rfl⟩, rfl, rfl⟩⟩

/-- The clauses of DecompressReadsTheArtifact: an artifact (95 P1), and runs that finish. -/
theorem test_wit_DecompressReadsTheArtifact :
    aaaa.bytes ≠ [] ∧ treeNodes (.leaf 0x61#8 4) ≤ Config.nodeCap ∧
    artifact (.leaf 0x61#8 4) aaaa.bytes = some aaaaArtifact ∧
    SourceDelivers (sourced aaaaArtifact) ∧ (sourced aaaaArtifact).src.drop 0 = aaaaArtifact ∧
    OutputAccepts [] ∧ 2 < aaaa.bytes.length ∧ ∃ v, decompress bareHeader [] (sourced aaaaArtifact) = .next (v, .finished aaaa.bytes) :=
  ⟨by decide, by decide, by decide, delivers_of_none rfl, rfl, nofun, by decide, _, rfl⟩

/-- The clause of DecompressReadsTheArtifact for a truncated artifact (95 P5 part d): five symbols' bits are there. -/
theorem test_wit_DecompressTruncated :
    let t : Tree := .internal 8 (.leaf 0x41#8 3) (.leaf 0x42#8 5)
    let input : List Byte := [0x41#8, 0x42#8, 0x42#8, 0x41#8, 0x42#8, 0x42#8, 0x41#8, 0x42#8]
    let d := sourced [8#8, 0#8, 0#8, 0#8, 0x50#8, 0x68#8, 0x4D#8]
    input ≠ [] ∧ treeNodes t ≤ Config.nodeCap ∧ SourceDelivers d ∧
    (∃ bytes, artifact t input = some bytes ∧ d.src.drop d.spos <+: bytes) ∧
    ∃ data, encodeData (codeOf (extractCodes t)) (input.take 5) = some data ∧
      ser t ++ data <+: unpack (d.src.drop (d.spos + 4)) :=
  ⟨by decide, by decide, delivers_of_none rfl, ⟨_, rfl, by decide⟩, _, rfl, by decide⟩

/-- The hypotheses of CompressDecompressRoundTrip, the inner ones too: sources that hold what COMPRESS wrote. -/
theorem test_wit_CompressDecompressRoundTrip :
    SinkAccepts State.reset ∧
    (∃ u, compress anyOrder bareHeader aaaa State.reset = .next (u, .finished []) ∧
      SourceDelivers (sourced aaaaArtifact) ∧
      (sourced aaaaArtifact).src.drop (sourced aaaaArtifact).spos = u.snk.drop State.reset.snk.length) ∧
    ∃ u, compress anyOrder leafAfterHeader ⟨[], none, none⟩ State.reset = .next (u, .finished []) ∧
      (sourced [0#8, 0#8, 0#8, 0#8, 0x80#8, 0#8]).src.drop 0 = u.snk.drop State.reset.snk.length :=
  ⟨accepts_of_none rfl, ⟨_, rfl, delivers_of_none rfl, rfl⟩, _, rfl, rfl⟩

end Sys2Proof.Tests
end

section
/-! SUPPORT. What a rejected command word is, and fault entry's frame: the words `decodeCommand` accepts are the six of
30_encoding.md R62, and fault entry changes nothing but what 60_exceptions.md R163 names. -/

namespace Sys2Proof

/-- The operand bit as a field of width 1, like the other three. -/
theorem ofBool_cmdB (w : BitVec 32) : BitVec.ofBool (cmdB w) = w.extractLsb' 0 1 := by
  ext k hk
  obtain rfl : k = 0 := by omega
  simp [cmdB]

/-- The four fields of 30_encoding.md R61 are the whole word. -/
theorem commandWord_eq_append_fields (w : BitVec 32) :
    w = cmdUpper w ++ cmdOp w ++ cmdRsv w ++ BitVec.ofBool (cmdB w) := by
  rw [ofBool_cmdB, cmdUpper, cmdOp, cmdRsv,
    BitVec.extractLsb'_append_extractLsb'_eq_extractLsb' (start₁ := 4) (len₁ := 4) rfl,
    BitVec.extractLsb'_append_extractLsb'_eq_extractLsb' (start₁ := 1) (len₁ := 3) rfl,
    BitVec.extractLsb'_append_extractLsb'_eq_extractLsb' (start₁ := 0) (len₁ := 1) rfl]
  exact BitVec.extractLsb'_eq_self.symm

/-- A word whose bits 31:8 and `rsv` are 0 is its operation code and its operand bit (30_encoding.md R61). -/
theorem commandWord_eq_of_op {w : BitVec 32} {op : BitVec 4} (hu : cmdUpper w = 0) (hr : cmdRsv w = 0)
    (ho : cmdOp w = op) : w = 0#24 ++ op ++ 0#3 ++ BitVec.ofBool (cmdB w) := by
  refine (commandWord_eq_append_fields w).trans ?_
  rw [hu, hr, ho]
  rfl

theorem plainCommand_eq_ok {w : BitVec 32} {i j : Instr} :
    plainCommand w i = .ok j ↔ cmdB w = false ∧ i = j := by
  cases h : cmdB w <;> simp [plainCommand, h]

/-- A command that carries no operand is the word of its operation code (30_encoding.md R61). -/
theorem eq_of_plainCommand_ok {w : BitVec 32} {i j : Instr} {op : BitVec 4} (hu : cmdUpper w = 0) (hr : cmdRsv w = 0)
    (ho : cmdOp w = op) (h : plainCommand w i = .ok j) : i = j ∧ w = 0#24 ++ op ++ 0#3 ++ 0#1 := by
  obtain ⟨hb, hij⟩ := plainCommand_eq_ok.mp h
  have hw := commandWord_eq_of_op hu hr ho
  rw [hb] at hw
  exact ⟨hij, hw⟩

/-- A word that decodes is the zero-extended command word of what it decodes to (30_encoding.md R61 to R63). -/
theorem encodeCommand_of_decodeCommand_ok {w : BitVec 32} {i : Instr} (h : decodeCommand w = .ok i) :
    ∃ cw, encodeCommand i = some cw ∧ w = cw.setWidth 32 := by
  unfold decodeCommand at h
  split_ifs at h with hu hr hop hop hop hop hop <;> push Not at hu hr
  · obtain rfl : Instr.wbit (cmdB w) = i := by simpa using h
    refine ⟨_, rfl, (commandWord_eq_of_op hu hr hop).trans ?_⟩
    cases cmdB w <;> rfl
  -- WFLUSH, RBIT, TSER and TDES: each the same step from its own operation code.
  all_goals
    obtain ⟨rfl, hw⟩ := eq_of_plainCommand_ok hu hr hop h
    exact ⟨_, rfl, hw⟩

/-- The command words are the six of 30_encoding.md R62. -/
theorem encodeCommand_mem_legal {i : Instr} {cw : BitVec 8} (h : encodeCommand i = some cw) :
    cw.setWidth 32 ∈ [0x10#32, 0x11#32, 0x20#32, 0x30#32, 0x40#32, 0x50#32] := by
  cases i with
  | wbit b => obtain rfl := Option.some.inj h; revert b; decide
  | wflush | rbit | tser | tdes => obtain rfl := Option.some.inj h; decide
  | tok0 | tok1 sym => cases h

/-- Every word but the six is rejected (30_encoding.md R63). -/
theorem decodeCommand_error_of_not_legal {w : BitVec 32}
    (hw : w ∉ [0x10#32, 0x11#32, 0x20#32, 0x30#32, 0x40#32, 0x50#32]) : ∃ e, decodeCommand w = .error e := by
  cases h : decodeCommand w with
  | error e => exact ⟨e, rfl⟩
  | ok i =>
    obtain ⟨cw, hcw, rfl⟩ := encodeCommand_of_decodeCommand_ok h
    exact absurd (encodeCommand_mem_legal hcw) hw

end Sys2Proof

namespace Sys2Proof.Machine

/-! The frame of fault entry, whatever the cause (60_exceptions.md R163). -/

theorem enterFault_completedFault (c : Cause) (s : State) : CompletedFault c s (enterFault c s) := by
  constructor <;> simp

theorem enterFault_sameReader (c : Cause) (s : State) : SameReader s (enterFault c s) := by
  constructor <;> simp

theorem enterFault_sameTree (c : Cause) (s : State) : SameTree s (enterFault c s) :=
  ⟨by simp, by simp, by simp, tmemRead_congr (by simp) (by simp)⟩

theorem enterFault_sameHost (c : Cause) (s : State) : SameHost s (enterFault c s) := by
  constructor <;> simp

/-- Only a SinkError touches BW (40_bitwriter.md R81). -/
theorem enterFault_sameWriter {c : Cause} (s : State) (h : causeCode c ≠ .sinkError) : SameWriter s (enterFault c s) :=
  ⟨enterFault_wacc c s h, enterFault_wcnt c s h, by simp, by simp, by simp⟩

/-- A write to port address 0, `CMD`, issues a command (20_memory.md R41). -/
theorem portWrite_cmd (w : BitVec 32) (s : State) : portWrite 0x000#11 w s = issueCommand w s := rfl

/-- A rejected word is fault entry with IllegalCommand and nothing else (60_exceptions.md R170). -/
theorem issueCommand_of_error {w : BitVec 32} {e : DecodeError} (h : decodeCommand w = .error e) (s : State) :
    issueCommand w s = .next (enterFault .illegalCommand s) := by
  rw [issueCommand, h]

end Sys2Proof.Machine

namespace Sys2Proof
open Sys2Proof.Machine

/-- Settles O3: every word but the six fails to decode, so the write is fault entry with IllegalCommand, whose frame is
that of any fault but SinkError. -/
theorem illegalWordRaisesIllegalCommand : Obligations.IllegalWordRaisesIllegalCommand := by
  intro w s hw
  obtain ⟨e, he⟩ := decodeCommand_error_of_not_legal hw
  have hnotSink : causeCode .illegalCommand ≠ .sinkError := by decide
  exact ⟨enterFault .illegalCommand s, (portWrite_cmd w s).trans (issueCommand_of_error he s),
    enterFault_completedFault _ s, enterFault_sameWriter s hnotSink, enterFault_sameReader _ s, enterFault_sameTree _ s,
    enterFault_sameHost _ s⟩

end Sys2Proof
end

section
/-! SUPPORT. What WBIT and WFLUSH do (40_bitwriter.md R82, R83), case by case of what they can meet: the bit or the flush
that touches no stream, the byte the sink accepts, the byte it refuses. -/

namespace Sys2Proof.Machine

/-! ## How a command ends -/

/-- No fault has the code `OK` (60_exceptions.md R161). -/
theorem causeCode_ne_ok (c : Cause) : causeCode c ≠ .ok := by cases c <;> nofun

/-- A command whose next state says `OK` ran to its end. -/
theorem finishCommand_ok {r : Res Bool} {u : State} (h : finishCommand r = .next u) (hok : u.code = .ok) :
    ∃ v t, r = .done v t ∧ u = completeOk v t := by
  cases r with
  | done v t => cases h; exact ⟨v, t, rfl, rfl⟩
  | raised c t =>
    cases h
    exact absurd ((enterFault_code c t).symm.trans hok) (causeCode_ne_ok c)
  | stuck f => cases h

/-- What a fault records does not depend on what happened since `s`, if no sticky bit has changed. -/
theorem CompletedFault.of_sameSticky {c : Cause} {s t u : State} (h : CompletedFault c t u) (hs : SameSticky s t) :
    CompletedFault c s u := by
  obtain ⟨hw, hr, ht, hc⟩ := hs
  exact ⟨h.code, h.value, h.errinfo, hw ▸ h.wErr, hr ▸ h.rErr, ht ▸ h.tErr, hc ▸ h.cErr⟩

theorem SameReader.trans {s t u : State} (h1 : SameReader s t) (h2 : SameReader t u) : SameReader s u :=
  ⟨h2.rbyte.trans h1.rbyte, h2.rcnt.trans h1.rcnt, h2.src.trans h1.src, h2.spos.trans h1.spos, h2.rpos.trans h1.rpos,
    h2.srcAnswers.trans h1.srcAnswers⟩

theorem SameTree.trans {s t u : State} (h1 : SameTree s t) (h2 : SameTree t u) : SameTree s u :=
  ⟨h2.tnodes.trans h1.tnodes, h2.tmem.trans h1.tmem, h2.tmemEpoch.trans h1.tmemEpoch,
    fun a => (h2.reads a).trans (h1.reads a)⟩

theorem SameHost.trans {s t u : State} (h1 : SameHost s t) (h2 : SameHost t u) : SameHost s u :=
  ⟨h2.host.trans h1.host, h2.reply.trans h1.reply⟩

/-- A fault raised after work on BW alone: completed as the fault says, the sink as at the raise, BR, TC and the host as
before the command (60_exceptions.md R163). -/
theorem enterFault_after_onlyWriter (c : Cause) {s t : State} (h : OnlyWriter s t) :
    CompletedFault c s (enterFault c t) ∧ (enterFault c t).snk = t.snk ∧
      SameReader s (enterFault c t) ∧ SameTree s (enterFault c t) ∧ SameHost s (enterFault c t) :=
  ⟨(enterFault_completedFault c t).of_sameSticky h.sameSticky, enterFault_snk c t,
    h.sameReader.trans (enterFault_sameReader c t), h.sameTree.trans (enterFault_sameTree c t),
    h.sameHost.trans (enterFault_sameHost c t)⟩

/-! ## WBIT -/

theorem exec_wbit_of_done {b : Bool} {s t : State} (h : putBit b s = .done () t) :
    exec (.wbit b) s = .next (completeOk false t) := by
  simp [exec, execWbit, h, finishCommand]

theorem exec_wbit_of_raised {b : Bool} {c : Cause} {s t : State} (h : putBit b s = .raised c t) :
    exec (.wbit b) s = .next (enterFault c t) := by
  simp [exec, execWbit, h, finishCommand]

theorem encodeCommand_wbit (b : Bool) : encodeCommand (.wbit b) = some (if b then 0x11#8 else 0x10#8) := by
  cases b <;> rfl

/-- The eighth bit of a byte goes into its lowest position (40_bitwriter.md R80). -/
theorem accWithBit_eighth (b : Bool) {s : State} (h : ¬ s.wcnt.toNat < 7) : accWithBit b s = s.wacc ||| zext8 b := by
  have hshift : 7 - s.wcnt.toNat = 0 := by omega
  rw [accWithBit, hshift, BitVec.shiftLeft_zero]

theorem putBit_refused (b : Bool) {s : State} {e : BitVec 32} (h : ¬ s.wcnt.toNat < 7)
    (ha : nextAnswer s.snkAnswers = .fail e) :
    putBit b s = .raised (.sinkError e) { s with snkAnswers := s.snkAnswers.tail } := by
  simp [putBit, h, snkWrite, ha]

/-! ## WFLUSH -/

theorem flushPending_idle {s : State} (h : s.wcnt = 0#3) : flushPending s = .done () s := if_pos h

theorem flushPending_accepted {s : State} (h : s.wcnt ≠ 0#3) (ha : nextAnswer s.snkAnswers = .ok) :
    flushPending s = .done () { s with
      wacc := 0#8, wcnt := 0#3, snk := s.snk ++ [s.wacc], snkAnswers := s.snkAnswers.tail } := by
  simp [flushPending, h, snkWrite, ha]

theorem flushPending_refused {s : State} {e : BitVec 32} (h : s.wcnt ≠ 0#3) (ha : nextAnswer s.snkAnswers = .fail e) :
    flushPending s = .raised (.sinkError e) { s with snkAnswers := s.snkAnswers.tail } := by
  simp [flushPending, h, snkWrite, ha]

/-- What a flush that ran to its end has done. -/
theorem flushPending_done {s t : State} (h : flushPending s = .done () t) :
    (s.wcnt = 0#3 ∧ t = s) ∨
    (s.wcnt ≠ 0#3 ∧ t = { s with
      wacc := 0#8, wcnt := 0#3, snk := s.snk ++ [s.wacc], snkAnswers := s.snkAnswers.tail }) := by
  by_cases h0 : s.wcnt = 0#3
  · rw [flushPending_idle h0] at h
    cases h
    exact .inl ⟨h0, rfl⟩
  · rw [flushPending, if_neg h0] at h
    obtain ⟨_, hw⟩ | ⟨e, _, hw⟩ | ⟨_, hw⟩ := snkWrite_cases s.wacc s <;> rw [hw] at h <;> cases h
    exact .inr ⟨h0, rfl⟩

theorem exec_wflush_of_done {s t : State} (h : flushPending s = .done () t) :
    exec .wflush s = .next (completeOk false t) := by
  simp [exec, execWflush, h, finishCommand]

theorem exec_wflush_of_raised {c : Cause} {s t : State} (h : flushPending s = .raised c t) :
    exec .wflush s = .next (enterFault c t) := by
  simp [exec, execWflush, h, finishCommand]

/-- A WFLUSH that completed `OK` has run its flush to the end. -/
theorem flushPending_of_exec_wflush_ok {s u : State} (h : exec .wflush s = .next u) (hok : u.code = .ok) :
    ∃ t, flushPending s = .done () t ∧ u = completeOk false t := by
  obtain ⟨v, t, hr, rfl⟩ := finishCommand_ok h hok
  obtain ⟨⟨⟩, _, hf, hv⟩ := andThen_eq_done.mp hr
  cases hv
  exact ⟨t, hf, rfl⟩

/-- With nothing pending WFLUSH writes `RESULT` alone (40_bitwriter.md R83). -/
theorem exec_wflush_idle {s : State} (h : s.wcnt = 0#3) : exec .wflush s = .next (completeOk false s) :=
  exec_wflush_of_done (flushPending_idle h)

/-- With an accepting sink WFLUSH completes `OK`. -/
theorem exec_wflush_accepted {s : State} (h : SinkAccepts s) : ∃ u, exec .wflush s = .next u ∧ u.code = .ok := by
  by_cases h0 : s.wcnt = 0#3
  · exact ⟨_, exec_wflush_idle h0, rfl⟩
  · exact ⟨_, exec_wflush_of_done (flushPending_accepted h0 (nextAnswer_of_all_ok h)), rfl⟩

end Sys2Proof.Machine

namespace Sys2Proof
open Sys2Proof.Machine

/-- Settles O14, along the cases of `PutBit`: a bit before the eighth, the eighth accepted, the eighth refused. -/
theorem wbitPutsOneBit : Obligations.WbitPutsOneBit := by
  intro b s
  refine ⟨encodeCommand_wbit b, ?_⟩
  split
  next hlt => exact exec_wbit_of_done (putBit_early b hlt)
  next hge =>
    refine ⟨fun hok => ⟨s.snkAnswers.tail, ?_⟩, fun e hfail => ?_⟩
    · rw [exec_wbit_of_done (putBit_eighth b hge hok), accWithBit_eighth b hge]
      rfl
    · exact ⟨_, exec_wbit_of_raised (putBit_refused b hge hfail), enterFault_after_onlyWriter _ rfl⟩

/-- Settles O16, along the cases of the flush: nothing pending, the byte accepted, the byte refused. -/
theorem wflushEmitsThePartialByte : Obligations.WflushEmitsThePartialByte := by
  refine ⟨rfl, fun s => ?_⟩
  split
  next hidle => exact exec_wflush_idle hidle
  next hpending =>
    refine ⟨fun hok => ?_, fun e hfail => ?_⟩
    · have hrun := exec_wflush_of_done (flushPending_accepted hpending hok)
      refine ⟨⟨s.snkAnswers.tail, hrun⟩, fun t ht => ?_⟩
      obtain rfl := Host.Outcome.next.inj (hrun.symm.trans ht)
      exact exec_wflush_idle rfl
    · exact ⟨_, exec_wflush_of_raised (flushPending_refused hpending hfail), enterFault_after_onlyWriter _ rfl⟩

end Sys2Proof
end

section
/-! SUPPORT. The packing law (40_bitwriter.md R84): the full bytes of a packed string and its partial last byte, and what
WBITs from a byte boundary and the WFLUSH after them make of the sink. -/

namespace Sys2Proof

/-! ## The full bytes of `pack(s)` and the partial one -/

theorem pack_take_of_full {bits : Bits} (h : bits.length % 8 = 0) : (pack bits).take (bits.length / 8) = pack bits :=
  List.take_of_length_le (by rw [pack_length]; omega)

theorem pack_getD_of_full {bits : Bits} (h : bits.length % 8 = 0) : (pack bits).getD (bits.length / 8) 0#8 = 0#8 :=
  List.getD_eq_default _ _ (by rw [pack_length]; omega)

/-- A string that does not end at a byte boundary packs into its full bytes and one more. -/
theorem pack_take_append_partial {bits : Bits} (h : bits.length % 8 ≠ 0) :
    (pack bits).take (bits.length / 8) ++ [(pack bits).getD (bits.length / 8) 0#8] = pack bits := by
  have hlt : bits.length / 8 < (pack bits).length := by rw [pack_length]; omega
  rw [List.getD_eq_getElem _ _ hlt, List.take_append_getElem hlt]
  exact List.take_of_length_le (by rw [pack_length]; omega)

theorem pack_getD_of_partial {bits : Bits} (h : bits.length % 8 ≠ 0) :
    (pack bits).getD (bits.length / 8) 0#8 = (pack bits).getLastD 0#8 := by
  conv_rhs => rw [← pack_take_append_partial h]
  rw [List.getLastD_concat]

end Sys2Proof

namespace Sys2Proof.Machine

/-- `putBits_done` from a byte boundary, where nothing is pending. -/
theorem putBits_done_from_boundary {bits : Bits} {s t : State} (hs : WriterAtBoundary s)
    (h : putBits bits s = .done () t) :
    t.snk = s.snk ++ (pack bits).take (bits.length / 8) ∧ t.wcnt.toNat = bits.length % 8 ∧
      t.wacc = (pack bits).getD (bits.length / 8) 0#8 := by
  obtain ⟨hcnt, hacc, _⟩ := hs
  obtain ⟨hsnk, hwcnt, hwacc, _⟩ := putBits_done bits [] (by decide) (by rw [hcnt]; rfl) (by rw [hacc, packByte_nil]) h
  exact ⟨hsnk, hwcnt, hwacc⟩

/-- The WFLUSH after the bits of a string makes the sink's gain the packed string (40_bitwriter.md R84). -/
theorem exec_wflush_completes_pack {bits : Bits} {s t u : State} (hs : WriterAtBoundary s)
    (h : putBits bits s = .done () t) (hu : exec .wflush t = .next u) (hok : u.code = .ok) :
    u.snk = s.snk ++ pack bits ∧ u.wcnt = 0#3 ∧ u.wacc = 0#8 := by
  obtain ⟨hsnk, hwcnt, hwacc⟩ := putBits_done_from_boundary hs h
  obtain ⟨v, hv, rfl⟩ := flushPending_of_exec_wflush_ok hu hok
  obtain ⟨hidle, rfl⟩ | ⟨hpending, rfl⟩ := flushPending_done hv
  · have hfull : bits.length % 8 = 0 := by rw [← hwcnt, hidle]; rfl
    rw [pack_take_of_full hfull] at hsnk
    rw [pack_getD_of_full hfull] at hwacc
    exact ⟨hsnk, hidle, hwacc⟩
  · have hpartial : bits.length % 8 ≠ 0 := fun h0 => hpending (BitVec.eq_of_toNat_eq (hwcnt.trans h0))
    refine ⟨?_, rfl, rfl⟩
    rw [completeOk_snk, hsnk, hwacc, List.append_assoc, pack_take_append_partial hpartial]

end Sys2Proof.Machine

namespace Sys2Proof
open Sys2Proof.Machine

/-- Settles O18: the bits by `putBits_done`, from a boundary; the flush by `exec_wflush_completes_pack`; with an accepting
sink both run to their end. -/
theorem bitsArePacked : Obligations.BitsArePacked := by
  intro bits s hs
  refine ⟨fun t ht => ?_, fun haccept => ?_⟩
  · obtain ⟨hsnk, hwcnt, hwacc⟩ := putBits_done_from_boundary hs ht
    refine ⟨hsnk, hwcnt, ?_, fun u hu hok => exec_wflush_completes_pack hs ht hu hok⟩
    split
    next hfull => rw [hwacc, pack_getD_of_full hfull]
    next hpartial => rw [hwacc, pack_getD_of_partial hpartial]
  · obtain ⟨t, ht, htaccept, _⟩ := putBits_accepted bits haccept
    obtain ⟨u, hu, hok⟩ := exec_wflush_accepted htaccept
    exact ⟨t, u, ht, hu, hok⟩

end Sys2Proof
end

section
/-! SUPPORT. What RBIT does (41_bitreader.md R90 to R92), case by case of what `GetBit` can meet: a bit is held, a byte is
loaded, the load fails. -/

namespace Sys2Proof.Machine

/-! ## `GetBit`, case by case -/

/-- With a bit held `GetBit` takes it and touches no stream. -/
theorem getBit_held {s : State} (h : s.rcnt ≠ 0#4) :
    getBit s = .done (s.rbyte.getLsbD 7) { s with rbyte := s.rbyte <<< 1, rcnt := s.rcnt - 1, rpos := s.rpos + 1 } :=
  if_neg h

/-- With no bit held and a byte delivered `GetBit` takes the byte's first bit and holds the other seven. -/
theorem getBit_loads {s : State} {v : BitVec 8} (h : s.rcnt = 0#4) (ha : nextAnswer s.srcAnswers = .ok)
    (hv : s.src[s.spos]? = some v) :
    getBit s = .done (v.getLsbD 7) { s with
      rbyte := v <<< 1, rcnt := 7#4, spos := s.spos + 1, srcAnswers := s.srcAnswers.tail, rpos := s.rpos + 1 } := by
  simp [getBit, h, srcRead, ha, hv, takeBit]

theorem getBit_load_raises {s t : State} {c : Cause} (h : s.rcnt = 0#4) (hr : srcRead s = .raised c t) :
    getBit s = .raised c t := by
  rw [getBit, if_pos h, hr, andThen_raised]

/-- What a `GetBit` that ran to its end has done. -/
theorem getBit_done_cases {s t : State} {b : Bool} (h : getBit s = .done b t) :
    (s.rcnt ≠ 0#4 ∧ t = { s with rbyte := s.rbyte <<< 1, rcnt := s.rcnt - 1, rpos := s.rpos + 1 }) ∨
    (s.rcnt = 0#4 ∧ ∃ v, s.src[s.spos]? = some v ∧ t = { s with
      rbyte := v <<< 1, rcnt := 7#4, spos := s.spos + 1, srcAnswers := s.srcAnswers.tail, rpos := s.rpos + 1 }) := by
  by_cases h0 : s.rcnt = 0#4
  · obtain ⟨v, hok, hv, _⟩ | ⟨_, e, hr⟩ | ⟨_, hr⟩ := srcRead_cases s
    · rw [getBit_loads h0 hok hv] at h
      cases h
      exact .inr ⟨h0, v, hv, rfl⟩
    · rw [getBit_load_raises h0 hr] at h
      cases h
    · rw [getBit, if_pos h0, hr] at h
      cases h
  · rw [getBit_held h0] at h
    cases h
    exact .inl ⟨h0, rfl⟩

/-! ## RBIT -/

theorem exec_rbit_of_done {b : Bool} {s t : State} (h : getBit s = .done b t) :
    exec .rbit s = .next (completeOk b t) := by
  simp [exec, execRbit, h, finishCommand]

theorem exec_rbit_of_raised {c : Cause} {s t : State} (h : getBit s = .raised c t) :
    exec .rbit s = .next (enterFault c t) := by
  simp [exec, execRbit, h, finishCommand]

/-- A load that fails ends RBIT with the fault of the read; the read has only taken an answer of the source. -/
theorem exec_rbit_load_raises {c : Cause} {s : State} (h : s.rcnt = 0#4)
    (hr : srcRead s = .raised c { s with srcAnswers := s.srcAnswers.tail }) :
    ∃ t, exec .rbit s = .next t ∧ CompletedFault c s t ∧
      t.rbyte = s.rbyte ∧ t.rcnt = s.rcnt ∧ t.src = s.src ∧ t.spos = s.spos ∧ t.rpos = s.rpos := by
  have hsticky : SameSticky s { s with srcAnswers := s.srcAnswers.tail } := ⟨rfl, rfl, rfl, rfl⟩
  obtain ⟨hrbyte, hrcnt, hsrc, hspos, hrpos, _⟩ := enterFault_sameReader c { s with srcAnswers := s.srcAnswers.tail }
  exact ⟨_, exec_rbit_of_raised (getBit_load_raises h hr), (enterFault_completedFault c _).of_sameSticky hsticky,
    hrbyte, hrcnt, hsrc, hspos, hrpos⟩

end Sys2Proof.Machine

namespace Sys2Proof
open Sys2Proof.Machine

/-- Settles O21, along the cases of `GetBit`: a byte loaded, the load failed, a bit held. -/
theorem rbitReturnsNextBit : Obligations.RbitReturnsNextBit := by
  refine ⟨rfl, fun s => ?_⟩
  split
  next hnone =>
    refine ⟨fun v hok hv => ⟨s.srcAnswers.tail, exec_rbit_of_done (getBit_loads hnone hok hv)⟩, fun e hr => ?_⟩
    exact exec_rbit_load_raises hnone hr
  next hheld => exact exec_rbit_of_done (getBit_held hheld)

end Sys2Proof
end

section
/-! SUPPORT. The unpacking law (41_bitreader.md R93): what `unpack` makes of a packed string, and where `n` bits read
from a byte boundary leave the source's position and the held byte. -/

namespace Sys2Proof

/-- `unpack` undoes `pack` but for the zero padding of the last byte (00_scope.md R8), eight bits at a time. -/
theorem unpack_pack (bits : Bits) :
    unpack (pack bits) = bits ++ List.replicate ((8 - bits.length % 8) % 8) false := by
  induction hn : bits.length using Nat.strong_induction_on generalizing bits with
  | _ n ih =>
    by_cases hshort : bits.length < 8
    · cases bits with
      | nil => subst hn; rfl
      | cons b rest =>
        have hpos : 0 < (b :: rest).length := Nat.succ_pos _
        have hpad : (8 - n % 8) % 8 = 8 - (b :: rest).length := by omega
        rw [pack_short hpos hshort, unpack_cons, unpack_nil, List.append_nil, bits8_packByte _ hshort, hpad]
    · have h8 : (bits.take 8).length = 8 := by rw [List.length_take]; omega
      have hrest : (bits.drop 8).length = n - 8 := by rw [List.length_drop, hn]
      have hpad : (n - 8) % 8 = n % 8 := by omega
      conv_lhs => rw [← List.take_append_drop 8 bits]
      rw [pack_append_eight h8, unpack_cons, bits8_val8 h8, ih (n - 8) (by omega) _ hrest, ← List.append_assoc,
        List.take_append_drop, hpad]

end Sys2Proof

namespace Sys2Proof.Machine

theorem getBits_succ_done {n : Nat} {bits : Bits} {s u : State} (h : getBits (n + 1) s = .done bits u) :
    ∃ b t rest, getBit s = .done b t ∧ getBits n t = .done rest u ∧ bits = b :: rest := by
  obtain ⟨b, t, hb, h⟩ := andThen_eq_done.mp h
  obtain ⟨rest, _, hrest, h⟩ := andThen_eq_done.mp h
  cases h
  exact ⟨b, t, rest, hb, hrest, rfl⟩

theorem getBits_done_src {n : Nat} {bits : Bits} {s t : State} (h : getBits n s = .done bits t) : t.src = s.src := by
  have honly := getBits_onlyReader n s
  rw [h] at honly
  exact (OnlyReader.onlyTdes honly).src

/-- A bit returned is one held no more, or one of the eight of a byte loaded. -/
theorem getBit_done_position {s t : State} {b : Bool} (h : getBit s = .done b t) :
    8 * t.spos + s.rcnt.toNat = 8 * s.spos + t.rcnt.toNat + 1 := by
  obtain ⟨hheld, rfl⟩ | ⟨hnone, v, _, rfl⟩ := getBit_done_cases h
  · have hsub : (s.rcnt - 1).toNat + 1 = s.rcnt.toNat := by bv_omega
    show 8 * s.spos + s.rcnt.toNat = 8 * s.spos + (s.rcnt - 1).toNat + 1
    omega
  · rw [hnone]
    show 8 * (s.spos + 1) + 0 = 8 * s.spos + 7 + 1
    omega

/-- `getBits` that ran to its end has returned the stream's first `n` bits, counted in bytes consumed and bits held. -/
theorem getBits_done {n : Nat} {bits : Bits} {s t : State} (hc : s.rcnt.toNat ≤ 7) (h : getBits n s = .done bits t) :
    streamBits s = bits ++ streamBits t ∧ bits.length = n ∧ t.rcnt.toNat ≤ 7 ∧
      8 * t.spos + s.rcnt.toNat = 8 * s.spos + t.rcnt.toNat + n := by
  induction n generalizing s bits with
  | zero => cases h; exact ⟨rfl, rfl, hc, rfl⟩
  | succ n ih =>
    obtain ⟨b, u, rest, hb, hrest, rfl⟩ := getBits_succ_done h
    obtain ⟨hstream, hcu, _⟩ := getBit_done (by omega) hb
    obtain ⟨hstream', hlen, hct, hpos'⟩ := ih hcu hrest
    have hpos := getBit_done_position hb
    exact ⟨by rw [hstream, hstream', List.cons_append], by rw [List.length_cons, hlen], hct, by omega⟩

/-- BR holds the last byte it consumed, shifted by the bits already taken of it (10_state.md R15). -/
def HoldsLastByte (s : State) : Prop :=
  s.rcnt.toNat ≤ 7 ∧ s.rbyte = s.src.getD (s.spos - 1) 0#8 <<< (8 - s.rcnt.toNat)

/-- After a `GetBit` BR holds the last byte consumed, whatever it held before if it had to load. -/
theorem getBit_holdsLastByte {s t : State} {b : Bool} (hs : s.rcnt = 0#4 ∨ HoldsLastByte s)
    (h : getBit s = .done b t) : HoldsLastByte t := by
  obtain ⟨hheld, rfl⟩ | ⟨_, v, hv, rfl⟩ := getBit_done_cases h
  · obtain ⟨hc, hbyte⟩ := hs.resolve_left hheld
    have hsub : (s.rcnt - 1).toNat + 1 = s.rcnt.toNat := by bv_omega
    have hshift : 8 - (s.rcnt - 1).toNat = 8 - s.rcnt.toNat + 1 := by omega
    refine ⟨show (s.rcnt - 1).toNat ≤ 7 by omega, ?_⟩
    show s.rbyte <<< 1 = s.src.getD (s.spos - 1) 0#8 <<< (8 - (s.rcnt - 1).toNat)
    rw [hshift, BitVec.shiftLeft_add, ← hbyte]
  · have hget : s.src.getD s.spos 0#8 = v := by rw [List.getD_eq_getElem?_getD, hv, Option.getD_some]
    refine ⟨show (7#4).toNat ≤ 7 by decide, ?_⟩
    show v <<< 1 = s.src.getD s.spos 0#8 <<< 1
    rw [hget]

theorem getBits_holdsLastByte {n : Nat} {bits : Bits} {s t : State} (hs : HoldsLastByte s)
    (h : getBits n s = .done bits t) : HoldsLastByte t := by
  induction n generalizing s bits with
  | zero => cases h; exact hs
  | succ n ih =>
    obtain ⟨b, u, rest, hb, hrest, _⟩ := getBits_succ_done h
    exact ih (getBit_holdsLastByte (.inr hs) hb) hrest

/-- From a byte boundary `n` bits read are the first `n` of the source's remaining bytes, and `n` says where BR stands. -/
theorem getBits_done_from_boundary {n : Nat} {bits : Bits} {s t : State} (hs : s.rcnt = 0#4)
    (h : getBits n s = .done bits t) :
    bits = (unpack (s.src.drop s.spos)).take n ∧ t.spos = s.spos + (n + 7) / 8 ∧ t.rcnt.toNat = (8 - n % 8) % 8 := by
  have h0 : s.rcnt.toNat = 0 := by rw [hs]; rfl
  obtain ⟨hstream, hlen, hct, hpos⟩ := getBits_done (by omega) h
  refine ⟨?_, by omega, by omega⟩
  rw [← streamBits_nil_held hs, hstream, List.take_left' hlen]

/-- From a byte boundary the first bit loads a byte, and from there on BR holds the last byte consumed. -/
theorem getBits_holdsLastByte_from_boundary {n : Nat} {bits : Bits} {s t : State} (hs : s.rcnt = 0#4) (hn : 0 < n)
    (h : getBits n s = .done bits t) : HoldsLastByte t := by
  obtain ⟨k, rfl⟩ := Nat.exists_eq_add_one.mpr hn
  obtain ⟨b, u, rest, hb, hrest, _⟩ := getBits_succ_done h
  exact getBits_holdsLastByte (getBit_holdsLastByte (.inl hs) hb) hrest

/-- Bytes that pack a string are read back as the string and then its padding (41_bitreader.md R93). -/
theorem getBits_of_pack {s : State} (w : Bits) (hs : s.rcnt = 0#4) (hd : SourceDelivers s)
    (hsrc : s.src.drop s.spos = pack w) :
    ∃ t u, getBits w.length s = .done w t ∧
      getBits ((8 - w.length % 8) % 8) t = .done (List.replicate ((8 - w.length % 8) % 8) false) u := by
  have hc : s.rcnt.toNat ≤ 8 := by rw [hs]; decide
  have hstream : streamBits s = w ++ List.replicate ((8 - w.length % 8) % 8) false := by
    rw [streamBits_nil_held hs, hsrc, unpack_pack]
  obtain ⟨t, hw, htstream, htd, htc, _⟩ := getBits_delivers w _ hd hc hstream
  obtain ⟨u, hpad, _⟩ := getBits_delivers _ [] htd htc (htstream.trans (List.append_nil _).symm)
  rw [List.length_replicate] at hpad
  exact ⟨t, u, hw, hpad⟩

end Sys2Proof.Machine

namespace Sys2Proof
open Sys2Proof.Machine

/-- Settles O23: the bits, `SPOS` and `RCNT` by counting bits from the boundary; `RBYTE` because BR holds the last byte
consumed once one bit is read; a packed string by `unpack_pack`. -/
theorem bytesAreUnpacked : Obligations.BytesAreUnpacked := by
  intro s hs
  refine ⟨fun n bits t h => ?_, fun w hd hsrc => getBits_of_pack w hs hd hsrc⟩
  obtain ⟨hbits, hspos, hrcnt⟩ := getBits_done_from_boundary hs h
  refine ⟨hbits, hspos, hrcnt, fun hn => ?_⟩
  obtain ⟨_, hbyte⟩ := getBits_holdsLastByte_from_boundary hs hn h
  rw [hbyte, getBits_done_src h]

end Sys2Proof
end

section
/-! SUPPORT. The laws of the tree codec (42_treecodec.md R102 to R104): how long a serialisation is, what the parser
answers, and that a bit string begins with at most one serialisation. -/

namespace Sys2Proof.Machine

/-- The placeholder frequencies meet the frequency invariant (42_treecodec.md R103). -/
@[simp] theorem treeFreqInvariant_placeholder (t : Tree) : treeFreqInvariant (treePlaceholder t) = true := by
  induction t with
  | leaf sym f => rfl
  | internal f l r ihl ihr => simp [treePlaceholder, treeFreqInvariant, ihl, ihr]

/-- The parser's equation for a Leaf (42_treecodec.md R103). -/
theorem des_leaf (s : Bits) :
    des (true :: s) = if s.length < 8 then none else some (.leaf (val8 (s.take 8)) 1, s.drop 8) := rfl

/-- Two strings that begin with serialisations and are equal have the same tree in front, up to frequencies, and the same
rest: the parser answers only one of each. -/
theorem ser_append_inj {t u : Tree} {x y : Bits} (h : ser t ++ x = ser u ++ y) :
    treePlaceholder t = treePlaceholder u ∧ x = y := by
  have hdes : some (treePlaceholder t, x) = some (treePlaceholder u, y) := by rw [← des_ser t x, h, des_ser u y]
  exact Prod.mk.inj (Option.some.inj hdes)

/-- Trees that agree up to frequencies have the same shape. -/
theorem treeShape_eq_of_placeholder_eq {t u : Tree} (h : treePlaceholder t = treePlaceholder u) :
    treeShape t = treeShape u := by
  rw [← treeShape_placeholder t, h, treeShape_placeholder]

end Sys2Proof.Machine

namespace Sys2Proof
open Sys2Proof.Machine

/-- Settles O27: the round trip is `des_ser`, its converse `des_sound`; both read together leave a string one serialisation
to begin with, whence prefix freedom. -/
theorem serialiseDeserialiseRoundTrip : Obligations.SerialiseDeserialiseRoundTrip := by
  refine ⟨fun t x => ?_, fun s x t h => (des_sound h).1, fun t u x h => ?_⟩
  · exact ⟨treePlaceholder t, des_ser t x, treeShape_placeholder t, rfl⟩
  · obtain ⟨htree, hrest⟩ := ser_append_inj (h.trans (List.append_nil _).symm)
    exact ⟨hrest, treeShape_eq_of_placeholder_eq htree⟩

/-- Settles O25: every instance is arithmetic on the length law, `ser_length_add_one`. -/
theorem serialisedLength : Obligations.SerialisedLength := by
  intro t
  have hlaw := ser_length_add_one t
  have hpos := treeLeaves_pos t
  rw [pack_length]
  omega

/-- Settles O26: the equations by `des_leaf` and `des_internal`; the rest by `des_sound`, which makes the answer a tree with
placeholder frequencies. -/
theorem desFollowsItsEquations : Obligations.DesFollowsItsEquations := by
  refine ⟨rfl, des_leaf, des_internal, fun s x t h => ?_⟩
  obtain ⟨hser, hplaceholder⟩ := des_sound h
  refine ⟨hplaceholder.symm, ?_, ?_, hser⟩
  · rw [← hplaceholder, treeFreq_placeholder, treeLeaves_placeholder]
  · rw [← hplaceholder, treeFreqInvariant_placeholder]

end Sys2Proof
end

section
/-! SUPPORT. What a TDES leaves whose bits begin with a tree that fits (42_treecodec.md R107, R109, R110). -/

namespace Sys2Proof.Machine

theorem exec_tdes_of_done {i : Index} {s u : State} (h : desNode traversalFuel { s with tnodes := 0#10 } = .done i u) :
    exec .tdes s = .next (completeOk false u) := by
  simp [exec, execTdes, h, finishTdes]

/-- A completion writes no entry. -/
@[simp] theorem preorderImage_completeOk (v : Bool) (s : State) (t : Tree) (i : Nat) :
    PreorderImage (completeOk v s) t i = PreorderImage s t i := by
  induction t generalizing i with
  | leaf sym f => rfl
  | internal f l r ihl ihr => simp only [PreorderImage, ihl, ihr]; rfl

/-- TDES reads the tree its bits begin with from entry 0 on, when it fits, and completes `OK` (42_treecodec.md R107). -/
theorem exec_tdes_reads {t : Tree} {rest : Bits} {s : State} (hd : SourceDelivers s) (hc : s.rcnt.toNat ≤ 8)
    (hs : streamBits s = ser t ++ rest) (hcap : treeNodes t ≤ Config.nodeCap) :
    ∃ u, exec .tdes s = .next (completeOk false u) ∧ ReadsTree t rest { s with tnodes := 0#10 } u := by
  have hroom : (0#10).toNat + treeNodes t ≤ Config.nodeCap := (Nat.zero_add _).trans_le hcap
  obtain ⟨u, hrun, hreads⟩ := desNode_reads t (s := { s with tnodes := 0#10 }) (n := traversalFuel) hd hc hs
    (Nat.le_refl _) hroom
  exact ⟨u, exec_tdes_of_done hrun, hreads⟩

/-- A tree that fits into `TMEM` has at most 256 leaves (42_treecodec.md R110). -/
theorem treeLeaves_le_of_fits {t : Tree} (h : treeNodes t ≤ Config.nodeCap) : treeLeaves t ≤ 256 := by
  have hnodes := treeNodes_add_one t
  have hcap : treeNodes t ≤ 511 := h
  omega

end Sys2Proof.Machine

namespace Sys2Proof
open Sys2Proof.Machine

/-- Settles O34: `exec_tdes_reads` gives the pre-order image from entry 0, which the completion keeps. -/
theorem tdesAllocatesInPreorder : Obligations.TdesAllocatesInPreorder := by
  intro t rest s hd hc hdes hcap
  obtain ⟨u, hrun, hreads⟩ := exec_tdes_reads hd hc (des_sound hdes).1 hcap
  exact ⟨completeOk false u, hrun, (preorderImage_completeOk false u t 0).trans hreads.image,
    treeLeaves_le_of_fits hcap⟩

end Sys2Proof
end

section
/-! SUPPORT. The reset input (70_reset_and_hazards.md R190, R191): what it performs, and the register words it leaves. -/

namespace Sys2Proof.Machine

theorem perform_reset (s : State) : perform .reset s = .next (resetBlock s) := rfl

/-- No counter and no sticky bit is left for `STATUS` to show (10_state.md R18). -/
@[simp] theorem statusWord_resetBlock (s : State) : statusWord (resetBlock s) = 0#32 := by
  simp only [statusWord, resetBlock_wcnt, resetBlock_rcnt, resetBlock_wErr, resetBlock_rErr, resetBlock_tErr,
    resetBlock_cErr]
  decide

/-- `RESULT` is `{OK, 0}`, and the number of `OK` is 0 (10_state.md R19, 60_exceptions.md R161). -/
@[simp] theorem resultWord_resetBlock (s : State) : resultWord (resetBlock s) = 0#32 := by
  simp only [resultWord, resetBlock_code, resetBlock_value]
  decide

end Sys2Proof.Machine

namespace Sys2Proof
open Sys2Proof.Machine

/-- Settles O4: the state is `resetBlock s`; its fields by their laws, its `STATUS` and `RESULT` by the two lemmas above. -/
theorem resetClearsRegisters : Obligations.ResetClearsRegisters := by
  intro s
  refine ⟨resetBlock s, perform_reset s, ?_⟩
  simp

end Sys2Proof
end

section
/-! SUPPORT. The two decoders and their encoders agree (30_encoding.md R60 to R66). -/

namespace Sys2Proof

theorem decode_encode (i : Instr) : decode (encode i) = some i := by
  cases i with
  | wbit b => exact (Laws.RoundTrip.wbit b).2
  | wflush => exact Laws.RoundTrip.wflush.2
  | rbit => exact Laws.RoundTrip.rbit.2
  | tser => exact Laws.RoundTrip.tser.2
  | tdes => exact Laws.RoundTrip.tdes.2
  | tok0 => exact Laws.RoundTrip.tok0.2
  | tok1 sym => exact (Laws.RoundTrip.tok1 sym).2

/-- The zero-extended command word of a command decodes to it (30_encoding.md R61, R62). -/
theorem decodeCommand_of_encodeCommand {i : Instr} {cw : BitVec 8} (h : encodeCommand i = some cw) :
    decodeCommand (cw.setWidth 32) = .ok i := by
  cases i with
  | wbit b => obtain rfl := Option.some.inj h; cases b <;> rfl
  | wflush | rbit | tser | tdes => obtain rfl := Option.some.inj h; rfl
  | tok0 | tok1 sym => cases h

theorem decodeCommand_eq_ok_iff (w : BitVec 32) (i : Instr) :
    decodeCommand w = .ok i ↔ ∃ cw, encodeCommand i = some cw ∧ w = cw.setWidth 32 := by
  refine ⟨encodeCommand_of_decodeCommand_ok, ?_⟩
  rintro ⟨cw, hcw, rfl⟩
  exact decodeCommand_of_encodeCommand hcw

/-- The bits of a token, whatever follows them, decode to it and leave what follows (30_encoding.md R66). -/
theorem decodeToken_of_encodeToken {i : Instr} {tb : Bits} (h : encodeToken i = some tb) (rest : Bits) :
    decodeToken (tb ++ rest) = some (i, rest) := by
  cases i with
  | tok0 => obtain rfl := Option.some.inj h; rfl
  | tok1 sym =>
    obtain rfl := Option.some.inj h
    have hlong : ¬ (bits8 sym ++ rest).length < 8 := by simp
    rw [List.cons_append, decodeToken, if_neg hlong, take_eight_bits8, drop_eight_bits8, val8_bits8]
  | wbit | wflush | rbit | tser | tdes => cases h

/-- Bits that decode begin with the bits of the token they decode to (30_encoding.md R64 to R66). -/
theorem encodeToken_of_decodeToken {bits rest : Bits} {i : Instr} (h : decodeToken bits = some (i, rest)) :
    ∃ tb, encodeToken i = some tb ∧ bits = tb ++ rest := by
  match bits with
  | [] => cases h
  | false :: more => cases h; exact ⟨[false], rfl, rfl⟩
  | true :: more =>
    rw [decodeToken] at h
    split at h
    next => cases h
    next hlong =>
      cases h
      have h8 : (more.take 8).length = 8 := by rw [List.length_take]; omega
      exact ⟨_, rfl, by rw [bits8_val8 h8, List.cons_append, List.take_append_drop]⟩

end Sys2Proof

namespace Sys2Proof

/-- Settles O1: each constructor's round trip, and for both decoders the converse, that what decodes is an encoding. -/
theorem encodeDecodeAgree : Obligations.EncodeDecodeAgree := by
  refine ⟨decode_encode, decodeCommand_eq_ok_iff, fun bits rest i => ⟨encodeToken_of_decodeToken, ?_⟩⟩
  rintro ⟨tb, htb, rfl⟩
  exact decodeToken_of_encodeToken htb rest

/-- Settles O2: the words are the encodings of the table, which decode. -/
theorem wordsOfTheTableDecode : Obligations.WordsOfTheTableDecode :=
  ⟨rfl, rfl, rfl, rfl, rfl, rfl, decodeToken_of_encodeToken (i := .tok0) rfl [true, true],
    decodeToken_of_encodeToken (i := .tok1 0x61#8) rfl [false]⟩

end Sys2Proof
end

section
/-! SUPPORT. What every piece of a command keeps, said once: a predicate on states that the operations on the registers, the
streams and TMEM keep is kept by every traversal, command, host action and step, and says how each of them may end. -/

namespace Sys2Proof.Machine

/-- How a piece of a command ends: in a state that satisfies `P`, by a fault that satisfies `C` if it raises one, or at a
transaction never answered, of a kind that satisfies `Q`. -/
def ResHolds {α : Type} (P : State → Prop) (C : Cause → Prop) (Q : Fault → Prop) (r : Res α) : Prop :=
  match r with
  | .done _ t => P t
  | .raised c t => P t ∧ C c
  | .stuck f => Q f

/-- How a step ends: in a state that satisfies `P`, or stuck as `Q` says; never refused. -/
def OutcomeHolds (P : State → Prop) (Q : Fault → Prop) (o : Host.Outcome State Fault Refusal) : Prop :=
  match o with
  | .next t => P t
  | .fault f => Q f
  | .refused _ => False

section
variable {P : State → Prop} {C : Cause → Prop} {Q : Fault → Prop}

theorem resHolds_andThen {α β : Type} {r : Res α} {f : α → State → Res β} (h : ResHolds P C Q r)
    (hf : ∀ a t, r = .done a t → P t → ResHolds P C Q (f a t)) : ResHolds P C Q (andThen r f) := by
  cases r with
  | done a t => exact hf a t rfl h
  | raised c t => exact h
  | stuck e => exact h

/-! ## The writer's side -/

theorem putBits_keeps (hput : ∀ b s, P s → ResHolds P C Q (putBit b s)) (bits : Bits) {s : State} (hs : P s) :
    ResHolds P C Q (putBits bits s) := by
  induction bits generalizing s with
  | nil => exact hs
  | cons b rest ih => exact resHolds_andThen (hput b s hs) fun _ t _ ht => ih ht

theorem serNode_keeps (hput : ∀ b s, P s → ResHolds P C Q (putBit b s)) (hinv : C .treeInvariant) (fuel : Nat) (i : Index)
    (visits : Nat) {s : State} (hs : P s) : ResHolds P C Q (serNode fuel i visits s) := by
  induction fuel generalizing i visits s with
  | zero => exact ⟨hs, hinv⟩
  | succ n ih =>
    unfold serNode
    split
    next => exact ⟨hs, hinv⟩
    next =>
      split
      next => exact ⟨hs, hinv⟩
      next =>
        split
        next => exact resHolds_andThen (putBits_keeps hput _ hs) fun _ _ _ ht => ht
        next =>
          refine resHolds_andThen (putBits_keeps hput _ hs) fun _ t _ ht => ?_
          exact resHolds_andThen (ih _ _ ht) fun _ u _ hu => ih _ _ hu

/-! ## The reader's side -/

/-- `P` is kept by what TDES is made of: reading a bit, claiming an entry, writing a word of TMEM. -/
structure KeptByTdes (P : State → Prop) (C : Cause → Prop) (Q : Fault → Prop) : Prop where
  getBit : ∀ s, P s → ResHolds P C Q (getBit s)
  claim : ∀ s, P s → P (claimEntry s)
  write : ∀ a w s, isTmemAddr a = true → P s → P (tmemWrite a w s)
  capacity : C .treeCapacity

theorem getBitsInto_keeps (hget : ∀ s, P s → ResHolds P C Q (getBit s)) (n : Nat) (acc : BitVec 8) {s : State} (hs : P s) :
    ResHolds P C Q (getBitsInto n acc s) := by
  induction n generalizing acc s with
  | zero => exact hs
  | succ k ih => exact resHolds_andThen (hget s hs) fun _ t _ ht => ih _ ht

theorem allocEntry_keeps (hP : KeptByTdes P C Q) {s : State} (hs : P s) : ResHolds P C Q (allocEntry s) := by
  unfold allocEntry
  split
  next => exact ⟨hs, hP.capacity⟩
  next => exact hP.claim s hs

/-- An entry that was allocated is one of `TMEM`'s 511. -/
theorem allocEntry_index {s t : State} {i : Index} (h : allocEntry s = .done i t) : i.toNat < Config.nodeCap := by
  unfold allocEntry at h
  split at h
  next => cases h
  next hfree =>
    cases h
    rw [BitVec.toNat_setWidth]
    exact (Nat.mod_le _ _).trans_lt (Nat.not_le.mp hfree)

theorem isTmemAddr_entryAddr {i : Nat} (h : i < Config.nodeCap) :
    isTmemAddr (entryAddr i) = true ∧ isTmemAddr (entryAddr i + 1) = true := by
  simp only [isTmemAddr, Bool.and_eq_true, decide_eq_true_eq]
  simp only [Config.nodeCap, entryAddr, Config.tmemBase] at h ⊢
  omega

theorem entryWrite_keeps (hwrite : ∀ a w s, isTmemAddr a = true → P s → P (tmemWrite a w s)) {i : Index}
    (hi : i.toNat < Config.nodeCap) (tag : Bool) (sym : BitVec 8) (l r : Index) (f : BitVec 32) {s : State} (hs : P s) :
    P (entryWrite i tag sym l r f s) := by
  obtain ⟨h0, h1⟩ := isTmemAddr_entryAddr hi
  exact hwrite _ _ _ h1 (hwrite _ _ _ h0 hs)

theorem desNode_keeps (hP : KeptByTdes P C Q) (fuel : Nat) {s : State} (hs : P s) : ResHolds P C Q (desNode fuel s) := by
  induction fuel generalizing s with
  | zero => exact ⟨hs, hP.capacity⟩
  | succ n ih =>
    refine resHolds_andThen (hP.getBit s hs) fun tag t _ ht => ?_
    refine resHolds_andThen (allocEntry_keeps hP ht) fun i u hi hu => ?_
    split
    next =>
      refine resHolds_andThen (getBitsInto_keeps hP.getBit 8 0#8 hu) fun sym v _ hv => ?_
      exact entryWrite_keeps hP.write (allocEntry_index hi) _ _ _ _ _ hv
    next =>
      refine resHolds_andThen (ih hu) fun l v _ hv => ?_
      refine resHolds_andThen (ih hv) fun r w _ hw => ?_
      exact entryWrite_keeps hP.write (allocEntry_index hi) _ _ _ _ _ hw

theorem openInternal_keeps (hP : KeptByTdes P C Q) {s : State} (hs : P s) : ResHolds P C Q (openInternal s) := by
  refine resHolds_andThen (allocEntry_keeps hP hs) fun i t hi ht => ?_
  refine resHolds_andThen (desNode_keeps hP _ ht) fun l u _ hu => ?_
  refine resHolds_andThen (desNode_keeps hP _ hu) fun r v _ hv => ?_
  exact entryWrite_keeps hP.write (allocEntry_index hi) _ _ _ _ _ hv

theorem storeLeaf_keeps (hP : KeptByTdes P C Q) (sym : BitVec 8) {s : State} (hs : P s) :
    ResHolds P C Q (storeLeaf sym s) :=
  resHolds_andThen (allocEntry_keeps hP hs) fun _ _ hi ht => entryWrite_keeps hP.write (allocEntry_index hi) _ _ _ _ _ ht

end

/-! ## Commands, host actions and steps -/

/-- `P` is kept by all that a step is made of but the reset input, a transaction never answered being as `Q` says. -/
structure KeptByActions (P : State → Prop) (Q : Fault → Prop) : Prop where
  snkWrite : ∀ v s, P s → ResHolds P (fun _ => True) Q (snkWrite v s)
  srcRead : ∀ s, P s → ResHolds P (fun _ => True) Q (srcRead s)
  putBit : ∀ b s, P s → ResHolds P (fun _ => True) Q (putBit b s)
  flushPending : ∀ s, P s → ResHolds P (fun _ => True) Q (flushPending s)
  tdes : KeptByTdes P (fun _ => True) Q
  clearTnodes : ∀ s, P s → P { s with tnodes := 0#10 }
  completeOk : ∀ v s, P s → P (completeOk v s)
  enterFault : ∀ c s, P s → P (enterFault c s)
  loseTree : ∀ s, P s → P (loseTree s)
  reply : ∀ r s, P s → P { s with reply := r }
  takeAction : ∀ rest s, P s → P (takeAction rest s)

section
variable {P : State → Prop} {C : Cause → Prop} {Q : Fault → Prop} (hP : KeptByActions P Q)
include hP

theorem finishCommand_keeps {r : Res Bool} (h : ResHolds P C Q r) : OutcomeHolds P Q (finishCommand r) := by
  cases r with
  | done v t => exact hP.completeOk v t h
  | raised c t => exact hP.enterFault c t h.1
  | stuck f => exact h

theorem finishTdes_keeps {r : Res Index} (h : ResHolds P C Q r) : OutcomeHolds P Q (finishTdes r) := by
  cases r with
  | done i t => exact hP.completeOk false t h
  | raised c t => exact hP.enterFault c _ (hP.loseTree t h.1)
  | stuck f => exact h

theorem finishToken_keeps {r : Res Index} (h : ResHolds P C Q r) : OutcomeHolds P Q (finishToken r) := by
  cases r with
  | done i t => exact h
  | raised c t => exact hP.enterFault c _ (hP.loseTree t h.1)
  | stuck f => exact h

theorem exec_keeps (i : Instr) {s : State} (hs : P s) : OutcomeHolds P Q (exec i s) := by
  cases i with
  | wbit b => exact finishCommand_keeps hP (resHolds_andThen (hP.putBit b s hs) fun _ _ _ ht => ht)
  | wflush => exact finishCommand_keeps hP (resHolds_andThen (hP.flushPending s hs) fun _ _ _ ht => ht)
  | rbit => exact finishCommand_keeps hP (hP.tdes.getBit s hs)
  | tser => exact finishCommand_keeps hP (resHolds_andThen (serNode_keeps hP.putBit trivial _ _ _ hs) fun _ _ _ ht => ht)
  | tdes => exact finishTdes_keeps hP (desNode_keeps hP.tdes _ (hP.clearTnodes s hs))
  | tok0 => exact finishToken_keeps hP (openInternal_keeps hP.tdes hs)
  | tok1 sym => exact finishToken_keeps hP (storeLeaf_keeps hP.tdes sym hs)

theorem portWrite_keeps (a : PortAddr) (w : BitVec 32) {s : State} (hs : P s) : OutcomeHolds P Q (portWrite a w s) := by
  unfold portWrite
  split
  next =>
    unfold issueCommand
    split
    next i _ => exact exec_keeps hP i hs
    next => exact hP.enterFault _ s hs
  next =>
    split
    next ha => exact hP.tdes.write _ w s ha hs
    next => exact hs

theorem perform_keeps {act : HostAction} (hreset : act = .reset → ∀ s, P s → P (resetBlock s)) {s : State} (hs : P s) :
    OutcomeHolds P Q (perform act s) := by
  cases act with
  | write a w => exact portWrite_keeps hP a w hs
  | read a => exact hP.reply _ s hs
  | sinkByte v =>
    have h := hP.snkWrite v s hs
    show OutcomeHolds P Q (hostSinkByte v s)
    unfold hostSinkByte
    cases hw : snkWrite v s <;> rw [hw] at h
    case done => exact h
    case raised => exact hP.reply _ _ h.1
    case stuck => exact h
  | sourceByte =>
    have h := hP.srcRead s hs
    show OutcomeHolds P Q (hostSourceByte s)
    unfold hostSourceByte
    cases hr : srcRead s <;> rw [hr] at h
    case done => exact hP.reply _ _ h
    case raised => exact hP.reply _ _ h.1
    case stuck => exact h
  | reset => exact hreset rfl s hs

/-- A step keeps what its parts keep; of the reset input only where it is the host's next action. -/
theorem step_keeps {s : State} (hreset : s.host.head? = some .reset → ∀ s, P s → P (resetBlock s)) (hs : P s) :
    OutcomeHolds P Q (step s) := by
  unfold step
  cases hh : s.host with
  | nil => exact hs
  | cons act rest => exact perform_keeps hP (fun ha => hreset (by rw [hh, ha]; rfl)) (hP.takeAction rest s hs)

end

end Sys2Proof.Machine
end

section
/-! SUPPORT. What every step keeps: the streams answer, the streams only advance, a sticky bit once set, the machine's
invariant. Each follows by `step_keeps`. -/

namespace Sys2Proof.Machine

/-! ## Predicates on the streams alone -/

/-- The streams and their coming answers are as before. -/
structure SameStreams (s t : State) : Prop where
  snk : t.snk = s.snk
  src : t.src = s.src
  spos : t.spos = s.spos
  snkAnswers : t.snkAnswers = s.snkAnswers
  srcAnswers : t.srcAnswers = s.srcAnswers

/-- The three parts of a command that touch no register of BW: what `PutBit` adds to `SnkWrite` is BW's registers. -/
theorem putBit_keeps_of_snkWrite {P : State → Prop} {C : Cause → Prop} {Q : Fault → Prop} (b : Bool) {s : State}
    (hregs : ∀ t wacc wcnt wpos, P t → P { t with wacc := wacc, wcnt := wcnt, wpos := wpos })
    (hsnk : ∀ v, ResHolds P C Q (snkWrite v s)) (hs : P s) : ResHolds P C Q (putBit b s) := by
  unfold putBit
  split
  next => exact hregs s _ _ _ hs
  next => exact resHolds_andThen (hsnk _) fun _ t _ ht => hregs t _ _ _ ht

theorem flushPending_keeps_of_snkWrite {P : State → Prop} {C : Cause → Prop} {Q : Fault → Prop} {s : State}
    (hregs : ∀ t wacc wcnt wpos, P t → P { t with wacc := wacc, wcnt := wcnt, wpos := wpos })
    (hsnk : ∀ v, ResHolds P C Q (snkWrite v s)) (hs : P s) : ResHolds P C Q (flushPending s) := by
  unfold flushPending
  split
  next => exact hs
  next => exact resHolds_andThen (hsnk _) fun _ t _ ht => hregs t _ _ t.wpos ht

theorem getBit_keeps_of_srcRead {P : State → Prop} {C : Cause → Prop} {Q : Fault → Prop} {s : State}
    (hregs : ∀ t rbyte rcnt rpos, P t → P { t with rbyte := rbyte, rcnt := rcnt, rpos := rpos })
    (hsrc : ResHolds P C Q (srcRead s)) (hs : P s) : ResHolds P C Q (getBit s) := by
  unfold getBit
  split
  next => exact resHolds_andThen hsrc fun _ t _ ht => hregs t _ _ _ ht
  next => exact hregs s _ _ _ hs

/-- A predicate on the streams that both primitives keep is kept by every action of the host. -/
theorem keptByActions_of_streams {P : State → Prop} {Q : Fault → Prop} (hcongr : ∀ s t, SameStreams s t → P s → P t)
    (hsnk : ∀ v s, P s → ResHolds P (fun _ => True) Q (snkWrite v s))
    (hsrc : ∀ s, P s → ResHolds P (fun _ => True) Q (srcRead s)) : KeptByActions P Q where
  snkWrite := hsnk
  srcRead := hsrc
  putBit b s hs := putBit_keeps_of_snkWrite b (fun t _ _ _ => hcongr t _ ⟨rfl, rfl, rfl, rfl, rfl⟩) (fun v => hsnk v s hs) hs
  flushPending s hs :=
    flushPending_keeps_of_snkWrite (fun t _ _ _ => hcongr t _ ⟨rfl, rfl, rfl, rfl, rfl⟩) (fun v => hsnk v s hs) hs
  tdes :=
    { getBit := fun s hs =>
        getBit_keeps_of_srcRead (fun t _ _ _ => hcongr t _ ⟨rfl, rfl, rfl, rfl, rfl⟩) (hsrc s hs) hs
      claim := fun s => hcongr s _ ⟨rfl, rfl, rfl, rfl, rfl⟩
      write := fun _ _ s _ => hcongr s _ ⟨rfl, rfl, rfl, rfl, rfl⟩
      capacity := trivial }
  clearTnodes s := hcongr s _ ⟨rfl, rfl, rfl, rfl, rfl⟩
  completeOk _ s := hcongr s _ ⟨rfl, rfl, rfl, rfl, rfl⟩
  enterFault c s := hcongr s _ ⟨by simp, by simp, by simp, by simp, by simp⟩
  loseTree s := hcongr s _ ⟨rfl, rfl, rfl, rfl, rfl⟩
  reply _ s := hcongr s _ ⟨rfl, rfl, rfl, rfl, rfl⟩
  takeAction _ s := hcongr s _ ⟨rfl, rfl, rfl, rfl, rfl⟩

/-! ## The streams answer -/

theorem streamsAnswer_congr (s t : State) (h : SameStreams s t) (hs : StreamsAnswer s) : StreamsAnswer t := by
  rw [StreamsAnswer, h.snkAnswers, h.srcAnswers]
  exact hs

theorem snkWrite_streamsAnswer (v : BitVec 8) (s : State) (hs : StreamsAnswer s) :
    ResHolds StreamsAnswer (fun _ => True) (fun _ => False) (snkWrite v s) := by
  have htail : StreamsAnswer { s with snkAnswers := s.snkAnswers.tail } := ⟨fun h => hs.1 (List.mem_of_mem_tail h), hs.2⟩
  obtain ⟨_, hw⟩ | ⟨e, _, hw⟩ | ⟨hnever, _⟩ := snkWrite_cases v s
  · rw [hw]; exact htail
  · rw [hw]; exact ⟨htail, trivial⟩
  · exact absurd hnever (nextAnswer_ne_never hs.1)

theorem srcRead_streamsAnswer (s : State) (hs : StreamsAnswer s) :
    ResHolds StreamsAnswer (fun _ => True) (fun _ => False) (srcRead s) := by
  have htail : StreamsAnswer { s with srcAnswers := s.srcAnswers.tail } := ⟨hs.1, fun h => hs.2 (List.mem_of_mem_tail h)⟩
  obtain ⟨v, _, _, hr⟩ | ⟨_, e, hr⟩ | ⟨hnever, _⟩ := srcRead_cases s
  · rw [hr]; exact htail
  · rw [hr]; exact ⟨htail, trivial⟩
  · exact absurd hnever (nextAnswer_ne_never hs.2)

theorem streamsAnswer_keptByActions : KeptByActions StreamsAnswer (fun _ => False) :=
  keptByActions_of_streams streamsAnswer_congr snkWrite_streamsAnswer srcRead_streamsAnswer

/-! ## The streams only advance -/

/-- From `s` to `t` the sink has only gained bytes, and the source's position has only gone forward, not past its end. -/
structure StreamsAdvance (s t : State) : Prop where
  snk : s.snk <+: t.snk
  src : t.src = s.src
  spos : s.spos ≤ t.spos
  bounded : s.spos ≤ s.src.length → t.spos ≤ t.src.length

theorem StreamsAdvance.refl (s : State) : StreamsAdvance s s := ⟨List.prefix_rfl, rfl, Nat.le_refl _, id⟩

theorem streamsAdvance_congr (s : State) (t u : State) (h : SameStreams t u) (ht : StreamsAdvance s t) :
    StreamsAdvance s u := by
  obtain ⟨hsnk, hsrc, hspos, hbounded⟩ := ht
  exact ⟨h.snk ▸ hsnk, h.src.trans hsrc, h.spos ▸ hspos, by rw [h.spos, h.src]; exact hbounded⟩

theorem snkWrite_streamsAdvance (s : State) (v : BitVec 8) (t : State) (ht : StreamsAdvance s t) :
    ResHolds (StreamsAdvance s) (fun _ => True) (fun _ => True) (snkWrite v t) := by
  obtain ⟨hsnk, hsrc, hspos, hbounded⟩ := ht
  obtain ⟨_, hw⟩ | ⟨e, _, hw⟩ | ⟨_, hw⟩ := snkWrite_cases v t <;> rw [hw]
  · exact ⟨hsnk.trans (List.prefix_append _ _), hsrc, hspos, hbounded⟩
  · exact ⟨⟨hsnk, hsrc, hspos, hbounded⟩, trivial⟩
  · trivial

theorem srcRead_streamsAdvance (s t : State) (ht : StreamsAdvance s t) :
    ResHolds (StreamsAdvance s) (fun _ => True) (fun _ => True) (srcRead t) := by
  obtain ⟨hsnk, hsrc, hspos, hbounded⟩ := ht
  obtain ⟨v, _, hv, hr⟩ | ⟨_, e, hr⟩ | ⟨_, hr⟩ := srcRead_cases t <;> rw [hr]
  · exact ⟨hsnk, hsrc, Nat.le_succ_of_le hspos, fun _ => (List.getElem?_eq_some_iff.mp hv).1⟩
  · exact ⟨⟨hsnk, hsrc, hspos, hbounded⟩, trivial⟩
  · trivial

theorem streamsAdvance_keptByActions (s : State) : KeptByActions (StreamsAdvance s) (fun _ => True) :=
  keptByActions_of_streams (streamsAdvance_congr s) (snkWrite_streamsAdvance s) (srcRead_streamsAdvance s)

theorem step_streamsAdvance {s t : State} (h : step s = .next t) : StreamsAdvance s t := by
  have hstep := step_keeps (streamsAdvance_keptByActions s)
    (fun _ u hu => streamsAdvance_congr s u _ ⟨rfl, rfl, rfl, rfl, rfl⟩ hu) (StreamsAdvance.refl s)
  rwa [h] at hstep

/-! ## Sticky bits -/

/-- Every sticky bit set in `s` is set in `t`. -/
structure StickyKept (s t : State) : Prop where
  wErr : s.wErr = true → t.wErr = true
  rErr : s.rErr = true → t.rErr = true
  tErr : s.tErr = true → t.tErr = true
  cErr : s.cErr = true → t.cErr = true

theorem StickyKept.of_sameSticky {s t u : State} (ht : StickyKept s t) (h : SameSticky t u) : StickyKept s u :=
  ⟨fun hs => h.wErr.trans (ht.wErr hs), fun hs => h.rErr.trans (ht.rErr hs), fun hs => h.tErr.trans (ht.tErr hs),
    fun hs => h.cErr.trans (ht.cErr hs)⟩

/-- Fault entry sets a sticky bit and clears none (60_exceptions.md R163, R166). -/
theorem StickyKept.enterFault {s t : State} (ht : StickyKept s t) (c : Cause) : StickyKept s (enterFault c t) := by
  obtain ⟨hw, hr, ht, hc⟩ := ht
  constructor <;> intro hs <;> simp [hw, hr, ht, hc, hs]

theorem resHolds_of_resAll {α : Type} {P R : State → Prop} {r : Res α} (h : ResAll R r) (hP : ∀ t, R t → P t) :
    ResHolds P (fun _ => True) (fun _ => True) r := by
  cases r with
  | done a t => exact hP t h
  | raised c t => exact ⟨hP t h, trivial⟩
  | stuck e => trivial

theorem OnlyReader.sameSticky {s t : State} (h : OnlyReader s t) : SameSticky s t := h.onlyTdes.sameSticky

theorem stickyKept_keptByActions (s : State) : KeptByActions (StickyKept s) (fun _ => True) where
  snkWrite v t ht := resHolds_of_resAll (snkWrite_onlyWriter v t) fun _ h => ht.of_sameSticky h.sameSticky
  srcRead t ht := resHolds_of_resAll (srcRead_onlyReader t) fun _ h => ht.of_sameSticky h.sameSticky
  putBit b t ht := resHolds_of_resAll (putBit_onlyWriter b t) fun _ h => ht.of_sameSticky h.sameSticky
  flushPending t ht := resHolds_of_resAll (flushPending_onlyWriter t) fun _ h => ht.of_sameSticky h.sameSticky
  tdes :=
    { getBit := fun t ht => resHolds_of_resAll (getBit_onlyReader t) fun _ h => ht.of_sameSticky h.sameSticky
      claim := fun _ ht => ht.of_sameSticky ⟨rfl, rfl, rfl, rfl⟩
      write := fun _ _ _ _ ht => ht.of_sameSticky ⟨rfl, rfl, rfl, rfl⟩
      capacity := trivial }
  clearTnodes _ ht := ht.of_sameSticky ⟨rfl, rfl, rfl, rfl⟩
  completeOk _ _ ht := ht.of_sameSticky ⟨rfl, rfl, rfl, rfl⟩
  enterFault c _ ht := ht.enterFault c
  loseTree _ ht := ht.of_sameSticky ⟨rfl, rfl, rfl, rfl⟩
  reply _ _ ht := ht.of_sameSticky ⟨rfl, rfl, rfl, rfl⟩
  takeAction _ _ ht := ht.of_sameSticky ⟨rfl, rfl, rfl, rfl⟩

/-! ## The invariant of the machine -/

theorem State.Inv.of_onlyWriter {s t : State} (hs : s.Inv) (h : OnlyWriter s t) (hw : WriterInv t = true) : t.Inv := by
  obtain ⟨_, hr, hm, hp⟩ := hs
  refine ⟨hw, ?_⟩
  rw [h]
  exact ⟨hr, hm, hp⟩

theorem State.Inv.of_onlyReader {s t : State} (hs : s.Inv) (h : OnlyReader s t) (hr : ReaderInv t = true)
    (hp : SourceInv t = true) : t.Inv := by
  obtain ⟨hw, _, hm, _⟩ := hs
  refine ⟨?_, hr, ?_, hp⟩ <;> rw [h]
  · exact hw
  · exact hm

/-- A bit put below the written ones leaves zeros below it (10_state.md R14). -/
theorem accWithBit_shiftLeft (b : Bool) {s : State} (h : s.wcnt.toNat < 7) :
    accWithBit b s <<< (s.wcnt + 1).toNat = s.wacc <<< s.wcnt.toNat <<< 1 := by
  have hcnt : (s.wcnt + 1).toNat = s.wcnt.toNat + 1 := by bv_omega
  have hout : zext8 b <<< (7 - s.wcnt.toNat) <<< (s.wcnt.toNat + 1) = 0#8 := by
    rw [← BitVec.shiftLeft_add, show 7 - s.wcnt.toNat + (s.wcnt.toNat + 1) = 8 by omega]
    exact BitVec.shiftLeft_eq_zero (Nat.le_refl 8)
  rw [accWithBit, hcnt, BitVec.shiftLeft_or_distrib, hout, BitVec.or_zero, BitVec.shiftLeft_add]

theorem snkWrite_inv (v : BitVec 8) (s : State) (hs : s.Inv) :
    ResHolds State.Inv (fun _ => True) (fun _ => True) (snkWrite v s) := by
  obtain ⟨_, hw⟩ | ⟨e, _, hw⟩ | ⟨_, hw⟩ := snkWrite_cases v s <;> rw [hw]
  · exact hs
  · exact ⟨hs, trivial⟩
  · trivial

theorem writerInv_at_boundary {s : State} (h : s.wacc = 0#8) : WriterInv s = true := by
  simp [WriterInv, h]

theorem putBit_inv (b : Bool) (s : State) (hs : s.Inv) :
    ResHolds State.Inv (fun _ => True) (fun _ => True) (putBit b s) := by
  unfold putBit
  split
  next hlt =>
    refine hs.of_onlyWriter rfl ?_
    have hw : s.wErr = true ∨ s.wacc <<< s.wcnt.toNat = 0#8 := by simpa [WriterInv] using hs.1
    simp only [WriterInv, Bool.or_eq_true, beq_iff_eq, accWithBit_shiftLeft b hlt]
    exact hw.imp_right fun h0 => by rw [h0]; rfl
  next =>
    exact resHolds_andThen (snkWrite_inv _ s hs) fun _ t _ ht => ht.of_onlyWriter rfl (writerInv_at_boundary rfl)

theorem flushPending_inv (s : State) (hs : s.Inv) :
    ResHolds State.Inv (fun _ => True) (fun _ => True) (flushPending s) := by
  unfold flushPending
  split
  next => exact hs
  next =>
    exact resHolds_andThen (snkWrite_inv _ s hs) fun _ t _ ht => ht.of_onlyWriter rfl (writerInv_at_boundary rfl)

theorem srcRead_inv (s : State) (hs : s.Inv) :
    ResHolds State.Inv (fun _ => True) (fun _ => True) (srcRead s) := by
  obtain ⟨v, _, hv, hr⟩ | ⟨_, e, hr⟩ | ⟨_, hr⟩ := srcRead_cases s <;> rw [hr]
  · refine hs.of_onlyReader rfl hs.2.1 ?_
    simpa [SourceInv] using (List.getElem?_eq_some_iff.mp hv).1
  · exact ⟨hs, trivial⟩
  · trivial

/-- Taking a bit shifts the held byte, and the zeros below the held bits with it (10_state.md R17). -/
theorem readerInv_take {rbyte : BitVec 8} {rcnt : BitVec 4} (hc : rcnt ≠ 0#4) (h8 : rcnt.toNat ≤ 8)
    (hzero : rbyte <<< rcnt.toNat = 0#8) : (rcnt - 1).toNat ≤ 7 ∧ rbyte <<< 1 <<< (rcnt - 1).toNat = 0#8 := by
  have hsub : (rcnt - 1).toNat + 1 = rcnt.toNat := by bv_omega
  refine ⟨by omega, ?_⟩
  rw [← BitVec.shiftLeft_add, Nat.add_comm 1, hsub, hzero]

theorem getBit_inv (s : State) (hs : s.Inv) : ResHolds State.Inv (fun _ => True) (fun _ => True) (getBit s) := by
  unfold getBit
  split
  next =>
    refine resHolds_andThen (srcRead_inv s hs) fun v t _ ht => ?_
    refine ht.of_onlyReader rfl ?_ ht.2.2.2
    simp [ReaderInv]
  next hheld =>
    have hr : s.rcnt.toNat ≤ 7 ∧ s.rbyte <<< s.rcnt.toNat = 0#8 := by simpa [ReaderInv] using hs.2.1
    have htake := readerInv_take hheld (by omega) hr.2
    refine hs.of_onlyReader rfl ?_ hs.2.2.2
    simpa [ReaderInv] using htake

theorem tmemWrite_memoryInv {a : Nat} (w : BitVec 32) {s : State} (ha : isTmemAddr a = true) (hs : MemoryInv s = true) :
    MemoryInv (tmemWrite a w s) = true := by
  simp only [MemoryInv, Bool.and_eq_true] at hs ⊢
  obtain ⟨hwf, hwithin⟩ := hs
  have hrange : Config.tmemBase ≤ a ∧ a < entryAddr Config.nodeCap := by simpa [isTmemAddr] using ha
  exact ⟨memSet_wf _ _ _ hwf, memWithin_memSet _ _ hrange hwithin⟩

/-- Fault entry changes BW only where it sets `W_ERR` (10_state.md R14; 40_bitwriter.md R81). -/
theorem enterFault_inv (c : Cause) {s : State} (hs : s.Inv) : (enterFault c s).Inv := by
  obtain ⟨hw, hr, hm, hp⟩ := hs
  refine ⟨?_, by simpa [ReaderInv] using hr, by simpa [MemoryInv] using hm, by simpa [SourceInv] using hp⟩
  by_cases hsink : causeCode c = .sinkError
  · simp [WriterInv, hsink]
  · simpa [WriterInv, hsink, enterFault_wacc c s hsink, enterFault_wcnt c s hsink] using hw

theorem loseTree_inv {s : State} (hs : s.Inv) : (loseTree s).Inv := by
  obtain ⟨hw, hr, _, hp⟩ := hs
  exact ⟨hw, hr, rfl, hp⟩

theorem resetBlock_inv {s : State} (hs : s.Inv) : (resetBlock s).Inv := by
  obtain ⟨_, _, hm, hp⟩ := hs
  exact ⟨writerInv_at_boundary rfl, rfl, hm, hp⟩

theorem inv_keptByActions : KeptByActions State.Inv (fun _ => True) where
  snkWrite := snkWrite_inv
  srcRead := srcRead_inv
  putBit := putBit_inv
  flushPending := flushPending_inv
  tdes :=
    { getBit := getBit_inv
      claim := fun _ hs => hs
      write := fun _ w _ ha hs => ⟨hs.1, hs.2.1, tmemWrite_memoryInv w ha hs.2.2.1, hs.2.2.2⟩
      capacity := trivial }
  clearTnodes _ hs := hs
  completeOk _ _ hs := hs
  enterFault c _ hs := enterFault_inv c hs
  loseTree _ hs := loseTree_inv hs
  reply _ _ hs := hs
  takeAction _ _ hs := hs

end Sys2Proof.Machine

namespace Sys2Proof
open Sys2Proof.Machine

/-- Settles O13: no primitive is left unanswered while no answer to come is `never`, and none takes an answer but from the
front of its list; `step_keeps` carries both through every command. -/
theorem everyStepEndsWhenStreamsAnswer : Obligations.EveryStepEndsWhenStreamsAnswer := by
  intro s hs
  have hstep := step_keeps streamsAnswer_keptByActions
    (fun _ u hu => streamsAnswer_congr u _ ⟨rfl, rfl, rfl, rfl, rfl⟩ hu) hs
  cases h : step s with
  | next t => rw [h] at hstep; exact ⟨t, rfl, hstep⟩
  | fault f => rw [h] at hstep; exact hstep.elim
  | refused r => rw [h] at hstep; exact hstep.elim

/-- Settles O46: each operation on the registers, the streams and TMEM keeps the invariant, and so does a step. -/
theorem everyStepKeepsInvariant : Obligations.EveryStepKeepsInvariant := by
  intro s t hs h
  have hstep := step_keeps inv_keptByActions (fun _ _ hu => resetBlock_inv hu) hs
  rwa [h] at hstep

/-- Settles O10: fault entry only sets sticky bits and nothing else but the reset input touches them. -/
theorem stickyBitsClearedOnlyByReset : Obligations.StickyBitsClearedOnlyByReset := by
  intro act rest s t hhost hact h
  have hnoReset : s.host.head? ≠ some .reset := by
    rw [hhost]
    exact fun he => hact (Option.some.inj he)
  have hstep := step_keeps (stickyKept_keptByActions s) (fun he => absurd he hnoReset) ⟨id, id, id, id⟩
  rw [h] at hstep
  obtain ⟨hw, hr, ht, hc⟩ := hstep
  exact ⟨hw, hr, ht, hc⟩

/-- Settles O45: an accepted byte goes to the sink's end, and a byte is read only where the source has one. -/
theorem streamsOnlyAdvance : Obligations.StreamsOnlyAdvance := by
  intro s t h
  obtain ⟨hsnk, hsrc, hspos, hbounded⟩ := step_streamsAdvance h
  exact ⟨hsnk, hsrc, hspos, hbounded⟩

end Sys2Proof
end

section
/-! SUPPORT. The write side and the read side joined: what a flush leaves in the sink, how many transactions it took, and
that BR reads back what BW wrote (40_bitwriter.md R84, R85; 41_bitreader.md R93; 20_memory.md R52). -/

namespace Sys2Proof

/-- A left shift by `n` drops the first `n` bits and brings in as many zeros. -/
theorem bits8_shiftLeft (v : BitVec 8) {n : Nat} (h : n ≤ 8) :
    bits8 (v <<< n) = (bits8 v).drop n ++ List.replicate n false := by
  induction n with
  | zero => simp
  | succ n ih =>
    have hpos : 0 < ((bits8 v).drop n).length := by rw [List.length_drop, bits8_length]; omega
    rw [BitVec.shiftLeft_add, bits8_shiftLeft_one, ih (by omega), List.tail_append_of_ne_nil (List.ne_nil_of_length_pos hpos),
      List.tail_drop, List.append_assoc, ← List.replicate_succ']

/-- A byte that is 0 below its first `n` bits is those bits and zeros (10_state.md R14). -/
theorem bits8_of_shiftLeft_eq_zero {v : BitVec 8} {n : Nat} (h : n ≤ 8) (hv : v <<< n = 0#8) :
    bits8 v = (bits8 v).take n ++ List.replicate (8 - n) false := by
  have hshift := bits8_shiftLeft v h
  rw [hv, bits8_zero, show 8 = 8 - n + n by omega, List.replicate_add] at hshift
  have hdrop := List.append_inj_left' hshift (by simp)
  rw [hdrop, List.take_append_drop]

end Sys2Proof

namespace Sys2Proof.Machine

/-- The pending bits and the zeros below them are the bits of `WACC`, while the writer's invariant holds. -/
theorem bits8_wacc {s : State} (hinv : WriterInv s = true) (herr : s.wErr = false) :
    bits8 s.wacc = pendingBits s ++ List.replicate (8 - s.wcnt.toNat) false := by
  have hzero : s.wacc <<< s.wcnt.toNat = 0#8 := by simpa [WriterInv, herr] using hinv
  exact bits8_of_shiftLeft_eq_zero (by omega) hzero

/-- A flush that ran to its end has taken one answer of the sink for a pending byte, none for none. -/
theorem flushPending_done_answers {s t : State} (h : flushPending s = .done () t) :
    t.snkAnswers = s.snkAnswers.drop (if s.wcnt = 0#3 then 0 else 1) := by
  obtain ⟨hidle, rfl⟩ | ⟨hpending, rfl⟩ := flushPending_done h
  · simp [hidle]
  · simp [hpending]

end Sys2Proof.Machine

namespace Sys2Proof
open Sys2Proof.Machine

/-- Settles O20. -/
theorem unpackOfPack : Obligations.UnpackOfPack := unpack_pack

/-- Settles O24: the flushed bytes are the packed string (`exec_wflush_completes_pack`), which reads back as the string and its
padding (`getBits_of_pack`). -/
theorem writtenBitsReadBack : Obligations.WrittenBitsReadBack := by
  intro bits s hs haccept
  obtain ⟨t, ht, htaccept, _⟩ := putBits_accepted bits haccept
  obtain ⟨u, hu, hok⟩ := exec_wflush_accepted htaccept
  obtain ⟨hsnk, _⟩ := exec_wflush_completes_pack hs ht hu hok
  refine ⟨t, u, ht, hu, fun r hr hd hsrc => getBits_of_pack bits hr hd ?_⟩
  rw [hsrc, hsnk, List.drop_left]

/-- Settles O17: the byte flushed is the pending bits and zeros (`bits8_wacc`); with nothing pending it is none. -/
theorem flushedBitsAreInTheSink : Obligations.FlushedBitsAreInTheSink := by
  intro s t hinv herr h hok
  have hacc := bits8_wacc hinv herr
  obtain ⟨u, hu, rfl⟩ := flushPending_of_exec_wflush_ok h hok
  obtain ⟨hidle, rfl⟩ | ⟨hpending, rfl⟩ := flushPending_done hu
  · have hzero : u.wacc = 0#8 := by simpa [WriterInv, herr, hidle] using hinv
    exact ⟨hidle, hzero, by simp [pendingBits, hidle]⟩
  · have hpos : s.wcnt.toNat ≠ 0 := fun h0 => hpending (BitVec.eq_of_toNat_eq h0)
    have hpad : (8 - s.wcnt.toNat) % 8 = 8 - s.wcnt.toNat := by omega
    refine ⟨rfl, rfl, ?_⟩
    rw [completeOk_snk, unpack_append, unpack_cons, unpack_nil, List.append_nil, hacc, hpad, List.append_assoc]

/-- Settles O19: each byte gained took one answer, in the writes by `putBits_done`, in the flush by its two cases. -/
theorem sinkTransactionsAreCounted : Obligations.SinkTransactionsAreCounted := by
  intro bits s t u hs ht hu hok
  obtain ⟨hsnk, hidle, _⟩ := exec_wflush_completes_pack hs ht hu hok
  obtain ⟨hcnt, hacc, _⟩ := hs
  obtain ⟨hsnkt, hwcnt, _, hanswers, _⟩ :=
    putBits_done bits [] (by decide) (by rw [hcnt]; rfl) (by rw [hacc, packByte_nil]) ht
  rw [List.nil_append] at hsnkt hwcnt hanswers
  obtain ⟨v, hv, rfl⟩ := flushPending_of_exec_wflush_ok hu hok
  refine ⟨hanswers, ?_, ?_, by rw [hsnk, List.length_append, pack_length], exec_wflush_idle hidle⟩
  · rw [hsnkt, List.length_append, List.length_take, pack_length]
    omega
  · rw [completeOk_snkAnswers, flushPending_done_answers hv, hanswers, List.drop_drop]
    congr 1
    split
    next h0 => rw [h0] at hwcnt; simp at hwcnt; omega
    next hpending =>
      have : t.wcnt.toNat ≠ 0 := fun h0 => hpending (BitVec.eq_of_toNat_eq h0)
      omega

end Sys2Proof
end

section
/-! SUPPORT. How each command ends, said once (60_exceptions.md R160 to R163): a completion or fault entry, after work on its
own part of the state. From these the frames of the commands and the faults each may raise. -/

namespace Sys2Proof.Machine

theorem SameWriter.trans {s t u : State} (h1 : SameWriter s t) (h2 : SameWriter t u) : SameWriter s u :=
  ⟨h2.wacc.trans h1.wacc, h2.wcnt.trans h1.wcnt, h2.snk.trans h1.snk, h2.wpos.trans h1.wpos,
    h2.snkAnswers.trans h1.snkAnswers⟩

theorem SameSticky.trans {s t u : State} (h1 : SameSticky s t) (h2 : SameSticky t u) : SameSticky s u :=
  ⟨h2.wErr.trans h1.wErr, h2.rErr.trans h1.rErr, h2.tErr.trans h1.tErr, h2.cErr.trans h1.cErr⟩

/-! ## A completion, and fault entry inside TDES -/

theorem completeOk_sameReader (v : Bool) (s : State) : SameReader s (completeOk v s) := ⟨rfl, rfl, rfl, rfl, rfl, rfl⟩

theorem completeOk_sameWriter (v : Bool) (s : State) : SameWriter s (completeOk v s) := ⟨rfl, rfl, rfl, rfl, rfl⟩

theorem completeOk_sameTree (v : Bool) (s : State) : SameTree s (completeOk v s) := ⟨rfl, rfl, rfl, fun _ => rfl⟩

theorem completeOk_sameSticky (v : Bool) (s : State) : SameSticky s (completeOk v s) := ⟨rfl, rfl, rfl, rfl⟩

theorem completeOk_sameHost (v : Bool) (s : State) : SameHost s (completeOk v s) := ⟨rfl, rfl⟩

theorem loseTree_sameReader (s : State) : SameReader s (loseTree s) := ⟨rfl, rfl, rfl, rfl, rfl, rfl⟩

theorem loseTree_sameWriter (s : State) : SameWriter s (loseTree s) := ⟨rfl, rfl, rfl, rfl, rfl⟩

theorem loseTree_sameHost (s : State) : SameHost s (loseTree s) := ⟨rfl, rfl⟩

theorem enterTreeFault_completedFault (c : Cause) (s : State) : CompletedFault c s (enterTreeFault c s) :=
  (enterFault_completedFault c (loseTree s)).of_sameSticky ⟨rfl, rfl, rfl, rfl⟩

theorem enterTreeFault_sameReader (c : Cause) (s : State) : SameReader s (enterTreeFault c s) :=
  (loseTree_sameReader s).trans (enterFault_sameReader c (loseTree s))

theorem enterTreeFault_sameHost (c : Cause) (s : State) : SameHost s (enterTreeFault c s) :=
  (loseTree_sameHost s).trans (enterFault_sameHost c (loseTree s))

theorem enterTreeFault_sameWriter {c : Cause} (s : State) (h : causeCode c ≠ .sinkError) :
    SameWriter s (enterTreeFault c s) :=
  (loseTree_sameWriter s).trans (enterFault_sameWriter (loseTree s) h)

/-! ## The outcomes of a command -/

theorem resHolds_of_resAll_resRaises {α : Type} {P : State → Prop} {R : StatusCode → Prop} {r : Res α} (h : ResAll P r)
    (hr : ResRaises R r) : ResHolds P (fun c => R (causeCode c)) (fun _ => True) r := by
  cases r with
  | done a t => exact h
  | raised c t => exact ⟨h, hr⟩
  | stuck e => trivial

/-- A body that answers a value of its own ends as the piece before that does. -/
theorem ResHolds.then_done {α β : Type} {P : State → Prop} {C : Cause → Prop} {Q : Fault → Prop} {r : Res α}
    (h : ResHolds P C Q r) (v : β) : ResHolds P C Q (andThen r fun _ t => .done v t) :=
  resHolds_andThen h fun _ _ _ ht => ht

/-- A command ends from the state its body ends in: by a completion, or by fault entry for what the body raised. -/
theorem finishCommand_next {P : State → Prop} {C : Cause → Prop} {Q : Fault → Prop} {r : Res Bool} {t : State}
    (hr : ResHolds P C Q r) (h : finishCommand r = .next t) :
    ∃ u, P u ∧ ((∃ v, t = completeOk v u) ∨ ∃ c, C c ∧ t = enterFault c u) := by
  cases r with
  | done v u => cases h; exact ⟨u, hr, .inl ⟨v, rfl⟩⟩
  | raised c u => cases h; exact ⟨u, hr.1, .inr ⟨c, hr.2, rfl⟩⟩
  | stuck f => cases h

theorem finishTdes_next {P : State → Prop} {C : Cause → Prop} {Q : Fault → Prop} {r : Res Index} {t : State}
    (hr : ResHolds P C Q r) (h : finishTdes r = .next t) :
    ∃ u, P u ∧ (t = completeOk false u ∨ ∃ c, C c ∧ t = enterTreeFault c u) := by
  cases r with
  | done v u => cases h; exact ⟨u, hr, .inl rfl⟩
  | raised c u => cases h; exact ⟨u, hr.1, .inr ⟨c, hr.2, rfl⟩⟩
  | stuck f => cases h

theorem finishToken_next {P : State → Prop} {C : Cause → Prop} {Q : Fault → Prop} {r : Res Index} {t : State}
    (hr : ResHolds P C Q r) (h : finishToken r = .next t) :
    ∃ u, P u ∧ (t = u ∨ ∃ c, C c ∧ t = enterTreeFault c u) := by
  cases r with
  | done v u => cases h; exact ⟨_, hr, .inl rfl⟩
  | raised c u => cases h; exact ⟨u, hr.1, .inr ⟨c, hr.2, rfl⟩⟩
  | stuck f => cases h

/-- How a command whose work is on BW alone ends, with a fault among those of `C` if with one. -/
def EndsAfterWriter (C : StatusCode → Prop) (s t : State) : Prop :=
  ∃ u, OnlyWriter s u ∧ ((∃ v, t = completeOk v u) ∨ ∃ c, C (causeCode c) ∧ t = enterFault c u)

theorem exec_wbit_next {b : Bool} {s t : State} (h : exec (.wbit b) s = .next t) :
    EndsAfterWriter (· = .sinkError) s t :=
  finishCommand_next ((resHolds_of_resAll_resRaises (putBit_onlyWriter b s) (putBit_raises b s)).then_done false) h

theorem exec_wflush_next {s t : State} (h : exec .wflush s = .next t) :
    EndsAfterWriter (· = .sinkError) s t :=
  finishCommand_next ((resHolds_of_resAll_resRaises (flushPending_onlyWriter s) (flushPending_raises s)).then_done false) h

theorem exec_tser_next {s t : State} (h : exec .tser s = .next t) :
    EndsAfterWriter (fun c => c = .sinkError ∨ c = .treeInvariant) s t :=
  finishCommand_next ((resHolds_of_resAll_resRaises (serNode_onlyWriter _ _ _ s) (serNode_raises _ _ _ s)).then_done false) h

theorem exec_rbit_next {s t : State} (h : exec .rbit s = .next t) :
    ∃ u, OnlyReader s u ∧ ((∃ v, t = completeOk v u) ∨ ∃ c, causeCode c = .sourceError ∧ t = enterFault c u) :=
  finishCommand_next (resHolds_of_resAll_resRaises (getBit_onlyReader s) (getBit_raises s)) h

/-- What TDES changes before it ends, `TNODES <- 0` included. -/
theorem desNode_onlyTdes_of_clear (fuel : Nat) (s : State) :
    ResAll (OnlyTdes s) (desNode fuel { s with tnodes := 0#10 }) :=
  resAll_mono (desNode_onlyTdes fuel { s with tnodes := 0#10 }) fun _ => OnlyTdes.trans rfl

theorem exec_tdes_next {s t : State} (h : exec .tdes s = .next t) :
    ∃ u, OnlyTdes s u ∧ (t = completeOk false u ∨
      ∃ c, (causeCode c = .sourceError ∨ causeCode c = .treeCapacity) ∧ t = enterTreeFault c u) :=
  finishTdes_next (resHolds_of_resAll_resRaises (desNode_onlyTdes_of_clear _ s) (desNode_raises _ _)) h

theorem openInternal_raises (s : State) :
    ResRaises (fun c => c = .sourceError ∨ c = .treeCapacity) (openInternal s) := by
  refine resRaises_andThen (resRaises_mono (allocEntry_raises s) fun _ => Or.inr) fun i t _ => ?_
  refine resRaises_andThen (desNode_raises _ t) fun l u _ => ?_
  exact resRaises_andThen (desNode_raises _ u) fun _ _ _ => trivial

theorem exec_tok0_next {s t : State} (h : exec .tok0 s = .next t) :
    ∃ u, OnlyTdes s u ∧ (t = u ∨
      ∃ c, (causeCode c = .sourceError ∨ causeCode c = .treeCapacity) ∧ t = enterTreeFault c u) :=
  finishToken_next (resHolds_of_resAll_resRaises (openInternal_onlyTdes s) (openInternal_raises s)) h

/-- TOK1 makes no transaction: it stores its Leaf, or finds no entry left. -/
theorem storeLeaf_cases (sym : BitVec 8) (s : State) :
    (s.tnodes.toNat < Config.nodeCap ∧
      storeLeaf sym s = .done (s.tnodes.setWidth 9) (writeLeaf (s.tnodes.setWidth 9) sym (claimEntry s))) ∨
    (Config.nodeCap ≤ s.tnodes.toNat ∧ storeLeaf sym s = .raised .treeCapacity s) := by
  obtain hlt | hge := Nat.lt_or_ge s.tnodes.toNat Config.nodeCap
  · exact .inl ⟨hlt, by rw [storeLeaf, allocEntry_free hlt, andThen_done]⟩
  · exact .inr ⟨hge, by rw [storeLeaf, allocEntry_full hge, andThen_raised]⟩

theorem exec_tok1_of_room (sym : BitVec 8) {s : State} (h : s.tnodes.toNat < Config.nodeCap) :
    exec (.tok1 sym) s = .next (writeLeaf (s.tnodes.setWidth 9) sym (claimEntry s)) := by
  obtain ⟨_, hstore⟩ | ⟨hge, _⟩ := storeLeaf_cases sym s
  · simp [exec, execTok1, hstore, finishToken]
  · omega

theorem exec_tok1_of_full (sym : BitVec 8) {s : State} (h : Config.nodeCap ≤ s.tnodes.toNat) :
    exec (.tok1 sym) s = .next (enterTreeFault .treeCapacity s) := by
  obtain ⟨hlt, _⟩ | ⟨_, hstore⟩ := storeLeaf_cases sym s
  · omega
  · simp [exec, execTok1, hstore, finishToken]

theorem exec_tok0_of_full {s : State} (h : Config.nodeCap ≤ s.tnodes.toNat) :
    exec .tok0 s = .next (enterTreeFault .treeCapacity s) := by
  simp [exec, execTok0, openInternal, allocEntry_full h, finishToken]

/-! ## Frames -/

theorem EndsAfterWriter.code {C : StatusCode → Prop} {s t : State} (h : EndsAfterWriter C s t) :
    t.code = .ok ∨ C t.code := by
  obtain ⟨u, _, ⟨v, rfl⟩ | ⟨c, hc, rfl⟩⟩ := h
  · exact .inl rfl
  · exact .inr ((enterFault_code c u).symm ▸ hc)

/-- The frame of a command whose work is on BW alone. -/
theorem EndsAfterWriter.frame {C : StatusCode → Prop} {s t : State} (h : EndsAfterWriter C s t) :
    SameReader s t ∧ SameTree s t ∧ SameHost s t := by
  obtain ⟨u, hu, ⟨v, rfl⟩ | ⟨c, _, rfl⟩⟩ := h
  · exact ⟨hu.sameReader.trans (completeOk_sameReader v u), hu.sameTree.trans (completeOk_sameTree v u),
      hu.sameHost.trans (completeOk_sameHost v u)⟩
  · obtain ⟨_, _, hframe⟩ := enterFault_after_onlyWriter c hu
    exact hframe

/-- Where such a command completed `OK` no fault was entered. -/
theorem EndsAfterWriter.ok {C : StatusCode → Prop} {s t : State} (h : EndsAfterWriter C s t) (hok : t.code = .ok) :
    SameSticky s t ∧ t.errinfo = s.errinfo ∧ t.draws = s.draws := by
  obtain ⟨u, hu, ⟨v, rfl⟩ | ⟨c, _, rfl⟩⟩ := h
  · exact ⟨hu.sameSticky.trans (completeOk_sameSticky v u), hu.errinfo, hu.draws⟩
  · exact absurd ((enterFault_code c u).symm.trans hok) (causeCode_ne_ok c)

/-- The sticky bits that are no fault's of `C` are as before. -/
theorem EndsAfterWriter.otherSticky {C : StatusCode → Prop} {s t : State} (h : EndsAfterWriter C s t) :
    (¬ C .sourceError → t.rErr = s.rErr) ∧ (¬ C .illegalCommand → t.cErr = s.cErr) ∧
      (¬ C .treeCapacity → ¬ C .treeInvariant → t.tErr = s.tErr) := by
  obtain ⟨u, hu, ⟨v, rfl⟩ | ⟨c, hc, rfl⟩⟩ := h
  · obtain ⟨_, hr, ht, hcErr⟩ := hu.sameSticky
    exact ⟨fun _ => hr, fun _ => hcErr, fun _ _ => ht⟩
  · obtain ⟨_, hr, ht, hcErr⟩ := hu.sameSticky
    have hne : ∀ code, ¬ C code → causeCode c ≠ code := fun code hn he => hn (he ▸ hc)
    refine ⟨fun hn => ?_, fun hn => ?_, fun hn hn' => ?_⟩
    · simp [hr, hne _ hn]
    · simp [hcErr, hne _ hn]
    · simp [ht, hne _ hn, hne _ hn']

theorem flushPending_wpos (s : State) : ResAll (fun t => t.wpos = s.wpos) (flushPending s) := by
  unfold flushPending
  split
  next => rfl
  next =>
    obtain ⟨_, hw⟩ | ⟨e, _, hw⟩ | ⟨_, hw⟩ := snkWrite_cases s.wacc s <;> rw [hw] <;> trivial

theorem exec_wflush_wpos {s t : State} (h : exec .wflush s = .next t) : t.wpos = s.wpos := by
  have hflush := resHolds_of_resAll_resRaises (flushPending_wpos s) (flushPending_raises s)
  obtain ⟨u, hu, ⟨v, rfl⟩ | ⟨c, _, rfl⟩⟩ :=
    finishCommand_next (hflush.then_done false) h
  · exact hu
  · exact (enterFault_wpos c u).trans hu

/-- Fault entry for a read that failed, outside TDES. -/
theorem enterFault_after_onlyReader {c : Cause} {s u : State} (hu : OnlyReader s u) (hc : causeCode c = .sourceError) :
    CompletedFault c s (enterFault c u) ∧ SameWriter s (enterFault c u) ∧ SameTree s (enterFault c u) ∧
      SameHost s (enterFault c u) := by
  have hne : causeCode c ≠ .sinkError := by rw [hc]; decide
  exact ⟨(enterFault_completedFault c u).of_sameSticky hu.sameSticky, hu.sameWriter.trans (enterFault_sameWriter u hne),
    hu.sameTree.trans (enterFault_sameTree c u), hu.onlyTdes.sameHost.trans (enterFault_sameHost c u)⟩

/-- Fault entry inside TDES: completed as the fault says, BW and the host's side as before TDES. -/
theorem enterTreeFault_after_onlyTdes {c : Cause} {s u : State} (hu : OnlyTdes s u)
    (hc : causeCode c = .sourceError ∨ causeCode c = .treeCapacity) :
    CompletedFault c s (enterTreeFault c u) ∧ SameWriter s (enterTreeFault c u) ∧ SameHost s (enterTreeFault c u) := by
  have hne : causeCode c ≠ .sinkError := by rintro h; rw [h] at hc; simp at hc
  exact ⟨(enterTreeFault_completedFault c u).of_sameSticky hu.sameSticky,
    hu.sameWriter.trans (enterTreeFault_sameWriter u hne), hu.sameHost.trans (enterTreeFault_sameHost c u)⟩

/-- What a fault of the reader's side leaves of the sticky bits that are not its own. -/
theorem CompletedFault.readerSticky {c : Cause} {s t : State} (h : CompletedFault c s t)
    (hc : causeCode c = .sourceError ∨ causeCode c = .treeCapacity) : t.wErr = s.wErr ∧ t.cErr = s.cErr := by
  rw [h.wErr, h.cErr]
  obtain hc | hc := hc <;> simp [hc]

/-- What is the same in the next state of RBIT, TDES and the tokens: BW, the host's side, `W_ERR`, `C_ERR` and the source's
bytes. -/
structure ReaderFrame (s t : State) : Prop where
  writer : SameWriter s t
  host : SameHost s t
  wErr : t.wErr = s.wErr
  cErr : t.cErr = s.cErr
  src : t.src = s.src

theorem OnlyTdes.readerFrame {s t : State} (h : OnlyTdes s t) : ReaderFrame s t :=
  ⟨h.sameWriter, h.sameHost, h.sameSticky.wErr, h.sameSticky.cErr, h.src⟩

theorem ReaderFrame.completeOk {s t : State} (h : ReaderFrame s t) (v : Bool) : ReaderFrame s (completeOk v t) :=
  ⟨h.writer.trans (completeOk_sameWriter v t), h.host.trans (completeOk_sameHost v t), h.wErr, h.cErr, h.src⟩

theorem readerFrame_enterTreeFault {c : Cause} {s u : State} (hu : OnlyTdes s u)
    (hc : causeCode c = .sourceError ∨ causeCode c = .treeCapacity) : ReaderFrame s (enterTreeFault c u) := by
  obtain ⟨hfault, hwriter, hhost⟩ := enterTreeFault_after_onlyTdes hu hc
  obtain ⟨hw, hcErr⟩ := hfault.readerSticky hc
  exact ⟨hwriter, hhost, hw, hcErr, (enterTreeFault_sameReader c u).src.trans hu.src⟩

/-- The frame of RBIT. -/
theorem exec_rbit_frame {s t : State} (h : exec .rbit s = .next t) :
    ReaderFrame s t ∧ SameTree s t ∧ t.tErr = s.tErr ∧ t.draws = s.draws ∧
      (t.code = .ok → SameSticky s t ∧ t.errinfo = s.errinfo) := by
  obtain ⟨u, hu, ⟨v, rfl⟩ | ⟨c, hc, rfl⟩⟩ := exec_rbit_next h
  · exact ⟨hu.onlyTdes.readerFrame.completeOk v, hu.sameTree.trans (completeOk_sameTree v u), hu.sameSticky.tErr,
      hu.onlyTdes.draws, fun _ => ⟨hu.sameSticky.trans (completeOk_sameSticky v u), hu.onlyTdes.errinfo⟩⟩
  · obtain ⟨hfault, hwriter, htree, hhost⟩ := enterFault_after_onlyReader hu hc
    obtain ⟨hw, hcErr⟩ := hfault.readerSticky (.inl hc)
    refine ⟨⟨hwriter, hhost, hw, hcErr, (enterFault_src c u).trans hu.onlyTdes.src⟩, htree, ?_, ?_, fun hok => ?_⟩
    · rw [hfault.tErr, hc]; simp
    · rw [enterFault_draws c u (by rw [hc]; decide), hu.onlyTdes.draws]
    · exact absurd (hfault.code.symm.trans hok) (causeCode_ne_ok c)

/-- The frame of TDES. -/
theorem exec_tdes_frame {s t : State} (h : exec .tdes s = .next t) :
    ReaderFrame s t ∧ (t.code = .ok → SameSticky s t ∧ t.errinfo = s.errinfo ∧ t.draws = s.draws) := by
  obtain ⟨u, hu, rfl | ⟨c, hc, rfl⟩⟩ := exec_tdes_next h
  · exact ⟨hu.readerFrame.completeOk false, fun _ =>
      ⟨hu.sameSticky.trans (completeOk_sameSticky false u), hu.errinfo, hu.draws⟩⟩
  · obtain ⟨hfault, _⟩ := enterTreeFault_after_onlyTdes hu hc
    exact ⟨readerFrame_enterTreeFault hu hc, fun hok => absurd (hfault.code.symm.trans hok) (causeCode_ne_ok c)⟩

theorem exec_tok0_frame {s t : State} (h : exec .tok0 s = .next t) : ReaderFrame s t := by
  obtain ⟨u, hu, rfl | ⟨c, hc, rfl⟩⟩ := exec_tok0_next h
  · exact hu.readerFrame
  · exact readerFrame_enterTreeFault hu hc

/-- The frame of TOK1, which leaves BR alone too. -/
theorem exec_tok1_frame {sym : BitVec 8} {s t : State} (h : exec (.tok1 sym) s = .next t) :
    ReaderFrame s t ∧ SameReader s t ∧ t.rErr = s.rErr := by
  obtain hlt | hge := Nat.lt_or_ge s.tnodes.toNat Config.nodeCap
  · obtain rfl := Host.Outcome.next.inj ((exec_tok1_of_room sym hlt).symm.trans h)
    exact ⟨OnlyTdes.readerFrame rfl, ⟨rfl, rfl, rfl, rfl, rfl, rfl⟩, rfl⟩
  · obtain rfl := Host.Outcome.next.inj ((exec_tok1_of_full sym hge).symm.trans h)
    refine ⟨readerFrame_enterTreeFault (OnlyTdes.refl s) (.inr rfl), enterTreeFault_sameReader _ s, ?_⟩
    simp [(enterTreeFault_completedFault .treeCapacity s).rErr, causeCode]

end Sys2Proof.Machine

namespace Sys2Proof
open Sys2Proof.Machine

/-- Settles O11: by how each command ends. -/
theorem eachCommandRaisesItsOwnFaults : Obligations.EachCommandRaisesItsOwnFaults := by
  intro i s t h
  cases i with
  | wbit b => exact (exec_wbit_next h).code
  | wflush => exact (exec_wflush_next h).code
  | rbit =>
    obtain ⟨u, _, ⟨v, rfl⟩ | ⟨c, hc, rfl⟩⟩ := exec_rbit_next h
    · exact .inl rfl
    · exact .inr ((enterFault_code c u).trans hc)
  | tser => exact (exec_tser_next h).code
  | tdes =>
    obtain ⟨u, _, rfl | ⟨c, hc, rfl⟩⟩ := exec_tdes_next h
    · exact .inl rfl
    · exact .inr ((enterTreeFault_completedFault c u).code.symm ▸ hc)
  | tok0 =>
    obtain ⟨u, hu, rfl | ⟨c, hc, rfl⟩⟩ := exec_tok0_next h
    · exact .inl hu.code
    · exact .inr ((enterTreeFault_completedFault c u).code.symm ▸ hc)
  | tok1 sym =>
    obtain hlt | hge := Nat.lt_or_ge s.tnodes.toNat Config.nodeCap
    · obtain rfl := Host.Outcome.next.inj ((exec_tok1_of_room sym hlt).symm.trans h)
      exact .inl rfl
    · obtain rfl := Host.Outcome.next.inj ((exec_tok1_of_full sym hge).symm.trans h)
      exact .inr (enterTreeFault_completedFault .treeCapacity s).code

/-- Settles O43: each of the three ends after work on BW alone. -/
theorem writerCommandsFrame : Obligations.WriterCommandsFrame := by
  intro i s t hi h
  obtain ⟨b, rfl⟩ | rfl | rfl := hi
  · have hend := exec_wbit_next h
    obtain ⟨hreader, htree, hhost⟩ := hend.frame
    obtain ⟨hr, hc, ht⟩ := hend.otherSticky
    exact ⟨hreader, htree, hhost, hr nofun, hc nofun, fun _ => ht nofun nofun, hend.ok, nofun⟩
  · have hend := exec_wflush_next h
    obtain ⟨hreader, htree, hhost⟩ := hend.frame
    obtain ⟨hr, hc, ht⟩ := hend.otherSticky
    exact ⟨hreader, htree, hhost, hr nofun, hc nofun, fun _ => ht nofun nofun, hend.ok, fun _ => exec_wflush_wpos h⟩
  · have hend := exec_tser_next h
    obtain ⟨hreader, htree, hhost⟩ := hend.frame
    obtain ⟨hr, hc, _⟩ := hend.otherSticky
    exact ⟨hreader, htree, hhost, hr (by simp), hc (by simp), fun hne => absurd rfl hne, hend.ok, nofun⟩

/-- Settles O44: the frame of each of the four. -/
theorem readerCommandsFrame : Obligations.ReaderCommandsFrame := by
  intro i s t hi h
  obtain rfl | rfl | rfl | ⟨sym, rfl⟩ := hi
  · obtain ⟨⟨hwriter, hhost, hw, hc, hsrc⟩, htree, ht, hdraws, hok⟩ := exec_rbit_frame h
    exact ⟨hwriter, hhost, hw, hc, hsrc, fun _ => ⟨htree, ht, hdraws⟩, nofun, fun _ he =>
      ⟨(hok he).1, (hok he).2, hdraws⟩⟩
  · obtain ⟨⟨hwriter, hhost, hw, hc, hsrc⟩, hok⟩ := exec_tdes_frame h
    exact ⟨hwriter, hhost, hw, hc, hsrc, nofun, nofun, fun _ => hok⟩
  · obtain ⟨hwriter, hhost, hw, hc, hsrc⟩ := exec_tok0_frame h
    exact ⟨hwriter, hhost, hw, hc, hsrc, nofun, nofun, by simp⟩
  · obtain ⟨⟨hwriter, hhost, hw, hc, hsrc⟩, hreader, hr⟩ := exec_tok1_frame h
    exact ⟨hwriter, hhost, hw, hc, hsrc, nofun, fun _ => ⟨hreader, hr⟩, by simp⟩

/-- Settles O9: the frame of fault entry, and of fault entry inside TDES, which loses the tree first. -/
theorem faultEntryUndoesNothing : Obligations.FaultEntryUndoesNothing := by
  intro c s
  exact ⟨enterFault_completedFault c s, enterFault_sameReader c s, enterFault_sameTree c s, enterFault_sameHost c s,
    enterFault_snk c s, enterFault_sameWriter s, enterTreeFault_completedFault c s, enterTreeFault_sameReader c s,
    enterTreeFault_sameHost c s, enterTreeFault_sameWriter s⟩

/-- Settles O22: at the end of the source and before it, the failed read has only taken an answer of the source. -/
theorem sourceFailureRaisesSourceError : Obligations.SourceFailureRaisesSourceError := by
  intro e s hnone hfails
  have hr : srcRead s = .raised (.sourceError e) { s with srcAnswers := s.srcAnswers.tail } := by
    obtain ⟨hanswers, hend, rfl⟩ | ⟨hfail, hlt⟩ := hfails
    · have hget : s.src[s.spos]? = none := List.getElem?_eq_none hend
      cases ha : nextAnswer s.srcAnswers with
      | never => exact absurd ha hanswers
      | ok | fail => simp [srcRead, ha, hget, Config.eEos]
    · simp [srcRead, hfail, List.getElem?_eq_getElem hlt]
  obtain ⟨t, ht, hfault, hbr⟩ := exec_rbit_load_raises hnone hr
  obtain ⟨hrbyte, hrcnt, hsrc, hspos, hrpos⟩ := hbr
  obtain ⟨⟨hwriter, hhost, _⟩, htree, _⟩ := exec_rbit_frame ht
  exact ⟨t, ht, hfault, hrbyte, hrcnt, hsrc, hspos, hrpos, hwriter, htree, hhost⟩

/-- Settles O41: both tokens allocate first, and then nothing has changed. -/
theorem tokenWithoutEntryRaisesTreeCapacity : Obligations.TokenWithoutEntryRaisesTreeCapacity := by
  intro i s hi hfull
  have hexec : exec i s = .next (enterTreeFault .treeCapacity s) := by
    obtain rfl | ⟨sym, rfl⟩ := hi
    · exact exec_tok0_of_full hfull
    · exact exec_tok1_of_full sym hfull
  obtain ⟨hfault, hwriter, hhost⟩ := enterTreeFault_after_onlyTdes (OnlyTdes.refl s) (c := .treeCapacity) (.inr rfl)
  exact ⟨_, hexec, hfault, enterTreeFault_sameReader _ s, hwriter, hhost⟩

/-- Settles O39: TOK1 with an entry left writes that entry. -/
theorem tok1StoresLeaf : Obligations.Tok1StoresLeaf := by
  intro sym s hroom
  have hindex : (s.tnodes.setWidth 9).toNat = s.tnodes.toNat := by
    rw [tnodes_index, toNat_ofNat_index (Nat.lt_succ_of_lt hroom)]
  have hother : ∀ a, a ≠ entryAddr s.tnodes.toNat → a ≠ entryAddr s.tnodes.toNat + 1 →
      tmemRead (writeLeaf (s.tnodes.setWidth 9) sym (claimEntry s)) a = tmemRead s a := fun a h0 h1 =>
    tmemRead_entryWrite_other _ _ _ _ _ _ (claimEntry s) (hindex.symm ▸ h0) (hindex.symm ▸ h1)
  exact ⟨_, exec_tok1_of_room sym hroom, rfl, entryTag_entryWrite_same _ _ _ _ _ _ _, entrySym_entryWrite_same _ _ _ _ _ _ _,
    entryLeft_entryWrite_same _ _ _ _ _ _ _, entryRight_entryWrite_same _ _ _ _ _ _ _,
    entryFreq_entryWrite_same _ _ _ _ _ _ _, hother, ⟨rfl, rfl, rfl, rfl, rfl⟩, ⟨rfl, rfl, rfl, rfl, rfl, rfl⟩,
    ⟨rfl, rfl, rfl, rfl⟩, ⟨rfl, rfl⟩, rfl, rfl, rfl⟩

end Sys2Proof
end

section
/-! SUPPORT. TSER (42_treecodec.md R106, R108, R112): on a memory that holds a tree it is `putBits` of the serialisation; on every
other image it ends with TreeInvariant where the sink accepts. -/

namespace Sys2Proof.Machine

/-! ## What an image holds -/

theorem holdsTree_iff {s : State} {t : Tree} :
    HoldsTree s t = true ↔ HoldsAt s t Config.root = true ∧ treeNodes t ≤ Config.nodeCap := by
  simp [HoldsTree]

theorem holdsAt_leaf_iff {s : State} {sym : BitVec 8} {f : Nat} {i : Index} :
    HoldsAt s (.leaf sym f) i = true ↔
      i ≠ Config.nil ∧ entryTag s i = true ∧ entrySym s i = sym ∧ (entryFreq s i).toNat = f := by
  simp [HoldsAt, and_assoc]

theorem holdsAt_internal_iff {s : State} {f : Nat} {l r : Tree} {i : Index} :
    HoldsAt s (.internal f l r) i = true ↔
      i ≠ Config.nil ∧ entryTag s i = false ∧ (entryFreq s i).toNat = f ∧ HoldsAt s l (entryLeft s i) = true ∧
        HoldsAt s r (entryRight s i) = true := by
  simp [HoldsAt, and_assoc]

/-- No tree is held at `NIL` (10_state.md R23). -/
theorem holdsAt_ne_nil {s : State} {t : Tree} {i : Index} (h : HoldsAt s t i = true) : i ≠ Config.nil := by
  cases t with
  | leaf sym f => exact (holdsAt_leaf_iff.mp h).1
  | internal f l r => exact (holdsAt_internal_iff.mp h).1

/-- An index holds at most one tree: `tree_at` is a function (10_state.md R23). -/
theorem holdsAt_unique {s : State} {t u : Tree} {i : Index} (ht : HoldsAt s t i = true) (hu : HoldsAt s u i = true) :
    t = u := by
  induction t generalizing u i with
  | leaf sym f =>
    obtain ⟨_, htag, rfl, rfl⟩ := holdsAt_leaf_iff.mp ht
    cases u with
    | leaf sym' f' =>
      obtain ⟨_, _, rfl, rfl⟩ := holdsAt_leaf_iff.mp hu
      rfl
    | internal f' l' r' => exact absurd (htag.symm.trans (holdsAt_internal_iff.mp hu).2.1) (by decide)
  | internal f l r ihl ihr =>
    obtain ⟨_, htag, rfl, hl, hr⟩ := holdsAt_internal_iff.mp ht
    cases u with
    | leaf sym' f' => exact absurd ((holdsAt_leaf_iff.mp hu).2.1.symm.trans htag) (by decide)
    | internal f' l' r' =>
      obtain ⟨_, _, rfl, hl', hr'⟩ := holdsAt_internal_iff.mp hu
      rw [ihl hl hl', ihr hr hr']

/-- A path from the root of a held tree reaches a subtree, smaller by at least a node for each step. -/
theorem holdsAt_indexAlong {s : State} {t : Tree} {i j : Index} (path : Bits) (h : HoldsAt s t i = true)
    (hp : indexAlong s i path = some j) : ∃ u, HoldsAt s u j = true ∧ treeNodes u + path.length ≤ treeNodes t := by
  induction path generalizing t i with
  | nil => cases hp; exact ⟨t, h, Nat.le_refl _⟩
  | cons b rest ih =>
    rw [indexAlong, if_neg (holdsAt_ne_nil h)] at hp
    split at hp
    next => cases hp
    next htag =>
      cases t with
      | leaf sym f => exact absurd (holdsAt_leaf_iff.mp h).2.1 htag
      | internal f l r =>
        obtain ⟨_, _, _, hl, hr⟩ := holdsAt_internal_iff.mp h
        cases b with
        | false =>
          obtain ⟨u, hu, hle⟩ := ih hl hp
          exact ⟨u, hu, by simp only [List.length_cons, treeNodes]; omega⟩
        | true =>
          obtain ⟨u, hu, hle⟩ := ih hr hp
          exact ⟨u, hu, by simp only [List.length_cons, treeNodes]; omega⟩

/-- Where a path from the root reaches `NIL` no tree is held. -/
theorem not_holdsTree_of_nil {s : State} {path : Bits} (hp : indexAlong s Config.root path = some Config.nil) :
    ¬ ∃ t, HoldsTree s t = true := by
  rintro ⟨t, ht⟩
  obtain ⟨u, hu, _⟩ := holdsAt_indexAlong path (holdsTree_iff.mp ht).1 hp
  exact holdsAt_ne_nil hu rfl

/-- Where a path from the root reaches an entry that leads back to itself no tree is held: that entry's tree would be smaller
than itself. -/
theorem not_holdsTree_of_cycle {s : State} {path cycle : Bits} {i : Index}
    (hp : indexAlong s Config.root path = some i) (hne : cycle ≠ []) (hc : indexAlong s i cycle = some i) :
    ¬ ∃ t, HoldsTree s t = true := by
  rintro ⟨t, ht⟩
  obtain ⟨u, hu, _⟩ := holdsAt_indexAlong path (holdsTree_iff.mp ht).1 hp
  obtain ⟨v, hv, hle⟩ := holdsAt_indexAlong cycle hu hc
  have hpos := List.length_pos_of_ne_nil hne
  rw [holdsAt_unique hv hu] at hle
  omega

/-! ## TSER by the end of its traversal -/

theorem exec_tser_of_done {v : Nat} {s u : State} (h : serNode traversalFuel Config.root 0 s = .done v u) :
    exec .tser s = .next (completeOk false u) := by
  simp [exec, execTser, h, finishCommand]

theorem exec_tser_of_raised {c : Cause} {s u : State} (h : serNode traversalFuel Config.root 0 s = .raised c u) :
    exec .tser s = .next (enterFault c u) := by
  simp [exec, execTser, h, finishCommand]

theorem exec_tser_of_stuck {f : Fault} {s : State} (h : serNode traversalFuel Config.root 0 s = .stuck f) :
    exec .tser s = .fault f := by
  simp [exec, execTser, h, finishCommand]

/-- TSER over a held tree is `putBits` of its serialisation (42_treecodec.md R108). -/
theorem serNode_of_holdsTree {t : Tree} {s : State} (h : HoldsTree s t = true) :
    serNode traversalFuel Config.root 0 s = andThen (putBits (ser t) s) fun _ u => .done (treeNodes t) u := by
  obtain ⟨hroot, hcap⟩ := holdsTree_iff.mp h
  have hser := serNode_eq_putBits t (n := traversalFuel) (visits := 0) hroot (Nat.le_succ_of_le hcap)
    ((Nat.zero_add _).trans_le hcap)
  rwa [Nat.zero_add] at hser

theorem putBits_done_onlyWriter {bits : Bits} {s u : State} (h : putBits bits s = .done () u) : OnlyWriter s u := by
  have honly := putBits_onlyWriter bits s
  rwa [h] at honly

theorem putBits_raised_onlyWriter {bits : Bits} {c : Cause} {s u : State} (h : putBits bits s = .raised c u) :
    OnlyWriter s u := by
  have honly := putBits_onlyWriter bits s
  rwa [h] at honly

/-- With an accepting sink no bit's write fails. -/
theorem putBit_sinkAccepts {C : Cause → Prop} (b : Bool) (s : State) (h : SinkAccepts s) :
    ResHolds SinkAccepts C (fun _ => False) (putBit b s) := by
  obtain ⟨t, ht, haccept, _⟩ := putBit_accepted b h
  rw [ht]
  exact haccept

/-- TSER with an accepting sink: `OK` over a held tree, TreeInvariant where none is held (42_treecodec.md R106, R112). -/
theorem exec_tser_accepted {s : State} (h : SinkAccepts s) :
    ∃ u, OnlyWriter s u ∧
      (((∃ t, HoldsTree s t = true) ∧ exec .tser s = .next (completeOk false u)) ∨
        ((¬ ∃ t, HoldsTree s t = true) ∧ exec .tser s = .next (enterFault .treeInvariant u))) := by
  have honly := serNode_onlyWriter traversalFuel Config.root 0 s
  have hends := serNode_keeps (C := (· = .treeInvariant)) putBit_sinkAccepts rfl traversalFuel Config.root 0 h
  cases hrun : serNode traversalFuel Config.root 0 s with
  | done v u =>
    rw [hrun] at honly
    obtain ⟨t, ht, hv, hcap⟩ := serNode_done hrun
    have htree : HoldsTree s t = true := holdsTree_iff.mpr ⟨ht, by omega⟩
    exact ⟨u, honly, .inl ⟨⟨t, htree⟩, exec_tser_of_done hrun⟩⟩
  | raised c u =>
    rw [hrun] at honly hends
    obtain rfl : c = .treeInvariant := hends.2
    refine ⟨u, honly, .inr ⟨?_, exec_tser_of_raised hrun⟩⟩
    rintro ⟨t, ht⟩
    obtain ⟨w, hw, _⟩ := putBits_accepted (ser t) h
    rw [serNode_of_holdsTree ht, hw] at hrun
    cases hrun
  | stuck f =>
    rw [hrun] at hends
    exact hends.elim

theorem exec_tser_of_not_holdsTree {s : State} (h : SinkAccepts s) (hnone : ¬ ∃ t, HoldsTree s t = true) :
    ∃ u, exec .tser s = .next u ∧ CompletedFault .treeInvariant s u := by
  obtain ⟨u, hu, ⟨htree, _⟩ | ⟨_, hexec⟩⟩ := exec_tser_accepted h
  · exact absurd htree hnone
  · exact ⟨_, hexec, (enterFault_completedFault _ u).of_sameSticky hu.sameSticky⟩

/-! ## Single steps of the traversal -/

theorem serNode_at_nil (n visits : Nat) (s : State) :
    serNode (n + 1) Config.nil visits s = .raised .treeInvariant s := if_pos rfl

/-- A visit of an Internal entry that puts its bit goes on at the left child. -/
theorem serNode_internal {n visits : Nat} {i : Index} {s t : State} (hi : i ≠ Config.nil) (hv : visits < Config.nodeCap)
    (htag : entryTag s i = false) (ht : putBits [false] s = .done () t) :
    serNode (n + 1) i visits s =
      andThen (serNode n (entryLeft s i) (visits + 1) t) fun v u => serNode n (entryRight s i) v u := by
  have hroom : ¬ Config.nodeCap < visits + 1 := Nat.not_lt.mpr hv
  rw [serNode, if_neg hi, if_neg hroom, htag, if_neg Bool.false_ne_true, internalToken, ht, andThen_done]

theorem OnlyWriter.entryWord0 {s t : State} (h : OnlyWriter s t) (i : Index) : entryWord0 t i = entryWord0 s i :=
  h.sameTree.reads _

/-- The walk down a root that is its own left child: a `0` bit for every visit left, then TreeInvariant. -/
theorem serNode_rootCycle (k : Nat) {s u : State} {visits : Nat} (htag : entryTag s Config.root = false)
    (hleft : entryLeft s Config.root = Config.root) (hv : visits + k = Config.nodeCap)
    (hu : putBits (List.replicate k false) s = .done () u) :
    serNode (k + 1) Config.root visits s = .raised .treeInvariant u := by
  have hroot : Config.root ≠ Config.nil := by decide
  induction k generalizing s visits with
  | zero =>
    cases hu
    rw [serNode, if_neg hroot, if_pos (by omega)]
  | succ k ih =>
    obtain ⟨⟨⟩, t, ht, hrest⟩ := andThen_eq_done.mp hu
    have hbit : putBits [false] s = .done () t := by rw [putBits, ht]; rfl
    have hword := (putBits_done_onlyWriter hbit).entryWord0 Config.root
    rw [serNode_internal hroot (by omega) htag hbit, hleft,
      ih (by rw [entryTag, hword]; exact htag) (by rw [entryLeft, hword]; exact hleft) (by omega) hrest, andThen_raised]

end Sys2Proof.Machine

namespace Sys2Proof
open Sys2Proof.Machine

/-- Settles O29: `serNode_of_holdsTree`, whose bits an accepting sink takes. -/
theorem tserRealisesSer : Obligations.TserRealisesSer := by
  intro t s htree haccept
  obtain ⟨u, hu, _, hwpos⟩ := putBits_accepted (ser t) haccept
  have hrun : serNode traversalFuel Config.root 0 s = .done (treeNodes t) u := by
    rw [serNode_of_holdsTree htree, hu, andThen_done]
  have honly := putBits_done_onlyWriter hu
  exact ⟨u, hu, hrun, exec_tser_of_done hrun, hwpos, honly.sameReader, honly.sameTree, honly.sameSticky, honly.sameHost,
    honly.errinfo⟩

/-- Settles O15: TSER over a held tree raises where `putBits` of its serialisation does. -/
theorem tserStopsAtTheRefusedByte : Obligations.TserStopsAtTheRefusedByte := by
  intro t e s u htree hu
  have hrun : serNode traversalFuel Config.root 0 s = .raised (.sinkError e) u := by
    rw [serNode_of_holdsTree htree, hu, andThen_raised]
  have honly := putBits_raised_onlyWriter hu
  have hadvance := putBits_keeps (streamsAdvance_keptByActions s).putBit (ser t) (StreamsAdvance.refl s)
  rw [hu] at hadvance
  exact ⟨exec_tser_of_raised hrun, hadvance.1.snk, honly.sameReader, honly.sameTree, honly.sameHost⟩

/-- Settles O30: `exec_tser_accepted`. -/
theorem tserEndsOnEveryImage : Obligations.TserEndsOnEveryImage := by
  intro s haccept
  obtain ⟨u, hu, ⟨htree, hexec⟩ | ⟨hnone, hexec⟩⟩ := exec_tser_accepted haccept
  · obtain ⟨hreader, hsame, hhost⟩ := (exec_tser_next hexec).frame
    exact ⟨_, hexec, fun _ => ⟨⟨rfl, rfl, hu.errinfo⟩, hu.sameSticky.trans (completeOk_sameSticky false u)⟩,
      fun hnone => absurd htree hnone, hreader, hsame, hhost⟩
  · obtain ⟨hreader, hsame, hhost⟩ := (exec_tser_next hexec).frame
    exact ⟨_, hexec, fun htree => absurd htree hnone,
      fun _ => (enterFault_completedFault _ u).of_sameSticky hu.sameSticky, hreader, hsame, hhost⟩

/-- Settles O31: the root's left child by the two visits made, any other by the absence of a held tree. -/
theorem missingChildRaisesTreeInvariant : Obligations.MissingChildRaisesTreeInvariant := by
  refine ⟨fun s u htag hleft hu => exec_tser_of_raised ?_, fun path s haccept hp =>
    exec_tser_of_not_holdsTree haccept (not_holdsTree_of_nil hp)⟩
  show serNode (Config.nodeCap + 1) Config.root 0 s = _
  rw [serNode_internal (by decide) (by decide) htag hu, hleft]
  exact congrArg (andThen · _) (serNode_at_nil 510 1 u)

/-- Settles O32: the root's own cycle by `serNode_rootCycle`, any other by the absence of a held tree. -/
theorem cycleRaisesTreeInvariant : Obligations.CycleRaisesTreeInvariant :=
  ⟨fun _ _ htag hleft hu => exec_tser_of_raised (serNode_rootCycle 511 htag hleft rfl hu),
    fun _ _ _ _ haccept hp hne hc => exec_tser_of_not_holdsTree haccept (not_holdsTree_of_cycle hp hne hc)⟩

end Sys2Proof
end

section
/-! SUPPORT. TDES and the tokens on bits that BR delivers (42_treecodec.md R107, R109, R110): a whole tree, the two subtrees of
a TOK0, the first token; and TSER on the image that TDES left. -/

namespace Sys2Proof.Machine

/-! ## What a piece does not read -/

/-- The states a result holds, changed by `f`. -/
def mapState {α : Type} (f : State → State) (r : Res α) : Res α :=
  match r with
  | .done a t => .done a (f t)
  | .raised c t => .raised c (f t)
  | .stuck e => .stuck e

theorem snkWrite_completeOk (w : BitVec 8) (v : Bool) (s : State) :
    snkWrite w (completeOk v s) = mapState (completeOk v) (snkWrite w s) := by
  rw [snkWrite, snkWrite, completeOk_snkAnswers]
  cases nextAnswer s.snkAnswers <;> rfl

/-- BW's operations read nothing of `RESULT`. -/
theorem putBit_completeOk (b v : Bool) (s : State) :
    putBit b (completeOk v s) = mapState (completeOk v) (putBit b s) := by
  by_cases h : s.wcnt.toNat < 7
  · rw [putBit_early b h, putBit_early b (s := completeOk v s) h]
    rfl
  · rw [putBit, if_neg (by rwa [completeOk_wcnt]), putBit, if_neg h,
      show accWithBit b (completeOk v s) = accWithBit b s from rfl, snkWrite_completeOk]
    cases snkWrite (accWithBit b s) s <;> rfl

theorem flushPending_completeOk (v : Bool) (s : State) :
    flushPending (completeOk v s) = mapState (completeOk v) (flushPending s) := by
  by_cases h : s.wcnt = 0#3
  · rw [flushPending_idle h, flushPending_idle (s := completeOk v s) h]
    rfl
  · rw [flushPending, if_neg (by rwa [completeOk_wcnt]), flushPending, if_neg h, completeOk_wacc, snkWrite_completeOk]
    cases snkWrite s.wacc s <;> rfl

theorem enterFault_completeOk (c : Cause) (v : Bool) (s : State) : enterFault c (completeOk v s) = enterFault c s := by
  cases c <;> rfl

theorem exec_wflush_completeOk (v : Bool) (s : State) : exec .wflush (completeOk v s) = exec .wflush s := by
  simp only [exec, execWflush, flushPending_completeOk]
  cases flushPending s with
  | done a t => rfl
  | raised c t => exact congrArg Host.Outcome.next (enterFault_completeOk c v t)
  | stuck f => rfl

/-! ## TDES by the end of its traversal -/

theorem exec_tdes_of_raised {c : Cause} {s u : State} (h : desNode traversalFuel { s with tnodes := 0#10 } = .raised c u) :
    exec .tdes s = .next (enterTreeFault c u) := by
  simp [exec, execTdes, h, finishTdes]

theorem exec_tdes_of_stuck {f : Fault} {s : State} (h : desNode traversalFuel { s with tnodes := 0#10 } = .stuck f) :
    exec .tdes s = .fault f := by
  simp [exec, execTdes, h, finishTdes]

theorem desNode_raised_onlyTdes {c : Cause} {s u : State}
    (h : desNode traversalFuel { s with tnodes := 0#10 } = .raised c u) : OnlyTdes s u := by
  have honly := desNode_onlyTdes_of_clear traversalFuel s
  rwa [h] at honly

/-- A TDES that completed `OK` has read the tree its bits begin with, and it fitted (42_treecodec.md R107, R111). -/
theorem exec_tdes_ok {s u : State} (hd : SourceDelivers s) (hc : s.rcnt.toNat ≤ 8) (h : exec .tdes s = .next u)
    (hok : u.code = .ok) :
    ∃ t rest v, streamBits s = ser t ++ rest ∧ treeNodes t ≤ Config.nodeCap ∧
      ReadsTree t rest { s with tnodes := 0#10 } v ∧ u = completeOk false v := by
  have hfuel : Config.nodeCap + 1 ≤ traversalFuel + (0#10).toNat := Nat.le_refl _
  cases hdes : des (streamBits s) with
  | none =>
    have hnot := desNode_not_done (s := { s with tnodes := 0#10 }) hd hc hdes hfuel (Nat.zero_le _)
    cases hrun : desNode traversalFuel { s with tnodes := 0#10 } with
    | done i v => exact absurd hrun (hnot i v)
    | raised c v =>
      obtain rfl := Host.Outcome.next.inj ((exec_tdes_of_raised hrun).symm.trans h)
      exact absurd ((enterTreeFault_completedFault c v).code.symm.trans hok) (causeCode_ne_ok c)
    | stuck f => cases (exec_tdes_of_stuck hrun).symm.trans h
  | some p =>
    obtain ⟨t, rest⟩ := p
    obtain ⟨hser, _⟩ := des_sound hdes
    by_cases hcap : treeNodes t ≤ Config.nodeCap
    · obtain ⟨v, hexec, hreads⟩ := exec_tdes_reads hd hc hser hcap
      exact ⟨t, rest, v, hser, hcap, hreads, (Host.Outcome.next.inj (hexec.symm.trans h)).symm⟩
    · obtain ⟨v, hrun⟩ := desNode_full t (s := { s with tnodes := 0#10 }) hd hc hser hfuel (Nat.zero_le _)
        (Nat.lt_of_lt_of_eq (Nat.not_le.mp hcap) (Nat.zero_add _).symm)
      obtain rfl := Host.Outcome.next.inj ((exec_tdes_of_raised hrun).symm.trans h)
      exact absurd ((enterTreeFault_completedFault .treeCapacity v).code.symm.trans hok) (causeCode_ne_ok _)

theorem holdsAt_completeOk (v : Bool) (s : State) (t : Tree) (i : Index) :
    HoldsAt (completeOk v s) t i = HoldsAt s t i := by
  induction t generalizing i with
  | leaf sym f => rfl
  | internal f l r ihl ihr => simp only [HoldsAt, ihl, ihr]; rfl

/-- After a TDES that completed `OK` TMEM holds the tree read, with placeholder frequencies (42_treecodec.md R110). -/
theorem ReadsTree.holdsTree {t : Tree} {rest : Bits} {s u : State} (h : ReadsTree t rest { s with tnodes := 0#10 } u)
    (hcap : treeNodes t ≤ Config.nodeCap) : HoldsTree (completeOk false u) (treePlaceholder t) = true := by
  have hroot := holdsAt_of_preorderImage t (i := 0) ((Nat.zero_add _).trans_le hcap) h.image
  rw [holdsTree_iff, holdsAt_completeOk, treeNodes_placeholder]
  exact ⟨hroot, hcap⟩

theorem onlyTdes_clearTnodes (s : State) : OnlyTdes s { s with tnodes := 0#10 } := rfl

theorem ReadsTree.onlyTdes {t : Tree} {rest : Bits} {s u : State} (h : ReadsTree t rest { s with tnodes := 0#10 } u) :
    OnlyTdes s u := (onlyTdes_clearTnodes s).trans h.only

/-! ## The two bodies of a node -/

/-- TDES after a tag 0, its subtrees read with `n` levels (42_treecodec.md R107). -/
def internalBody (n : Nat) (s : State) : Res Index :=
  andThen (allocEntry s) fun i s1 =>
  andThen (desNode n s1) fun l s2 =>
  andThen (desNode n s2) fun r s3 => .done i (writeInternal i l r s3)

/-- TDES after a tag 1 (42_treecodec.md R107). -/
def leafBody (s : State) : Res Index :=
  andThen (allocEntry s) fun i s1 =>
  andThen (getBitsInto 8 0#8 s1) fun sym s2 => .done i (writeLeaf i sym s2)

theorem openInternal_eq_internalBody (s : State) : openInternal s = internalBody traversalFuel s := rfl

theorem desNode_of_tag_false (n : Nat) {s s1 : State} (h : getBit s = .done false s1) :
    desNode (n + 1) s = internalBody n s1 := by
  simp [desNode, h, internalBody]

theorem desNode_of_tag_true (n : Nat) {s s1 : State} (h : getBit s = .done true s1) :
    desNode (n + 1) s = leafBody s1 := by
  simp [desNode, h, leafBody]

/-- The levels a subtree may have do not show where there is one for every entry left. -/
theorem internalBody_fuel {n m : Nat} {s : State} (hn : Config.nodeCap ≤ n + s.tnodes.toNat)
    (hm : Config.nodeCap ≤ m + s.tnodes.toNat) : internalBody n s = internalBody m s := by
  unfold internalBody
  obtain hlt | hge := Nat.lt_or_ge s.tnodes.toNat Config.nodeCap
  · have htn : (claimEntry s).tnodes.toNat = s.tnodes.toNat + 1 := tnodes_add_one hlt
    rw [allocEntry_free hlt, andThen_done, andThen_done,
      desNode_fuel (s := claimEntry s) (n := n) (m := m) (by omega) (by omega) (by omega)]
    cases hl : desNode m (claimEntry s) with
    | done l s2 =>
      obtain ⟨hup, hcap⟩ := desNode_tnodes (by omega) hl
      rw [andThen_done, andThen_done, desNode_fuel (s := s2) (n := n) (m := m) (by omega) (by omega) hcap]
    | raised c t => rfl
    | stuck f => rfl
  · rw [allocEntry_full hge]
    rfl

/-- TOK0 reads its two subtrees and joins them (42_treecodec.md R107, R109). -/
theorem openInternal_reads {l r : Tree} {rest : Bits} {s : State} (hd : SourceDelivers s) (hc : s.rcnt.toNat ≤ 8)
    (hs : streamBits s = ser l ++ ser r ++ rest)
    (hcap : s.tnodes.toNat + 1 + treeNodes l + treeNodes r ≤ Config.nodeCap) :
    ∃ s2 s3, openInternal s = .done (s.tnodes.setWidth 9)
        (writeInternal (s.tnodes.setWidth 9) ((claimEntry s).tnodes.setWidth 9) (s2.tnodes.setWidth 9) s3) ∧
      ReadsTree l (ser r ++ rest) (claimEntry s) s2 ∧ ReadsTree r rest s2 s3 := by
  have hlt : s.tnodes.toNat < Config.nodeCap := by omega
  have htn : (claimEntry s).tnodes.toNat = s.tnodes.toNat + 1 := tnodes_add_one hlt
  have hfuel : Config.nodeCap + 1 = traversalFuel := rfl
  obtain ⟨s2, hl, hleft⟩ := desNode_reads l (rest := ser r ++ rest) (s := claimEntry s) (n := traversalFuel) hd hc
    (hs.trans (List.append_assoc _ _ _)) (by omega) (by omega)
  have ht2 := hleft.tnodes
  obtain ⟨s3, hr, hright⟩ := desNode_reads r (s := s2) (n := traversalFuel) hleft.delivers hleft.rcnt hleft.stream
    (by omega) (by omega)
  refine ⟨s2, s3, ?_, hleft, hright⟩
  rw [openInternal, allocEntry_free hlt, andThen_done, hl, andThen_done, hr, andThen_done]

end Sys2Proof.Machine

namespace Sys2Proof
open Sys2Proof.Machine

/-- Settles O33: `exec_tdes_reads`, whose image holds the tree that `des` answers. -/
theorem tdesRealisesDes : Obligations.TdesRealisesDes := by
  intro t rest s hd hc hdes hcap
  obtain ⟨hser, hplaceholder⟩ := des_sound hdes
  obtain ⟨u, hexec, hreads⟩ := exec_tdes_reads hd hc hser hcap
  have honly : OnlyTdes s u := hreads.onlyTdes
  have hnodes : u.tnodes.toNat = treeNodes t := hreads.tnodes.trans (Nat.zero_add _)
  have hholds := hreads.holdsTree hcap
  rw [hplaceholder] at hholds
  exact ⟨_, hexec, hholds, hnodes, fun a ha => hreads.above a (hnodes ▸ ha), hreads.stream, hreads.rpos,
    ⟨rfl, rfl, honly.errinfo⟩, honly.sameWriter.trans (completeOk_sameWriter false u),
    honly.sameSticky.trans (completeOk_sameSticky false u), honly.sameHost.trans (completeOk_sameHost false u)⟩

/-- Settles O37: a TDES that completed has read one tree's serialisation, which TSER puts from the image. -/
theorem tserReproducesWhatTdesRead : Obligations.TserReproducesWhatTdesRead := by
  intro s u hd haccept hc h hok
  obtain ⟨t, rest, v, hstream, hcap, hreads, rfl⟩ := exec_tdes_ok hd hc h hok
  have haccepts : SinkAccepts (completeOk false v) := by
    rw [SinkAccepts, completeOk_snkAnswers, hreads.onlyTdes.sameWriter.snkAnswers]
    exact haccept
  obtain ⟨w, hw, _⟩ := putBits_accepted (ser t) haccepts
  refine ⟨ser t, w, hstream.trans (congrArg (ser t ++ ·) hreads.stream.symm), hw, exec_tser_of_done (v := treeNodes t) ?_⟩
  rw [serNode_of_holdsTree (hreads.holdsTree hcap), ser_placeholder, hw, andThen_done, treeNodes_placeholder]

/-- Settles O38: TSER and WFLUSH make the sink's gain the packed serialisation, from which TDES reads the tree and leaves the
padding. -/
theorem treeSurvivesTserThenTdes : Obligations.TreeSurvivesTserThenTdes := by
  intro t s htree hs haccept
  obtain ⟨u, hu, huaccept, _⟩ := putBits_accepted (ser t) haccept
  have hrun : serNode traversalFuel Config.root 0 s = .done (treeNodes t) u := by
    rw [serNode_of_holdsTree htree, hu, andThen_done]
  obtain ⟨v, hv, hok⟩ := exec_wflush_accepted huaccept
  obtain ⟨hsnk, _⟩ := exec_wflush_completes_pack hs hu hv hok
  refine ⟨_, v, exec_tser_of_done hrun, (exec_wflush_completeOk false u).trans hv, fun r hr hd hsrc => ?_⟩
  rw [hsnk, List.drop_left] at hsrc
  have hstream : streamBits r = ser t ++ List.replicate ((8 - (ser t).length % 8) % 8) false := by
    rw [streamBits_nil_held hr, hsrc, unpack_pack]
  have hcap := (holdsTree_iff.mp htree).2
  obtain ⟨x, hexec, hreads⟩ := exec_tdes_reads hd (by rw [hr]; decide) hstream hcap
  exact ⟨_, hexec, rfl, hreads.holdsTree hcap⟩

/-- Settles O40: the two subtrees read one after the other (`openInternal_reads`), joined (`readsTree_join`). -/
theorem tok0JoinsTwoSubtrees : Obligations.Tok0JoinsTwoSubtrees := by
  intro l r rest s hd hc hs hcap
  obtain ⟨s2, s3, hrun, hleft, hright⟩ := openInternal_reads hd hc hs hcap
  have hjoined : s.tnodes.toNat + treeNodes (.internal 0 l r) ≤ Config.nodeCap := by simp only [treeNodes]; omega
  obtain ⟨htnodes, himage, hbelow, habove, hstream, _, _, _, honly⟩ := readsTree_join 0 hjoined rfl hleft hright
  refine ⟨_, congrArg finishToken hrun, htnodes.trans (by simp only [treeNodes]; omega), himage, hstream, ?_, honly.sameWriter,
    honly.sameSticky, honly.sameHost, honly.code, honly.value, honly.errinfo⟩
  rintro a (ha | ha)
  · exact hbelow a ha
  · exact habove a ha

end Sys2Proof
end

section
/-! SUPPORT. TDES where the bits delivered so far end inside their tree (42_treecodec.md R105, R111): while entries are left it
goes on with another `GetBit`, whatever that one then answers; the tag after `NODE_CAP` tags finds no entry. -/

namespace Sys2Proof.Machine

/-! ## BR reads nothing of TC -/

/-- `s` with another `TNODES` and another TMEM. -/
def withTree (k : BitVec 10) (m : WordMemory) (s : State) : State := { s with tnodes := k, tmem := m }

theorem srcRead_withTree (k : BitVec 10) (m : WordMemory) (s : State) :
    srcRead (withTree k m s) = mapState (withTree k m) (srcRead s) := by
  simp only [srcRead, withTree]
  split <;> rfl

theorem getBit_withTree (k : BitVec 10) (m : WordMemory) (s : State) :
    getBit (withTree k m s) = mapState (withTree k m) (getBit s) := by
  by_cases h : s.rcnt = 0#4
  · rw [getBit, if_pos (show (withTree k m s).rcnt = 0#4 from h), srcRead_withTree, getBit, if_pos h]
    cases srcRead s <;> rfl
  · rw [getBit_held h, getBit_held (s := withTree k m s) h]
    rfl

theorem getBit_done_withTree {b : Bool} {s t : State} (k : BitVec 10) (m : WordMemory) (h : getBit s = .done b t) :
    getBit (withTree k m s) = .done b (withTree k m t) := by
  rw [getBit_withTree, h]
  rfl

theorem getBits_done_withTree {n : Nat} {bits : Bits} {s u : State} (k : BitVec 10) (m : WordMemory)
    (h : getBits n s = .done bits u) : getBits n (withTree k m s) = .done bits (withTree k m u) := by
  induction n generalizing bits s with
  | zero => cases h; rfl
  | succ n ih =>
    obtain ⟨b, t, rest, hb, hrest, rfl⟩ := getBits_succ_done h
    rw [getBits, getBit_done_withTree k m hb, andThen_done, ih hrest, andThen_done]

/-! ## Bits that have been delivered -/

theorem getBits_cons {b : Bool} {rest : Bits} {s u : State}
    (h : getBits (b :: rest).length s = .done (b :: rest) u) :
    ∃ t, getBit s = .done b t ∧ getBits rest.length t = .done rest u := by
  obtain ⟨c, t, more, hc, hmore, he⟩ := getBits_succ_done h
  obtain ⟨rfl, rfl⟩ := List.cons.inj he
  exact ⟨t, hc, hmore⟩

theorem getBits_split (a : Bits) {b : Bits} {s u : State} (h : getBits (a ++ b).length s = .done (a ++ b) u) :
    ∃ t, getBits a.length s = .done a t ∧ getBits b.length t = .done b u := by
  induction a generalizing s with
  | nil => exact ⟨s, rfl, h⟩
  | cons x rest ih =>
    obtain ⟨t, hx, hrest⟩ := getBits_cons h
    obtain ⟨v, hv, hb⟩ := ih hrest
    exact ⟨v, by rw [List.length_cons, getBits, hx, andThen_done, hv, andThen_done], hb⟩

theorem getBitsInto_of_getBits {bits : Bits} {s u : State} (acc : BitVec 8)
    (h : getBits bits.length s = .done bits u) : getBitsInto bits.length acc s = .done (bits.foldl shiftIn acc) u := by
  induction bits generalizing acc s with
  | nil => cases h; rfl
  | cons b rest ih =>
    obtain ⟨t, hb, hrest⟩ := getBits_cons h
    rw [List.length_cons, getBitsInto, hb, andThen_done, ih _ hrest, List.foldl_cons]

/-- Reading into a byte that has had some of its bits goes on with another `GetBit`. -/
theorem getBitsInto_goes_on {bits : Bits} {s v : State} {n : Nat} (acc : BitVec 8)
    (h : getBits bits.length s = .done bits v) (hn : bits.length < n) :
    ∃ f, getBitsInto n acc s = andThen (getBit v) f := by
  induction bits generalizing acc s n with
  | nil =>
    cases h
    obtain ⟨k, rfl⟩ := Nat.exists_eq_add_one.mpr hn
    exact ⟨_, rfl⟩
  | cons b rest ih =>
    obtain ⟨t, hb, hrest⟩ := getBits_cons h
    obtain ⟨k, rfl⟩ := Nat.exists_eq_add_one.mpr (Nat.zero_lt_of_lt hn)
    obtain ⟨f, hf⟩ := ih (shiftIn acc b) hrest (Nat.lt_of_succ_lt_succ hn)
    exact ⟨f, by rw [getBitsInto, hb, andThen_done, hf]⟩

/-! ## Tags -/

theorem tagCount_false (rest : Bits) : tagCount (false :: rest) = 1 + tagCount rest := rfl

/-- The tags of a whole tree are its nodes (42_treecodec.md R107). -/
theorem tagCount_ser (t : Tree) (rest : Bits) : tagCount (ser t ++ rest) = treeNodes t + tagCount rest := by
  induction t generalizing rest with
  | leaf sym f => rfl
  | internal f l r ihl ihr =>
    rw [ser, List.cons_append, tagCount_false, List.append_assoc, ihl, ihr, treeNodes]
    omega

/-- No tag lies within a Leaf's symbol. -/
theorem tagCountAfter_of_length_le {k : Nat} {bits : Bits} (h : bits.length ≤ k) : tagCountAfter k bits = 0 := by
  induction bits generalizing k with
  | nil => exact tagCountAfter_nil k
  | cons b rest ih =>
    obtain ⟨j, rfl⟩ := Nat.exists_eq_add_one.mpr (Nat.zero_lt_of_lt h)
    rw [tagCountAfter_succ, ih (Nat.le_of_succ_le_succ h)]

/-! ## A tree's bits delivered -/

theorem toNat_add_one_of_room {k : BitVec 10} (h : k.toNat < Config.nodeCap) : (k + 1).toNat = k.toNat + 1 :=
  tnodes_add_one (s := withTree k [] State.reset) h

theorem allocEntry_withTree {k : BitVec 10} (h : k.toNat < Config.nodeCap) (m : WordMemory) (s : State) :
    allocEntry (withTree k m s) = .done (k.setWidth 9) (withTree (k + 1) m s) :=
  allocEntry_free (s := withTree k m s) h

/-- TDES on the bits of a whole tree, delivered in whatever way: it claims the tree's entries and stands after its bits. -/
theorem desNode_of_getBits (t : Tree) {n : Nat} {k : BitVec 10} {m : WordMemory} {s u : State}
    (h : getBits (ser t).length s = .done (ser t) u) (hn : Config.nodeCap + 1 ≤ n + k.toNat)
    (hcap : k.toNat + treeNodes t ≤ Config.nodeCap) :
    ∃ i k' m', desNode n (withTree k m s) = .done i (withTree k' m' u) ∧ k'.toNat = k.toNat + treeNodes t := by
  have hroom : k.toNat < Config.nodeCap := by have := treeNodes_pos t; omega
  have hclaim := toNat_add_one_of_room hroom
  obtain ⟨n, rfl⟩ : ∃ j, n = j + 1 := ⟨n - 1, by omega⟩
  induction t generalizing n k m s u with
  | leaf sym f =>
    obtain ⟨s1, htag, hsym⟩ := getBits_cons h
    have hread := getBitsInto_of_getBits 0#8 (getBits_done_withTree (k + 1) m hsym)
    rw [desNode_of_tag_true n (getBit_done_withTree k m htag), leafBody, allocEntry_withTree hroom, andThen_done]
    rw [bits8_length] at hread
    rw [hread, andThen_done]
    exact ⟨_, k + 1, _, rfl, hclaim⟩
  | internal f l r ihl ihr =>
    rw [treeNodes] at hcap
    have hposl := treeNodes_pos l
    have hposr := treeNodes_pos r
    obtain ⟨s1, htag, hsub⟩ := getBits_cons h
    obtain ⟨s2, hl, hr⟩ := getBits_split (ser l) hsub
    have hroom1 : (k + 1).toNat < Config.nodeCap := by omega
    obtain ⟨n, rfl⟩ : ∃ j, n = j + 1 := ⟨n - 1, by omega⟩
    obtain ⟨i, k2, m2, hrunl, hk2⟩ := ihl (m := m) hl (by omega) hroom1 (toNat_add_one_of_room hroom1) n (by omega)
    have hroom2 : k2.toNat < Config.nodeCap := by omega
    obtain ⟨j, k3, m3, hrunr, hk3⟩ := ihr (m := m2) hr (by omega) hroom2 (toNat_add_one_of_room hroom2) n (by omega)
    rw [desNode_of_tag_false _ (getBit_done_withTree k m htag), internalBody, allocEntry_withTree hroom, andThen_done,
      hrunl, andThen_done, hrunr, andThen_done]
    exact ⟨_, k3, _, rfl, by rw [treeNodes]; omega⟩

/-! ## Bits that end inside their tree -/

/-- After `bits`, which brought BR to `v`, a piece of TDES that had `k` entries before them goes on with another `GetBit`; and
where a further bit is a tag and no entry is left for it, it then raises TreeCapacity. -/
def GoesOn (k : Nat) (bits : Bits) (v : State) (r : Res Index) : Prop :=
  ∃ k' m f, r = andThen (getBit (withTree k' m v)) f ∧ k'.toNat = k + tagCount bits ∧
    ∀ tag w, tagCount (bits ++ [tag]) = tagCount bits + 1 → Config.nodeCap ≤ w.tnodes.toNat →
      f tag w = .raised .treeCapacity w

theorem GoesOn.andThen {k : Nat} {bits : Bits} {v : State} {r : Res Index} (h : GoesOn k bits v r)
    (g : Index → State → Res Index) : GoesOn k bits v (andThen r g) := by
  obtain ⟨k', m, f, rfl, hk, hfull⟩ := h
  exact ⟨k', m, _, andThen_assoc _ _ _, hk, fun tag w ht hw => by rw [hfull tag w ht hw, andThen_raised]⟩

/-- A tag 0 before the bits, its entry claimed. -/
theorem GoesOn.of_tag_false {k : Nat} {bits : Bits} {v : State} {r : Res Index} (h : GoesOn (k + 1) bits v r) :
    GoesOn k (false :: bits) v r := by
  obtain ⟨k', m, f, hr, hk, hfull⟩ := h
  refine ⟨k', m, f, hr, by rw [tagCount_false]; omega, fun tag w ht => hfull tag w ?_⟩
  rw [List.cons_append, tagCount_false, tagCount_false] at ht
  omega

/-- A whole tree before the bits, its entries claimed. -/
theorem GoesOn.of_ser {k : Nat} {t : Tree} {bits : Bits} {v : State} {r : Res Index}
    (h : GoesOn (k + treeNodes t) bits v r) : GoesOn k (ser t ++ bits) v r := by
  obtain ⟨k', m, f, hr, hk, hfull⟩ := h
  refine ⟨k', m, f, hr, by rw [tagCount_ser]; omega, fun tag w ht => hfull tag w ?_⟩
  rw [List.append_assoc, tagCount_ser, tagCount_ser] at ht
  omega

/-- The bits of a Leaf cut short. -/
theorem leafBody_goesOn {k : BitVec 10} {m : WordMemory} {bits : Bits} {s v : State}
    (h : getBits bits.length s = .done bits v) (h8 : bits.length < 8) (hroom : k.toNat < Config.nodeCap) :
    GoesOn k.toNat (true :: bits) v (leafBody (withTree k m s)) := by
  obtain ⟨f, hf⟩ := getBitsInto_goes_on 0#8 (getBits_done_withTree (k + 1) m h) h8
  have hrun : ∃ g, leafBody (withTree k m s) = andThen (getBit (withTree (k + 1) m v)) g :=
    ⟨_, by rw [leafBody, allocEntry_withTree hroom, andThen_done, hf, andThen_assoc]⟩
  obtain ⟨g, hg⟩ := hrun
  refine ⟨k + 1, m, g, hg, ?_, fun tag w ht => ?_⟩
  · show _ = k.toNat + (1 + tagCountAfter 8 bits)
    rw [toNat_add_one_of_room hroom, tagCountAfter_of_length_le (by omega)]
  · -- The next bit is one of the symbol's.
    exfalso
    have hmore : tagCountAfter 8 (bits ++ [tag]) = 0 := tagCountAfter_of_length_le (by simp; omega)
    have hnone : tagCountAfter 8 bits = 0 := tagCountAfter_of_length_le (by omega)
    change 1 + tagCountAfter 8 (bits ++ [tag]) = 1 + tagCountAfter 8 bits + 1 at ht
    omega

/-- An Internal node whose bits are cut short, given what TDES does on the bits of a subtree cut short. -/
theorem internalBody_goesOn {n : Nat} {k : BitVec 10} {m : WordMemory} {bits : Bits} {s v : State}
    (hsub : ∀ {k : BitVec 10} {m : WordMemory} {bits : Bits} {s : State}, getBits bits.length s = .done bits v →
      des bits = none → k.toNat + tagCount bits ≤ Config.nodeCap → Config.nodeCap + 1 ≤ n + k.toNat →
      GoesOn k.toNat bits v (desNode n (withTree k m s)))
    (h : getBits bits.length s = .done bits v) (hdes : des (false :: bits) = none)
    (hcap : k.toNat + tagCount (false :: bits) ≤ Config.nodeCap) (hn : Config.nodeCap + 1 ≤ n + (k.toNat + 1)) :
    GoesOn k.toNat (false :: bits) v (internalBody n (withTree k m s)) := by
  rw [tagCount_false] at hcap
  have hroom : k.toNat < Config.nodeCap := by omega
  have hclaim := toNat_add_one_of_room hroom
  rw [internalBody, allocEntry_withTree hroom, andThen_done]
  apply GoesOn.of_tag_false
  rw [des_internal] at hdes
  cases hl : des bits with
  | none =>
    -- The left subtree is cut short.
    rw [← hclaim]
    exact (hsub h hl (by omega) (by omega)).andThen _
  | some p =>
    -- The left subtree is whole, the right one cut short.
    obtain ⟨l, bits1⟩ := p
    obtain ⟨rfl, _⟩ := des_sound hl
    simp only [hl] at hdes
    have hr : des bits1 = none := by
      cases hr : des bits1 with
      | none => rfl
      | some q => simp [hr] at hdes
    rw [tagCount_ser] at hcap
    obtain ⟨s2, hbitsl, hbitsr⟩ := getBits_split (ser l) h
    obtain ⟨i, k2, m2, hrun, hk2⟩ :=
      desNode_of_getBits l (m := m) hbitsl (n := n) (k := k + 1) (by omega) (by omega)
    rw [hrun, andThen_done]
    apply GoesOn.of_ser
    rw [show k.toNat + 1 + treeNodes l = k2.toNat by omega]
    exact (hsub hbitsr hr (by omega) (by omega)).andThen _

/-- TDES on bits that end inside their tree goes on with another `GetBit`, while each of their tags finds an entry. -/
theorem desNode_goesOn {n : Nat} {k : BitVec 10} {m : WordMemory} {bits : Bits} {s v : State}
    (h : getBits bits.length s = .done bits v) (hdes : des bits = none)
    (hcap : k.toNat + tagCount bits ≤ Config.nodeCap) (hn : Config.nodeCap + 1 ≤ n + k.toNat) :
    GoesOn k.toNat bits v (desNode n (withTree k m s)) := by
  induction n generalizing k m bits s with
  | zero => omega
  | succ n ih =>
    match bits with
    | [] =>
      cases h
      refine ⟨k, m, _, rfl, rfl, fun tag w _ hw => ?_⟩
      rw [allocEntry_full hw, andThen_raised]
    | true :: rest =>
      obtain ⟨s1, htag, hrest⟩ := getBits_cons h
      have h8 : rest.length < 8 := by
        by_contra hge
        simp [des_leaf, hge] at hdes
      have hroom : k.toNat < Config.nodeCap :=
        Nat.lt_of_lt_of_le (Nat.lt_add_of_pos_right (Nat.add_pos_left Nat.one_pos _)) hcap
      rw [desNode_of_tag_true n (getBit_done_withTree k m htag)]
      exact leafBody_goesOn hrest h8 hroom
    | false :: rest =>
      obtain ⟨s1, htag, hrest⟩ := getBits_cons h
      rw [desNode_of_tag_false n (getBit_done_withTree k m htag)]
      exact internalBody_goesOn ih hrest hdes hcap (by omega)

/-- The same of a whole TDES. -/
theorem desNode_clear_goesOn {bits : Bits} {s v : State} (h : getBits bits.length s = .done bits v)
    (hdes : des bits = none) (hcap : tagCount bits ≤ Config.nodeCap) :
    GoesOn 0 bits v (desNode traversalFuel { s with tnodes := 0#10 }) :=
  desNode_goesOn (k := 0#10) (m := s.tmem) h hdes ((Nat.zero_add _).trans_le hcap) (Nat.le_refl _)

/-- The same of TOK0, whose tag has been read. -/
theorem openInternal_goesOn {bits : Bits} {s v : State} (h : getBits bits.length s = .done bits v)
    (hdes : des (false :: bits) = none) (hcap : s.tnodes.toNat + tagCount (false :: bits) ≤ Config.nodeCap) :
    GoesOn s.tnodes.toNat (false :: bits) v (openInternal s) := by
  have hfuel : Config.nodeCap + 1 = traversalFuel := rfl
  exact internalBody_goesOn (k := s.tnodes) (m := s.tmem) desNode_goesOn h hdes hcap (by omega)

theorem GoesOn.of_raised {k : Nat} {bits : Bits} {v w : State} {r : Res Index} {c : Cause} (h : GoesOn k bits v r)
    (hv : getBit v = .raised c w) : ∃ k' m, r = .raised c (withTree k' m w) := by
  obtain ⟨k', m, f, rfl, _⟩ := h
  exact ⟨k', m, by rw [getBit_withTree, hv]; rfl⟩

theorem GoesOn.of_stuck {k : Nat} {bits : Bits} {v : State} {r : Res Index} {e : Fault} (h : GoesOn k bits v r)
    (hv : getBit v = .stuck e) : r = .stuck e := by
  obtain ⟨k', m, f, rfl, _⟩ := h
  rw [getBit_withTree, hv]
  rfl

/-- The tag after as many tags as there are entries finds none. -/
theorem GoesOn.of_full {k : Nat} {bits : Bits} {v w : State} {r : Res Index} {tag : Bool} (h : GoesOn k bits v r)
    (hv : getBit v = .done tag w) (htag : tagCount (bits ++ [tag]) = tagCount bits + 1)
    (hfull : Config.nodeCap ≤ k + tagCount bits) : ∃ k' m, r = .raised .treeCapacity (withTree k' m w) := by
  obtain ⟨k', m, f, rfl, hk, hraise⟩ := h
  refine ⟨k', m, ?_⟩
  rw [getBit_done_withTree k' m hv, andThen_done, hraise tag _ htag (hfull.trans_eq hk.symm)]

theorem withTree_sameReader (k : BitVec 10) (m : WordMemory) (s : State) : SameReader s (withTree k m s) :=
  ⟨rfl, rfl, rfl, rfl, rfl, rfl⟩

/-! ## A transaction never answered -/

theorem snkWrite_never {v : BitVec 8} {s : State} (h : nextAnswer s.snkAnswers = .never) :
    snkWrite v s = .stuck .sinkNeverAnswers := by
  rw [snkWrite, h]

theorem srcRead_never {s : State} (h : nextAnswer s.srcAnswers = .never) : srcRead s = .stuck .sourceNeverAnswers := by
  rw [srcRead, h]

theorem snkWrite_stuck_kind (v : BitVec 8) (s : State) :
    ResHolds (fun _ => True) (fun _ => True) (· = .sinkNeverAnswers) (snkWrite v s) := by
  obtain ⟨_, h⟩ | ⟨e, _, h⟩ | ⟨_, h⟩ := snkWrite_cases v s <;> rw [h]
  · trivial
  · exact ⟨trivial, trivial⟩
  · rfl

/-- BW's bits get stuck only at the sink. -/
theorem putBits_stuck {bits : Bits} {s : State} {f : Fault} (h : putBits bits s = .stuck f) : f = .sinkNeverAnswers := by
  have hkind := putBits_keeps (Q := (· = .sinkNeverAnswers))
    (fun b s _ => putBit_keeps_of_snkWrite b (fun _ _ _ _ _ => trivial) (fun v => snkWrite_stuck_kind v s) trivial)
    bits (s := s) trivial
  rwa [h] at hkind

theorem srcRead_stuck_kind (s : State) :
    ResHolds (fun _ => True) (fun _ => True) (· = .sourceNeverAnswers) (srcRead s) := by
  obtain ⟨v, _, _, h⟩ | ⟨_, e, h⟩ | ⟨_, h⟩ := srcRead_cases s <;> rw [h]
  · trivial
  · exact ⟨trivial, trivial⟩
  · rfl

/-- BR's bits get stuck only at the source. -/
theorem getBit_stuck {s : State} {f : Fault} (h : getBit s = .stuck f) : f = .sourceNeverAnswers := by
  have hkind := getBit_keeps_of_srcRead (fun _ _ _ _ _ => trivial) (srcRead_stuck_kind s) trivial
  rwa [h] at hkind

theorem exec_tok0_of_stuck {f : Fault} {s : State} (h : openInternal s = .stuck f) : exec .tok0 s = .fault f := by
  simp [exec, execTok0, h, finishToken]

end Sys2Proof.Machine

namespace Sys2Proof
open Sys2Proof.Machine

/-- Settles O28: a tree in front of the initial part would be one in front of the whole, which has only its own. -/
theorem truncatedTreeEndsBits : Obligations.TruncatedTreeEndsBits := by
  intro t s x hser hx
  cases hdes : des s with
  | none => rfl
  | some p =>
    obtain ⟨u, y⟩ := p
    obtain ⟨rfl, _⟩ := des_sound hdes
    obtain ⟨_, hnil⟩ := ser_append_inj ((List.append_nil _).trans (hser.trans (List.append_assoc _ _ _)))
    exact absurd (List.append_eq_nil_iff.mp hnil.symm).2 hx

/-- Settles O12: each operation at its first transaction; TSER by `putBits`, TDES and TOK0 by `desNode_goesOn`. -/
theorem unansweredTransactionIsStuck : Obligations.UnansweredTransactionIsStuck := by
  refine ⟨fun s hnever => ⟨fun hcnt b => ?_, fun hpending => ?_, fun v => ?_⟩, fun s hnever => ⟨fun hnone => ?_, ?_⟩,
    fun t f s htree hstuck => ⟨?_, putBits_stuck hstuck⟩, fun bits f s v hbits hstuck =>
      ⟨getBit_stuck hstuck, fun hdes hcap => ?_, fun hdes hcap => ?_⟩, fun sym s => ?_⟩
  · simp [exec, execWbit, putBit, hcnt, snkWrite_never hnever, finishCommand]
  · simp [exec, execWflush, flushPending, hpending, snkWrite_never hnever, finishCommand]
  · simp [perform, hostSinkByte, snkWrite_never hnever]
  · simp [exec, execRbit, getBit, hnone, srcRead_never hnever, finishCommand]
  · simp [perform, hostSourceByte, srcRead_never hnever]
  · exact exec_tser_of_stuck (by rw [serNode_of_holdsTree htree, hstuck, andThen_stuck])
  · exact exec_tdes_of_stuck ((desNode_clear_goesOn hbits hdes hcap).of_stuck hstuck)
  · exact exec_tok0_of_stuck ((openInternal_goesOn hbits hdes hcap).of_stuck hstuck)
  · obtain hlt | hge := Nat.lt_or_ge s.tnodes.toNat Config.nodeCap
    · exact ⟨_, exec_tok1_of_room sym hlt⟩
    · exact ⟨_, exec_tok1_of_full sym hge⟩

/-- Settles O35: a whole tree too large by `desNode_full`; one cut short at its 512th tag by `desNode_goesOn`. -/
theorem oversizedTreeRaisesTreeCapacity : Obligations.OversizedTreeRaisesTreeCapacity := by
  refine ⟨fun t rest s hd hc hdes hcap => ?_, fun bits tag s v hbits hdes hcap htag => ?_⟩
  · obtain ⟨u, hrun⟩ := desNode_full t (s := { s with tnodes := 0#10 }) (n := traversalFuel) hd hc (des_sound hdes).1
      (Nat.le_refl _) (Nat.zero_le _) (hcap.trans_eq (Nat.zero_add _).symm)
    exact ⟨_, exec_tdes_of_raised hrun, enterTreeFault_after_onlyTdes (desNode_raised_onlyTdes hrun) (.inr rfl)⟩
  · obtain ⟨w, hw, hlast⟩ := getBits_split bits (b := [tag]) (by rw [List.length_append]; exact hbits)
    obtain ⟨w', hbit, he⟩ := getBits_cons hlast
    cases he
    obtain ⟨k, m, hrun⟩ := (desNode_clear_goesOn hw hdes hcap.le).of_full hbit (by omega) (by omega)
    obtain ⟨hfault, hwriter, hhost⟩ := enterTreeFault_after_onlyTdes (c := .treeCapacity)
      (desNode_raised_onlyTdes hrun) (.inr rfl)
    exact ⟨_, exec_tdes_of_raised hrun, hfault,
      (withTree_sameReader k m v).trans (enterTreeFault_sameReader _ _), hwriter, hhost⟩

/-- Settles O36: the end of a source that delivers by `desNode_runs_out`, any failed read by `desNode_goesOn`. -/
theorem truncatedStreamRaisesSourceError : Obligations.TruncatedStreamRaisesSourceError := by
  refine ⟨fun s hd hc hspos hdes hlen => ?_, fun bits e s v w hbits hfail hdes hcap => ?_⟩
  · obtain ⟨u, hrun, hrcnt, hend⟩ := desNode_runs_out (s := { s with tnodes := 0#10 }) (n := traversalFuel) hd hc hdes
      (Nat.le_refl _) ((Nat.zero_add _).trans_le hlen)
    have hadvance := desNode_keeps (streamsAdvance_keptByActions s).tdes traversalFuel
      (s := { s with tnodes := 0#10 }) (streamsAdvance_congr s s _ ⟨rfl, rfl, rfl, rfl, rfl⟩ (StreamsAdvance.refl s))
    rw [hrun] at hadvance
    obtain ⟨⟨_, hsrc, _, hbounded⟩, _⟩ := hadvance
    have hwithin := hbounded hspos
    have hreader := enterTreeFault_sameReader (.sourceError Config.eEos) u
    obtain ⟨hfault, hwriter, hhost⟩ := enterTreeFault_after_onlyTdes (c := .sourceError _)
      (desNode_raised_onlyTdes hrun) (.inl rfl)
    refine ⟨_, exec_tdes_of_raised hrun, hfault, ?_, hreader.rcnt.trans hrcnt, hwriter, hhost⟩
    rw [hreader.spos, ← hsrc]
    omega
  · obtain ⟨k, m, hrun⟩ := (desNode_clear_goesOn hbits hdes hcap).of_raised hfail
    obtain ⟨hfault, hwriter, hhost⟩ := enterTreeFault_after_onlyTdes (c := .sourceError _)
      (desNode_raised_onlyTdes hrun) (.inl rfl)
    exact ⟨_, exec_tdes_of_raised hrun, hfault,
      (withTree_sameReader k m w).trans (enterTreeFault_sameReader _ _), hwriter, hhost⟩

/-- Settles O42: after a tag 0 both run TOK0's body; after a tag 1 TDES claims its entry before the symbol's bits, TOK1 after
them, and BR reads nothing of TC. -/
theorem tdesRunsItsFirstToken : Obligations.TdesRunsItsFirstToken := by
  intro i rest s hd hc hdecode
  obtain ⟨tb, htb, hstream⟩ := encodeToken_of_decodeToken hdecode
  cases i with
  | wbit | wflush | rbit | tser | tdes => cases htb
  | tok0 =>
    obtain rfl := Option.some.inj htb
    obtain ⟨t, ht, hrest, _, _, _, honly⟩ := getBit_delivers (s := { s with tnodes := 0#10 }) hd hc hstream
    have hframe := (onlyTdes_clearTnodes s).trans honly.onlyTdes
    have htn : t.tnodes = 0#10 := honly.sameTree.tnodes
    have hcap : Config.nodeCap ≤ 511 + t.tnodes.toNat := by rw [htn]; decide
    refine ⟨t, openInternal t, hrest, htn, honly.sameTree.tmem, honly.sameTree.tmemEpoch, hframe.sameWriter,
      hframe.sameSticky, hframe.sameHost, congrArg finishTdes ?_, rfl⟩
    rw [openInternal_eq_internalBody, internalBody_fuel (n := traversalFuel) (m := 511) (Nat.le_trans hcap (by
      simp [traversalFuel, Config.nodeCap])) hcap]
    exact desNode_of_tag_false 511 ht
  | tok1 sym =>
    obtain rfl := Option.some.inj htb
    obtain ⟨t, ht, hrest, htd, htc, _, honly⟩ := getBit_delivers (s := { s with tnodes := 0#10 }) hd hc hstream
    obtain ⟨v, hv, hvrest, _, _, _, hvonly⟩ := getBits_delivers (bits8 sym) rest htd htc hrest
    have hboth := honly.trans hvonly
    have hframe := (onlyTdes_clearTnodes s).trans hboth.onlyTdes
    have htn : v.tnodes = 0#10 := hboth.sameTree.tnodes
    have hread := getBitsInto_of_getBits 0#8 (getBits_done_withTree (t.tnodes + 1) t.tmem hv)
    have hclaim : withTree (t.tnodes + 1) t.tmem v = claimEntry v := by
      rw [← hvonly.sameTree.tnodes, ← hvonly.sameTree.tmem]
      rfl
    refine ⟨v, storeLeaf sym v, hvrest, htn, hboth.sameTree.tmem, hboth.sameTree.tmemEpoch, hframe.sameWriter,
      hframe.sameSticky, hframe.sameHost, congrArg finishTdes ?_, rfl⟩
    have hroom : v.tnodes.toNat < Config.nodeCap := by rw [htn]; decide
    have hroomt : t.tnodes.toNat < Config.nodeCap := hvonly.sameTree.tnodes ▸ hroom
    have hsym : (bits8 sym).foldl shiftIn 0#8 = sym := val8_bits8 sym
    rw [bits8_length, hsym, hclaim] at hread
    rw [storeLeaf, allocEntry_free hroom, andThen_done, hvonly.sameTree.tnodes]
    refine (desNode_of_tag_true 511 ht).trans ?_
    rw [leafBody, allocEntry_free hroomt, andThen_done]
    exact congrArg (andThen · _) hread

end Sys2Proof
end

section
/-! SUPPORT. The registers as the host port shows them, what a port access and a direct access do, and how a command comes to
run (10_state.md R18, R19; 20_memory.md R41, R46, R51; 70_reset_and_hazards.md R191, R192). -/

namespace Sys2Proof.Machine

/-! ## Steps -/

/-- With nothing for the host to do the block waits (log 20). -/
theorem step_of_idle {s : State} (h : s.host = []) : step s = .next s := by
  rw [step, h]

theorem step_of_action {act : HostAction} {rest : List HostAction} {s : State} (h : s.host = act :: rest) :
    step s = perform act (takeAction rest s) := by
  rw [step, h]

theorem issueCommand_of_ok {w : BitVec 32} {i : Instr} (h : decodeCommand w = .ok i) (s : State) :
    issueCommand w s = exec i s := by
  rw [issueCommand, h]

/-- A step on a write to `CMD` of a word that decodes executes the command (20_memory.md R51). -/
theorem step_of_command {w : BitVec 32} {i : Instr} {rest : List HostAction} {s : State}
    (h : s.host = .write 0x000#11 w :: rest) (hw : decodeCommand w = .ok i) : step s = exec i (takeAction rest s) :=
  (step_of_action h).trans ((portWrite_cmd w _).trans (issueCommand_of_ok hw _))

/-- A command word placed first is fetched by the next step (log 1). -/
theorem step_of_commandWrite {i : Instr} {cw : BitVec 8} {rest : List HostAction} {s : State}
    (hi : encodeCommand i = some cw) (h : s.host = commandWrite cw :: rest) : step s = exec i (takeAction rest s) :=
  step_of_command h (decodeCommand_of_encodeCommand hi)

theorem encode_command {i : Instr} {cw : BitVec 8} (h : encode i = .command cw) : encodeCommand i = some cw := by
  cases i with
  | wbit | wflush | rbit | tser | tdes => cases h; rfl
  | tok0 | tok1 => cases h

theorem placeToken_sourceDelivers (bits : Bits) (s : State) : SourceDelivers (placeToken bits s) := nofun

/-- The bits a placed token makes BR deliver: its own, then zeros to the byte boundary (log 13). -/
theorem streamBits_placeToken (bits : Bits) (s : State) :
    streamBits (placeToken bits s) = bits ++ List.replicate ((8 - bits.length % 8) % 8) false := by
  have hrest : (placeToken bits s).src.drop (placeToken bits s).spos = pack bits := List.drop_left
  rw [streamBits_nil_held (s := placeToken bits s) rfl, hrest, unpack_pack]

/-! ## The port -/

theorem isTmemAddr_iff (a : Nat) : isTmemAddr a = true ↔ 0x400 ≤ a ∧ a ≤ 0x7FD := by
  simp only [isTmemAddr, Bool.and_eq_true, decide_eq_true_eq]
  simp only [Config.tmemBase, entryAddr, Config.nodeCap]
  omega

/-- From address 7 on the port shows no register. -/
theorem portRead_above {a : PortAddr} (s : State) (h : 0x007 ≤ a.toNat) :
    portRead a s = if isTmemAddr a.toNat then tmemRead s a.toNat else 0#32 := by
  have hne : ∀ k : PortAddr, k.toNat < 7 → a ≠ k := fun k hk he => by rw [he] at h; omega
  rw [portRead, if_neg (hne _ (by decide)), if_neg (hne _ (by decide)), if_neg (hne _ (by decide)),
    if_neg (hne _ (by decide)), if_neg (hne _ (by decide)), if_neg (hne _ (by decide))]

/-- Below address 7 the port shows the block's registers, which a word of TMEM is none of. -/
theorem portRead_below_tmemWrite {a : PortAddr} (b : Nat) (w : BitVec 32) (s : State) (h : isTmemAddr a.toNat = false) :
    portRead a (tmemWrite b w s) = portRead a s := by
  simp only [portRead, h, Bool.false_eq_true, if_false]
  rfl

theorem portRead_tmem {a : PortAddr} (s : State) (h : isTmemAddr a.toNat = true) : portRead a s = tmemRead s a.toNat := by
  rw [portRead_above s (Nat.le_trans (by decide) ((isTmemAddr_iff _).mp h).1), if_pos h]

theorem portRead_reserved {a : PortAddr} (s : State) (h7 : 0x007 ≤ a.toNat) (h : isTmemAddr a.toNat = false) :
    portRead a s = 0#32 := by
  rw [portRead_above s h7, h, if_neg Bool.false_ne_true]

/-- A write to a word of TMEM changes what that address alone shows. -/
theorem portRead_tmemWrite_other {a b : PortAddr} (w : BitVec 32) (s : State) (h : b ≠ a) :
    portRead b (tmemWrite a.toNat w s) = portRead b s := by
  cases hb : isTmemAddr b.toNat with
  | true =>
    rw [portRead_tmem _ hb, portRead_tmem _ hb]
    exact tmemRead_tmemWrite_other w s fun he => h (BitVec.eq_of_toNat_eq he)
  | false => exact portRead_below_tmemWrite _ w s hb

theorem portWrite_tmem {a : PortAddr} (w : BitVec 32) (s : State) (h0 : a ≠ 0x000#11) (h : isTmemAddr a.toNat = true) :
    portWrite a w s = .next (tmemWrite a.toNat w s) := by
  rw [portWrite, if_neg h0, if_pos h]

theorem portWrite_ignored {a : PortAddr} (w : BitVec 32) (s : State) (h0 : a ≠ 0x000#11)
    (h : isTmemAddr a.toNat ≠ true) : portWrite a w s = .next s := by
  rw [portWrite, if_neg h0, if_neg h]

theorem setWidth_eq_zero_append {n : Nat} (k : Nat) (v : BitVec n) : v.setWidth (k + n) = 0#k ++ v := by
  have hlt : v.toNat < 2 ^ (k + n) := Nat.lt_of_lt_of_le v.isLt (Nat.pow_le_pow_right Nat.two_pos (Nat.le_add_left n k))
  apply BitVec.eq_of_toNat_eq
  rw [BitVec.toNat_setWidth, Nat.mod_eq_of_lt hlt, BitVec.toNat_append]
  simp

end Sys2Proof.Machine

namespace Sys2Proof
open Sys2Proof.Machine

/-- Settles O5: of `resetBlock` by the laws of its fields. -/
theorem resetKeepsMemoryAndStreams : Obligations.ResetKeepsMemoryAndStreams := fun s =>
  ⟨resetBlock s, perform_reset s, tmemRead_congr rfl rfl, rfl, rfl, rfl, rfl, step_of_idle⟩

/-- Settles O6. -/
theorem powerUpIsReset : Obligations.PowerUpIsReset := ⟨rfl, ⟨rfl, rfl, rfl, rfl⟩, rfl⟩

/-- Settles O7: the fields are the parts that `STATUS` is put together from. -/
theorem statusFields : Obligations.StatusFields := by
  intro s
  simp only [statusWord, BitVec.getLsbD_append, BitVec.cast_eq]
  refine ⟨BitVec.extractLsb'_append_eq_right, by simp, ?_, by simp, by simp, by simp, by simp, ?_⟩
  · rw [BitVec.extractLsb'_append_eq_of_le (by decide), BitVec.extractLsb'_append_eq_of_le (by decide)]
    exact BitVec.extractLsb'_append_eq_right
  · rw [BitVec.extractLsb'_append_eq_of_le (by decide), BitVec.extractLsb'_append_eq_of_le (by decide),
      BitVec.extractLsb'_append_eq_of_le (by decide), BitVec.extractLsb'_append_eq_of_le (by decide),
      BitVec.extractLsb'_append_eq_of_le (by decide), BitVec.extractLsb'_append_eq_of_le (by decide)]
    exact BitVec.extractLsb'_append_eq_left

/-- Settles O8: the fields are the parts that `RESULT` is put together from. -/
theorem resultFields : Obligations.ResultFields := by
  intro s
  simp only [resultWord, BitVec.getLsbD_append, BitVec.cast_eq]
  refine ⟨BitVec.extractLsb'_append_eq_right, ?_, by simp, ?_, rfl, rfl, rfl, rfl, rfl, rfl⟩
  · rw [BitVec.extractLsb'_append_eq_of_le (by decide)]
    exact BitVec.extractLsb'_append_eq_right
  · rw [BitVec.extractLsb'_append_eq_of_le (by decide), BitVec.extractLsb'_append_eq_of_le (by decide)]
    exact BitVec.extractLsb'_append_eq_left

/-- Settles O47: `step_of_command`. -/
theorem stepRunsDecodedCommand : Obligations.StepRunsDecodedCommand := fun _ _ _ _ hhost hw => step_of_command hhost hw

/-- Settles O48: a command is the word written, a token the bits that lie next in the source. -/
theorem placedInstructionIsFetched : Obligations.PlacedInstructionIsFetched := by
  intro i s
  cases henc : encode i with
  | command cw =>
    have hplace : placeInstr i s = { s with host := commandWrite cw :: s.host } := by rw [placeInstr, henc]
    rw [hplace]
    exact step_of_commandWrite (encode_command henc) rfl
  | token bits =>
    have hplace : placeInstr i s = placeToken bits s := by rw [placeInstr, henc]
    rw [hplace]
    exact ⟨step_of_commandWrite (i := .tdes) rfl rfl, placeToken_sourceDelivers bits s, _, streamBits_placeToken bits s,
      fun b hb => List.eq_of_mem_replicate hb⟩

/-- Settles O49: the registers below address 7, then TMEM and reserved addresses. -/
theorem portReadsTheRegisters : Obligations.PortReadsTheRegisters := by
  intro a s
  have hreserved : 0x007 ≤ a.toNat ∧ a.toNat ≤ 0x3FF ∨ 0x7FE ≤ a.toNat → portRead a s = 0#32 := fun h => by
    refine portRead_reserved s (by omega) (Bool.eq_false_iff.mpr fun ht => ?_)
    have htmem := (isTmemAddr_iff _).mp ht
    omega
  refine ⟨_, rfl, rfl, ?_, ?_, ?_, ?_, ?_, ?_, ?_, hreserved, fun h => portRead_tmem s ((isTmemAddr_iff _).mpr h)⟩ <;>
    rintro rfl
  case refine_1 | refine_2 | refine_3 | refine_4 => rfl
  case refine_5 => exact setWidth_eq_zero_append 24 s.wacc
  case refine_6 => exact setWidth_eq_zero_append 24 s.rbyte
  case refine_7 => exact setWidth_eq_zero_append 22 s.tnodes

/-- Settles O50: a word of TMEM, or an address that ignores writes. -/
theorem portWritesTreeMemory : Obligations.PortWritesTreeMemory := by
  intro a w s h0
  by_cases ht : isTmemAddr a.toNat = true
  · refine ⟨_, portWrite_tmem w s h0 ht, ?_⟩
    rw [if_pos ((isTmemAddr_iff _).mp ht)]
    exact ⟨by rw [portRead_tmem _ ht, tmemRead_tmemWrite_same], fun b hb => portRead_tmemWrite_other w s hb, rfl,
      ⟨rfl, rfl, rfl, rfl, rfl⟩, ⟨rfl, rfl, rfl, rfl, rfl, rfl⟩, ⟨rfl, rfl, rfl, rfl⟩, ⟨rfl, rfl⟩, rfl, rfl, rfl⟩
  · refine ⟨_, portWrite_ignored w s h0 ht, ?_⟩
    rw [if_neg fun h => ht ((isTmemAddr_iff _).mpr h)]

/-- Settles O51: the two words by computation, the fields by the spec lemmas of `entryWrite`. -/
theorem entryLayoutExamples : Obligations.EntryLayoutExamples :=
  ⟨by decide, by decide, fun i tag sym l r f s => ⟨entryTag_entryWrite_same i tag sym l r f s,
    entrySym_entryWrite_same i tag sym l r f s, entryLeft_entryWrite_same i tag sym l r f s,
    entryRight_entryWrite_same i tag sym l r f s, entryFreq_entryWrite_same i tag sym l r f s⟩⟩

/-- Settles O52: a direct access is the stream primitive alone. -/
theorem directAccessesPassTheBlockBy : Obligations.DirectAccessesPassTheBlockBy := by
  refine ⟨fun v s hok => ?_, fun v s hok hv => ?_⟩
  · simp [perform, hostSinkByte, snkWrite, hok]
  · simp [perform, hostSourceByte, srcRead, hok, hv]

end Sys2Proof
end

section
/-! SUPPORT. HOST reference: the codes of a tree (44_host_tree_and_codes.md R146, R147) and the decoding of what they encode
(43_host_pipelines.md R124, R130, R131). -/

namespace Sys2Proof.Machine

/-! ## What the traversal records -/

/-- A record one level further up: its path has the branch `b` in front. -/
def underBranch (b : Bool) (e : BitVec 8 × Bits) : BitVec 8 × Bits := (e.1, b :: e.2)

/-- A path walked before the traversal is in front of every record's path. -/
theorem codesBelow_append (t : Tree) (q path : Bits) :
    codesBelow t (q ++ path) = (codesBelow t path).map fun e => (e.1, q ++ e.2) := by
  induction t generalizing path with
  | leaf sym f => rfl
  | internal f l r ihl ihr => simp only [codesBelow, List.append_assoc, ihl, ihr, List.map_append]

/-- The records of an Internal node are those of its left subtree below a 0, then those of its right subtree below a 1. -/
theorem codesBelow_internal (f : Nat) (l r : Tree) :
    codesBelow (.internal f l r) [] =
      (codesBelow l []).map (underBranch false) ++ (codesBelow r []).map (underBranch true) := by
  have hl := codesBelow_append l [false] []
  have hr := codesBelow_append r [true] []
  rw [List.append_nil] at hl hr
  simp only [codesBelow, List.nil_append, hl, hr]
  rfl

/-- A record for each leaf, left to right. -/
theorem map_fst_codesBelow (t : Tree) (path : Bits) : (codesBelow t path).map Prod.fst = treeSymbols t := by
  induction t generalizing path with
  | leaf sym f => rfl
  | internal f l r ihl ihr => rw [codesBelow, List.map_append, ihl, ihr, treeSymbols]

/-- A record's path leads to a Leaf of its symbol, whatever bits follow it. -/
theorem walkTree_of_mem_codesBelow {t : Tree} {e : BitVec 8 × Bits} (h : e ∈ codesBelow t []) (rest : Bits) :
    walkTree t (e.2 ++ rest) = some (e.1, rest) := by
  induction t generalizing e with
  | leaf sym f =>
    obtain rfl := List.mem_singleton.mp h
    rfl
  | internal f l r ihl ihr =>
    rw [codesBelow_internal, List.mem_append, List.mem_map, List.mem_map] at h
    obtain ⟨x, hx, rfl⟩ | ⟨x, hx, rfl⟩ := h
    · exact ihl hx
    · exact ihr hx

/-- Neither of two codes is an initial part of the other (44_host_tree_and_codes.md R147). -/
def PrefixFree (a b : BitVec 8 × Bits) : Prop := ¬ a.2 <+: b.2 ∧ ¬ b.2 <+: a.2

theorem prefixFree_underBranch {b : Bool} {x y : BitVec 8 × Bits} (h : PrefixFree x y) :
    PrefixFree (underBranch b x) (underBranch b y) := by
  simpa [PrefixFree, underBranch] using h

theorem prefixFree_branches (x y : BitVec 8 × Bits) : PrefixFree (underBranch false x) (underBranch true y) := by
  simp [PrefixFree, underBranch]

theorem pairwise_prefixFree_codesBelow (t : Tree) : (codesBelow t []).Pairwise PrefixFree := by
  induction t with
  | leaf sym f => exact List.pairwise_singleton _ _
  | internal f l r ihl ihr =>
    rw [codesBelow_internal, List.pairwise_append, List.pairwise_map, List.pairwise_map]
    refine ⟨ihl.imp prefixFree_underBranch, ihr.imp prefixFree_underBranch, fun a ha b hb => ?_⟩
    obtain ⟨x, _, rfl⟩ := List.mem_map.mp ha
    obtain ⟨y, _, rfl⟩ := List.mem_map.mp hb
    exact prefixFree_branches x y

/-- Below an Internal node no path is empty. -/
theorem ne_nil_of_mem_codesBelow {f : Nat} {l r : Tree} {e : BitVec 8 × Bits} (h : e ∈ codesBelow (.internal f l r) []) :
    e.2 ≠ [] := by
  rw [codesBelow_internal, List.mem_append, List.mem_map, List.mem_map] at h
  obtain ⟨x, _, rfl⟩ | ⟨x, _, rfl⟩ := h <;> exact List.cons_ne_nil _ _

/-! ## The code table -/

/-- Where each symbol has one record, all are kept. -/
theorem oneEntryPerSymbol_of_nodup {records : List (BitVec 8 × Bits)} (h : (records.map Prod.fst).Nodup) :
    oneEntryPerSymbol records = records := by
  induction records with
  | nil => rfl
  | cons e rest ih =>
    rw [List.map_cons, List.nodup_cons] at h
    obtain ⟨hnew, hrest⟩ := h
    rw [oneEntryPerSymbol, ih hrest]
    refine congrArg (e :: ·) (List.filter_eq_self.mpr fun x hx => ?_)
    exact bne_iff_ne.mpr fun he => hnew (he ▸ List.mem_map_of_mem hx)

theorem extractCodes_internal (f : Nat) (l r : Tree) :
    extractCodes (.internal f l r) = oneEntryPerSymbol (codesBelow (.internal f l r) []) := rfl

theorem mem_codesBelow_of_mem_extractCodes {f : Nat} {l r : Tree} {e : BitVec 8 × Bits}
    (h : e ∈ extractCodes (.internal f l r)) : e ∈ codesBelow (.internal f l r) [] :=
  (oneEntryPerSymbol_sublist _).subset h

/-- A symbol has a code exactly where a leaf carries it (44_host_tree_and_codes.md R147). -/
theorem mem_map_fst_extractCodes (t : Tree) (sym : BitVec 8) :
    sym ∈ (extractCodes t).map Prod.fst ↔ sym ∈ treeSymbols t := by
  cases t with
  | leaf => rfl
  | internal f l r => rw [extractCodes_internal, mem_oneEntryPerSymbol, map_fst_codesBelow]

/-- A code looked up is one of the table's. -/
theorem mem_of_codeOf {table : CodeTable} {sym : BitVec 8} {code : Bits} (h : codeOf table sym = some code) :
    (sym, code) ∈ table := by
  rw [codeOf, Option.map_eq_some_iff] at h
  obtain ⟨e, he, rfl⟩ := h
  obtain rfl : e.1 = sym := by simpa using List.find?_some he
  exact List.mem_of_find?_eq_some he

theorem exists_codeOf {table : CodeTable} {sym : BitVec 8} (h : sym ∈ table.map Prod.fst) :
    ∃ code, codeOf table sym = some code := by
  obtain ⟨e, he, rfl⟩ := List.mem_map.mp h
  have hfound : (table.find? fun x => x.1 == e.1).isSome := List.find?_isSome.mpr ⟨e, he, beq_self_eq_true _⟩
  exact Option.isSome_iff_exists.mp (by rw [codeOf, Option.isSome_map]; exact hfound)

/-- The code of a symbol of an Internal node leads to one of its leaves. -/
theorem walkTree_of_codeOf {f : Nat} {l r : Tree} {sym : BitVec 8} {code : Bits}
    (h : codeOf (extractCodes (.internal f l r)) sym = some code) (rest : Bits) :
    walkTree (.internal f l r) (code ++ rest) = some (sym, rest) :=
  walkTree_of_mem_codesBelow (mem_codesBelow_of_mem_extractCodes (mem_of_codeOf h)) rest

/-! ## Data bits -/

theorem encodeData_cons {lookup : BitVec 8 → Option Bits} {x : Byte} {rest : List Byte} {data : Bits} :
    encodeData lookup (x :: rest) = some data ↔
      ∃ code more, lookup x = some code ∧ encodeData lookup rest = some more ∧ data = code ++ more := by
  rw [encodeData]
  cases lookup x <;> cases encodeData lookup rest <;> simp [eq_comm]

/-- An input can be encoded exactly where every byte of it has a code. -/
theorem exists_encodeData {lookup : BitVec 8 → Option Bits} {input : List Byte}
    (h : ∀ x ∈ input, ∃ code, lookup x = some code) : ∃ data, encodeData lookup input = some data := by
  induction input with
  | nil => exact ⟨[], rfl⟩
  | cons x rest ih =>
    obtain ⟨code, hcode⟩ := h x List.mem_cons_self
    obtain ⟨more, hmore⟩ := ih fun y hy => h y (List.mem_cons_of_mem x hy)
    exact ⟨code ++ more, encodeData_cons.mpr ⟨code, more, hcode, hmore, rfl⟩⟩

theorem exists_encodeData_of_symbols {t : Tree} {input : List Byte} (h : ∀ x ∈ input, x ∈ treeSymbols t) :
    ∃ data, encodeData (codeOf (extractCodes t)) input = some data :=
  exists_encodeData fun x hx => exists_codeOf ((mem_map_fst_extractCodes t x).mpr (h x hx))

/-- What is encoded under a tree has that tree's symbols. -/
theorem mem_treeSymbols_of_encodeData {t : Tree} {input : List Byte} {data : Bits}
    (h : encodeData (codeOf (extractCodes t)) input = some data) : ∀ x ∈ input, x ∈ treeSymbols t := by
  induction input generalizing data with
  | nil => exact fun x hx => absurd hx List.not_mem_nil
  | cons y rest ih =>
    obtain ⟨code, more, hcode, hmore, _⟩ := encodeData_cons.mp h
    intro x hx
    obtain rfl | hx := List.mem_cons.mp hx
    · exact (mem_map_fst_extractCodes t x).mp (List.mem_map_of_mem (mem_of_codeOf hcode))
    · exact ih hmore x hx

/-- Under a single Leaf every byte of the input is its symbol. -/
theorem eq_replicate_of_leaf {sym : BitVec 8} {f : Nat} {input : List Byte}
    (h : ∀ x ∈ input, x ∈ treeSymbols (.leaf sym f)) : input = List.replicate input.length sym :=
  List.eq_replicate_of_mem fun x hx => List.mem_singleton.mp (h x hx)

/-- A single Leaf takes no bits (43_host_pipelines.md R130). -/
theorem decodeSymbols_leaf (sym : BitVec 8) (f n : Nat) (bits : Bits) :
    decodeSymbols (.leaf sym f) n bits = some (List.replicate n sym) := by
  induction n with
  | zero => rfl
  | succ n ih => rw [decodeSymbols, walkTree]; simp only [ih]; rfl

/-- Under an Internal node each code leads to its symbol and leaves the bits after it. -/
theorem decodeSymbols_internal {f : Nat} {l r : Tree} {input : List Byte} {data : Bits}
    (h : encodeData (codeOf (extractCodes (.internal f l r))) input = some data) (padding : Bits) :
    decodeSymbols (.internal f l r) input.length (data ++ padding) = some input := by
  induction input generalizing data with
  | nil => rfl
  | cons x rest ih =>
    obtain ⟨code, more, hcode, hmore, rfl⟩ := encodeData_cons.mp h
    rw [List.length_cons, decodeSymbols, List.append_assoc, walkTree_of_codeOf hcode]
    simp only [ih hmore]
    rfl

end Sys2Proof.Machine

namespace Sys2Proof
open Sys2Proof.Machine

/-- Settles O55: a single Leaf takes no bits, an Internal node one code a symbol. -/
theorem encodedDataDecodes : Obligations.EncodedDataDecodes := by
  intro t input hsyms
  obtain ⟨data, hdata⟩ := exists_encodeData_of_symbols hsyms
  refine ⟨data, hdata, fun padding => ?_⟩
  cases t with
  | leaf sym f => rw [decodeSymbols_leaf, ← eq_replicate_of_leaf hsyms]
  | internal f l r => exact decodeSymbols_internal hdata padding

/-- Settles O53: a single Leaf has the one code `0`; an Internal node's codes are some of the paths recorded, which
lead to leaves of their symbols and none of which begins another. -/
theorem codesArePrefixFree : Obligations.CodesArePrefixFree := by
  intro t
  cases t with
  | leaf sym f => simp [extractCodes, treeSymbols, treeLeaves]
  | internal f l r =>
    have hleaves : treeLeaves (.internal f l r) ≠ 1 := by
      have hl := treeLeaves_pos l
      have hr := treeLeaves_pos r
      rw [treeLeaves]
      omega
    refine ⟨fun e he => ne_nil_of_mem_codesBelow (mem_codesBelow_of_mem_extractCodes he), oneEntryPerSymbol_nodup _,
      mem_map_fst_extractCodes _, fun hdistinct => ?_, (pairwise_prefixFree_codesBelow _).sublist (oneEntryPerSymbol_sublist _),
      fun e he => ?_⟩
    · rw [extractCodes_internal, oneEntryPerSymbol_of_nodup (by rwa [map_fst_codesBelow]), map_fst_codesBelow]
    · have hwalk := walkTree_of_mem_codesBelow (mem_codesBelow_of_mem_extractCodes he) []
      rw [if_neg hleaves, ← hwalk, List.append_nil]

end Sys2Proof
end

section
/-! SUPPORT. HOST reference: the frequency table and the tree builder (44_host_tree_and_codes.md R140 to R145). -/

namespace Sys2Proof.Machine

/-! ## The frequency table -/

/-- The count a table has for a symbol, 0 where it has none. -/
def countAt (table : FrequencyTable) (v : BitVec 8) : Nat :=
  match table with
  | [] => 0
  | (k, n) :: rest => if k = v then n else countAt rest v

/-- The table's symbols rise strictly, and no count is 0. -/
structure TableInv (table : FrequencyTable) : Prop where
  rises : table.Pairwise fun a b => a.1.toNat < b.1.toNat
  positive : ∀ e ∈ table, 0 < e.2

theorem tableInv_nil : TableInv [] := ⟨List.Pairwise.nil, nofun⟩

theorem tableInv_cons {e : BitVec 8 × Nat} {rest : FrequencyTable} :
    TableInv (e :: rest) ↔ (∀ x ∈ rest, e.1.toNat < x.1.toNat) ∧ 0 < e.2 ∧ TableInv rest := by
  constructor
  · rintro ⟨hrises, hpos⟩
    obtain ⟨hfirst, hrest⟩ := List.pairwise_cons.mp hrises
    exact ⟨hfirst, hpos e List.mem_cons_self, hrest, fun x hx => hpos x (List.mem_cons_of_mem e hx)⟩
  · rintro ⟨hfirst, hpos, hrises, hrest⟩
    exact ⟨List.pairwise_cons.mpr ⟨hfirst, hrises⟩, List.forall_mem_cons.mpr ⟨hpos, hrest⟩⟩

/-- A symbol below all of a table's is not in it. -/
theorem countAt_of_below {table : FrequencyTable} {v : BitVec 8} (h : ∀ e ∈ table, v.toNat < e.1.toNat) :
    countAt table v = 0 := by
  induction table with
  | nil => rfl
  | cons e rest ih =>
    obtain ⟨hfirst, hrest⟩ := List.forall_mem_cons.mp h
    have hne : e.1 ≠ v := fun he => Nat.lt_irrefl _ (he ▸ hfirst)
    rw [countAt, if_neg hne, ih hrest]

/-- Counting a symbol brings in no other. -/
theorem mem_countOne {sym : BitVec 8} {table : FrequencyTable} {e : BitVec 8 × Nat} (h : e ∈ countOne sym table) :
    e.1 = sym ∨ ∃ x ∈ table, e.1 = x.1 := by
  induction table with
  | nil => exact .inl (congrArg Prod.fst (List.mem_singleton.mp h))
  | cons x rest ih =>
    obtain ⟨k, n⟩ := x
    rw [countOne] at h
    split at h
    next =>
      obtain rfl | h := List.mem_cons.mp h
      · exact .inr ⟨_, List.mem_cons_self, rfl⟩
      · exact .inr ⟨e, List.mem_cons_of_mem _ h, rfl⟩
    next =>
      split at h
      next =>
        obtain rfl | h := List.mem_cons.mp h
        · exact .inl rfl
        · exact .inr ⟨e, h, rfl⟩
      next =>
        obtain rfl | h := List.mem_cons.mp h
        · exact .inr ⟨_, List.mem_cons_self, rfl⟩
        · exact (ih h).imp_right fun ⟨x, hx, he⟩ => ⟨x, List.mem_cons_of_mem _ hx, he⟩

theorem countOne_tableInv (sym : BitVec 8) {table : FrequencyTable} (h : TableInv table) :
    TableInv (countOne sym table) := by
  induction table with
  | nil => exact tableInv_cons.mpr ⟨nofun, Nat.one_pos, tableInv_nil⟩
  | cons e rest ih =>
    obtain ⟨k, n⟩ := e
    obtain ⟨hfirst, hpos, hrest⟩ := tableInv_cons.mp h
    rw [countOne]
    split
    next => exact tableInv_cons.mpr ⟨hfirst, Nat.succ_pos n, hrest⟩
    next hne =>
      split
      next hlt =>
        refine tableInv_cons.mpr ⟨List.forall_mem_cons.mpr ⟨hlt, fun x hx => hlt.trans (hfirst x hx)⟩, Nat.one_pos, h⟩
      next hge =>
        have hlt : k.toNat < sym.toNat := by
          have : sym.toNat ≠ k.toNat := fun he => hne (BitVec.eq_of_toNat_eq he)
          omega
        refine tableInv_cons.mpr ⟨fun x hx => ?_, hpos, ih hrest⟩
        obtain he | ⟨y, hy, he⟩ := mem_countOne hx
        · exact he ▸ hlt
        · exact he ▸ hfirst y hy

/-- Counting a symbol adds one to its count and to no other's. -/
theorem countAt_countOne (sym v : BitVec 8) {table : FrequencyTable} (h : TableInv table) :
    countAt (countOne sym table) v = countAt table v + if sym = v then 1 else 0 := by
  induction table with
  | nil => simp only [countOne, countAt, Nat.zero_add]
  | cons e rest ih =>
    obtain ⟨k, n⟩ := e
    obtain ⟨hfirst, _, hrest⟩ := tableInv_cons.mp h
    rw [countOne]
    split
    next heq => subst heq; by_cases hv : sym = v <;> simp [countAt, hv]
    next hne =>
      split
      next hlt =>
        have hnone : countAt ((k, n) :: rest) sym = 0 :=
          countAt_of_below (List.forall_mem_cons.mpr ⟨hlt, fun x hx => Nat.lt_trans hlt (hfirst x hx)⟩)
        by_cases hv : sym = v
        · subst hv; rw [hnone, countAt, if_pos rfl, if_pos rfl]
        · rw [countAt, if_neg hv, if_neg hv, Nat.add_zero]
      next =>
        by_cases hk : k = v
        · have hv : sym ≠ v := fun he => hne (he.trans hk.symm)
          simp [countAt, hk, hv]
        · simp [countAt, hk, ih hrest]

theorem sum_countOne (sym : BitVec 8) (table : FrequencyTable) :
    ((countOne sym table).map Prod.snd).sum = (table.map Prod.snd).sum + 1 := by
  induction table with
  | nil => rfl
  | cons e rest ih =>
    obtain ⟨k, n⟩ := e
    rw [countOne]
    split
    next => simp only [List.map_cons, List.sum_cons]; omega
    next =>
      split
      next => simp only [List.map_cons, List.sum_cons]; omega
      next => simp only [List.map_cons, List.sum_cons, ih]; omega

/-- A table's entries are its symbols with their counts. -/
theorem mem_iff_countAt {table : FrequencyTable} (h : TableInv table) (v : BitVec 8) (n : Nat) :
    (v, n) ∈ table ↔ 0 < n ∧ n = countAt table v := by
  induction table with
  | nil => simp only [List.not_mem_nil, countAt, false_iff]; omega
  | cons e rest ih =>
    obtain ⟨k, m⟩ := e
    obtain ⟨hfirst, hpos, hrest⟩ := tableInv_cons.mp h
    rw [List.mem_cons, countAt]
    by_cases hk : k = v
    · subst hk
      have hnot : (k, n) ∉ rest := fun hx => Nat.lt_irrefl _ (hfirst (k, n) hx)
      rw [if_pos rfl, or_iff_left hnot, Prod.mk.injEq]
      exact ⟨fun ⟨_, hn⟩ => ⟨hn ▸ hpos, hn⟩, fun ⟨_, hn⟩ => ⟨rfl, hn⟩⟩
    · have hne : (v, n) ≠ (k, m) := fun he => hk (congrArg Prod.fst he).symm
      rw [if_neg hk, or_iff_right hne, ih hrest]

theorem countBytes_append (bytes : List Byte) (b : Byte) :
    countBytes (bytes ++ [b]) = countOne b (countBytes bytes) := by
  rw [countBytes, List.foldl_append]
  rfl

theorem countBytes_tableInv (bytes : List Byte) : TableInv (countBytes bytes) := by
  induction bytes using List.reverseRecOn with
  | nil => exact tableInv_nil
  | append_singleton bytes b ih => rw [countBytes_append]; exact countOne_tableInv b ih

theorem countAt_countBytes (bytes : List Byte) (v : Byte) : countAt (countBytes bytes) v = bytes.count v := by
  induction bytes using List.reverseRecOn with
  | nil => rfl
  | append_singleton bytes b ih =>
    rw [countBytes_append, countAt_countOne b v (countBytes_tableInv bytes), ih, List.count_append, List.count_singleton]
    by_cases h : b = v <;> simp [h]

theorem sum_countBytes (bytes : List Byte) : ((countBytes bytes).map Prod.snd).sum = bytes.length := by
  induction bytes using List.reverseRecOn with
  | nil => rfl
  | append_singleton bytes b ih => rw [countBytes_append, sum_countOne, ih, List.length_append]; rfl

theorem nodup_map_fst_countBytes (bytes : List Byte) : ((countBytes bytes).map Prod.fst).Nodup := by
  rw [List.Nodup, List.pairwise_map]
  exact (countBytes_tableInv bytes).rises.imp fun hlt he => Nat.ne_of_lt hlt (congrArg BitVec.toNat he)

/-- The table has the symbols of the input. -/
theorem mem_map_fst_countBytes (bytes : List Byte) (v : Byte) : v ∈ (countBytes bytes).map Prod.fst ↔ v ∈ bytes := by
  have hmem := mem_iff_countAt (countBytes_tableInv bytes) v
  rw [countAt_countBytes] at hmem
  rw [← List.count_pos_iff (l := bytes), List.mem_map]
  constructor
  · rintro ⟨⟨w, n⟩, hw, rfl⟩
    obtain ⟨hpos, hn⟩ := (hmem n).mp hw
    exact hn ▸ hpos
  · exact fun hpos => ⟨_, (hmem _).mpr ⟨hpos, rfl⟩, rfl⟩

/-! ## The builder -/

theorem insertNode_perm (order : MergeOrder) (t : Tree) (queue : List Tree) :
    List.Perm (insertNode order t queue) (t :: queue) := by
  induction queue with
  | nil => exact List.Perm.refl _
  | cons q rest ih =>
    rw [insertNode]
    split
    next => exact List.Perm.refl _
    next => exact (ih.cons q).trans (List.Perm.swap t q rest)

/-- A tree for a whole queue: the queue's frequencies summed, its symbols, the frequency invariant (R145). -/
structure BuiltFrom (queue : List Tree) (t : Tree) : Prop where
  invariant : treeFreqInvariant t = true
  freq : treeFreq t = (queue.map treeFreq).sum
  symbols : List.Perm (treeSymbols t) (queue.flatMap treeSymbols)

theorem BuiltFrom.of_perm {queue queue' : List Tree} {t : Tree} (h : BuiltFrom queue t) (hp : List.Perm queue queue') :
    BuiltFrom queue' t :=
  ⟨h.invariant, h.freq.trans (hp.map treeFreq).sum_eq, h.symbols.trans (hp.flatMap_right treeSymbols)⟩

/-- Whichever way round the two lowest nodes are joined, the join stands for both (R142, R145). -/
theorem mergeNodes_builtFrom (order : MergeOrder) {a b : Tree} (ha : treeFreqInvariant a = true)
    (hb : treeFreqInvariant b = true) : BuiltFrom [a, b] (mergeNodes order a b) := by
  unfold mergeNodes
  split
  · exact ⟨by simp [treeFreqInvariant, ha, hb], by simp [treeFreq], by simp [treeSymbols]⟩
  · refine ⟨by simp [treeFreqInvariant, ha, hb, Nat.add_comm], by simp [treeFreq], ?_⟩
    simpa [treeSymbols] using List.perm_append_comm

theorem mergeAll_builds (order : MergeOrder) {fuel : Nat} {queue : List Tree} (hne : queue ≠ [])
    (hlen : queue.length ≤ fuel + 1) (hinv : ∀ t ∈ queue, treeFreqInvariant t = true) :
    ∃ t, mergeAll order fuel queue = some t ∧ BuiltFrom queue t := by
  induction fuel generalizing queue with
  | zero =>
    obtain ⟨t, rfl⟩ := List.length_eq_one_iff.mp (Nat.le_antisymm hlen (List.length_pos_of_ne_nil hne))
    exact ⟨t, rfl, hinv t List.mem_cons_self, by simp, by simp⟩
  | succ n ih =>
    match queue with
    | [] => exact absurd rfl hne
    | [t] => exact ⟨t, rfl, hinv t List.mem_cons_self, by simp, by simp⟩
    | a :: b :: rest =>
      obtain ⟨ha, hinv⟩ := List.forall_mem_cons.mp hinv
      obtain ⟨hb, hrest⟩ := List.forall_mem_cons.mp hinv
      have hjoin := mergeNodes_builtFrom order ha hb
      have hperm := insertNode_perm order (mergeNodes order a b) rest
      have hnonempty : insertNode order (mergeNodes order a b) rest ≠ [] := by
        intro he
        rw [he] at hperm
        cases hperm.nil_eq
      obtain ⟨t, ht, hbuilt⟩ := ih hnonempty (by rw [hperm.length_eq]; simpa using hlen) fun t ht => by
        obtain rfl | ht := List.mem_cons.mp (hperm.subset ht)
        · exact hjoin.invariant
        · exact hrest t ht
      obtain ⟨htinv, hfreq, hsyms⟩ := hbuilt.of_perm hperm
      refine ⟨t, ht, htinv, ?_, ?_⟩
      · rw [hfreq, List.map_cons, List.sum_cons, hjoin.freq]
        simp [Nat.add_assoc]
      · have happend := hsyms.trans (hjoin.symbols.append_right (rest.flatMap treeSymbols))
        simpa using happend

/-- The queue the builder starts with is a leaf for each entry of the table (R142). -/
theorem foldl_insertNode_perm (order : MergeOrder) (table : FrequencyTable) (queue : List Tree) :
    List.Perm (table.foldl (fun queue e => insertNode order (.leaf e.1 e.2) queue) queue)
      (table.map (fun e => .leaf e.1 e.2) ++ queue) := by
  induction table generalizing queue with
  | nil => exact List.Perm.refl _
  | cons e rest ih =>
    refine (ih _).trans ?_
    exact ((insertNode_perm order _ queue).append_left _).trans List.perm_middle

/-- What the builder makes of a table (R142 to R145). -/
theorem buildTree_builds (order : MergeOrder) {table : FrequencyTable} (hne : table ≠ []) :
    ∃ t, buildTree order table = some t ∧ treeFreqInvariant t = true ∧ treeFreq t = (table.map Prod.snd).sum ∧
      List.Perm (treeSymbols t) (table.map Prod.fst) := by
  have hperm := foldl_insertNode_perm order table []
  rw [List.append_nil] at hperm
  have hpos := List.length_pos_of_ne_nil hne
  have hlen := hperm.length_eq
  rw [List.length_map] at hlen
  obtain ⟨t, ht, hbuilt⟩ := mergeAll_builds order (fuel := table.length - 1)
    (List.ne_nil_of_length_pos (hlen.symm ▸ hpos)) (by omega) fun t ht => by
      obtain ⟨e, _, rfl⟩ := List.mem_map.mp (hperm.subset ht)
      rfl
  obtain ⟨hinv, hfreq, hsyms⟩ := hbuilt.of_perm hperm
  refine ⟨t, ht, hinv, ?_, ?_⟩
  · rw [hfreq, List.map_map]
    rfl
  · rw [List.flatMap_map] at hsyms
    rwa [List.map_eq_flatMap]

end Sys2Proof.Machine

namespace Sys2Proof
open Sys2Proof.Machine

/-- Settles O57: the counts by `countAt_countBytes`, the other facts by the table's order. -/
theorem frequenciesAreCounts : Obligations.FrequenciesAreCounts := by
  intro input
  refine ⟨fun hnone => ⟨countBytes input.bytes, by rw [countFrequencies, hnone], nodup_map_fst_countBytes _, fun v n => ?_,
    sum_countBytes _⟩, fun n e hfail => by rw [countFrequencies, hfail]⟩
  rw [mem_iff_countAt (countBytes_tableInv _), countAt_countBytes]

/-- Settles O54: `buildTree_builds`. -/
theorem builderKeepsFrequencyInvariant : Obligations.BuilderKeepsFrequencyInvariant :=
  fun order _ => ⟨fun he => he ▸ rfl, buildTree_builds order⟩

end Sys2Proof
end

section
/-! SUPPORT. HOST reference: what the pseudo-instructions over single bits expand to does (30_encoding.md R72): the WBITs of a
string are `putBits` of it, the RBITs `getBits`, but for `RESULT`. -/

namespace Sys2Proof.Machine

/-! ## States that differ in RESULT alone -/

/-- `u` differs from `t` in `RESULT` alone. -/
def SameButResult (t u : State) : Prop := u = { t with code := u.code, value := u.value }

theorem SameButResult.refl (s : State) : SameButResult s s := rfl

theorem sameButResult_completeOk (v : Bool) (s : State) : SameButResult s (completeOk v s) := rfl

theorem SameButResult.trans {s t u : State} (h1 : SameButResult s t) (h2 : SameButResult t u) : SameButResult s u := by
  unfold SameButResult at *
  rw [h2, h1]

theorem SameButResult.sameWriter {t u : State} (h : SameButResult t u) : SameWriter t u := by
  rw [h]; exact ⟨rfl, rfl, rfl, rfl, rfl⟩

theorem SameButResult.sameReader {t u : State} (h : SameButResult t u) : SameReader t u := by
  rw [h]; exact ⟨rfl, rfl, rfl, rfl, rfl, rfl⟩

theorem SameButResult.sameTree {t u : State} (h : SameButResult t u) : SameTree t u := by
  rw [h]; exact ⟨rfl, rfl, rfl, fun _ => rfl⟩

theorem SameButResult.sameSticky {t u : State} (h : SameButResult t u) : SameSticky t u := by
  rw [h]; exact ⟨rfl, rfl, rfl, rfl⟩

/-! ## WBITS -/

theorem putBits_completeOk (bits : Bits) (v : Bool) (s : State) :
    putBits bits (completeOk v s) = mapState (completeOk v) (putBits bits s) := by
  induction bits generalizing s with
  | nil => rfl
  | cons b rest ih =>
    rw [putBits, putBits, putBit_completeOk]
    cases putBit b s with
    | done a t => exact ih t
    | raised c t => rfl
    | stuck f => rfl

/-- What issuing the WBITs of a string does: what putting its bits does, each WBIT completing. -/
theorem runExpansion_wbits (bits : Bits) (s : State) :
    match putBits bits s with
    | .done _ t => ∃ u, runExpansion (pseudoWbits bits) s = .next (u, .value (List.replicate bits.length false)) ∧
        SameButResult t u
    | .raised c t => runExpansion (pseudoWbits bits) s = .next (enterFault c t, .commandFault (causeCode c) (causeInfo c))
    | .stuck f => runExpansion (pseudoWbits bits) s = .fault f := by
  induction bits generalizing s with
  | nil => exact ⟨s, rfl, SameButResult.refl s⟩
  | cons b rest ih =>
    rw [putBits, pseudoWbits, List.map_cons]
    cases hb : putBit b s with
    | done a t =>
      have hrun := runExpansion_cons_ok (rest := rest.map .wbit) (exec_wbit_of_done hb) rfl
      have hrest := ih (completeOk false t)
      rw [pseudoWbits, putBits_completeOk] at hrest
      rw [andThen_done]
      cases ht : putBits rest t with
      | done a' w =>
        rw [ht] at hrest
        obtain ⟨u, hu, hsame⟩ := hrest
        exact ⟨u, by rw [hrun, hu]; rfl, (sameButResult_completeOk false w).trans hsame⟩
      | raised c w =>
        rw [ht] at hrest
        change runExpansion _ _ = .next (enterFault c (completeOk false w), _) at hrest
        show runExpansion _ s = _
        rw [hrun, hrest, enterFault_completeOk, mapRun_commandFault]
      | stuck f =>
        rw [ht] at hrest
        change runExpansion _ _ = .fault f at hrest
        show runExpansion _ s = _
        rw [hrun, hrest, mapRun_fault]
    | raised c t =>
      show runExpansion _ s = _
      rw [runExpansion_cons_fault (exec_wbit_of_raised hb) (by rw [enterFault_code]; exact causeCode_ne_ok c),
        enterFault_code, enterFault_errinfo]
    | stuck f =>
      show runExpansion _ s = _
      have hexec : exec (.wbit b) s = .fault f := by simp [exec, execWbit, hb, finishCommand]
      rw [runExpansion, hexec]

theorem runExpansion_wbits_of_done {bits : Bits} {s t : State} (h : putBits bits s = .done () t) :
    ∃ u, runExpansion (pseudoWbits bits) s = .next (u, .value (List.replicate bits.length false)) ∧ SameButResult t u := by
  have hrun := runExpansion_wbits bits s
  rwa [h] at hrun

theorem runExpansion_wbits_of_raised {bits : Bits} {c : Cause} {s t : State} (h : putBits bits s = .raised c t) :
    runExpansion (pseudoWbits bits) s = .next (enterFault c t, .commandFault (causeCode c) (causeInfo c)) := by
  have hrun := runExpansion_wbits bits s
  rwa [h] at hrun

/-- WBITs that all completed `OK` have put their bits. -/
theorem putBits_of_runExpansion_wbits {bits vs : Bits} {s u : State}
    (h : runExpansion (pseudoWbits bits) s = .next (u, .value vs)) :
    ∃ t, putBits bits s = .done () t ∧ SameButResult t u := by
  have hrun := runExpansion_wbits bits s
  cases hput : putBits bits s with
  | done a t =>
    rw [hput] at hrun
    obtain ⟨w, hw, hsame⟩ := hrun
    cases hw.symm.trans h
    exact ⟨t, rfl, hsame⟩
  | raised c t =>
    rw [hput] at hrun
    cases hrun.symm.trans h
  | stuck f =>
    rw [hput] at hrun
    cases hrun.symm.trans h

/-! ## WBYTE -/

/-- Bits that do not fill the byte touch no stream. -/
theorem putBits_short {bits : Bits} {s : State} (h : s.wcnt.toNat + bits.length ≤ 7) :
    ∃ t, putBits bits s = .done () t ∧ t.snk = s.snk ∧ t.snkAnswers = s.snkAnswers ∧
      t.wcnt.toNat = s.wcnt.toNat + bits.length := by
  induction bits generalizing s with
  | nil => exact ⟨s, rfl, rfl, rfl, rfl⟩
  | cons b rest ih =>
    rw [List.length_cons] at h
    have hcnt : (s.wcnt + 1).toNat = s.wcnt.toNat + 1 := by bv_omega
    have hearly := putBit_early b (s := s) (by omega)
    obtain ⟨t, ht, hsnk, hanswers, hwcnt⟩ := ih
      (s := { s with wacc := accWithBit b s, wcnt := s.wcnt + 1, wpos := s.wpos + 1 }) (by show (s.wcnt + 1).toNat + _ ≤ 7; omega)
    refine ⟨t, by rw [putBits, hearly, andThen_done, ht], hsnk, hanswers, hwcnt.trans ?_⟩
    show (s.wcnt + 1).toNat + rest.length = _
    rw [hcnt, List.length_cons]
    omega

/-- A byte put from a byte boundary: its seventh bit touches no stream, its eighth offers the sink a byte. -/
theorem putBits_byte {v : BitVec 8} {s : State} (hs : WriterAtBoundary s) :
    ∃ t, ¬ t.wcnt.toNat < 7 ∧ t.snk = s.snk ∧ t.snkAnswers = s.snkAnswers ∧
      putBits (bits8 v) s = putBit (v.getLsbD 0) t := by
  have h7 : ((bits8 v).take 7).length = 7 := rfl
  obtain ⟨t, ht, hsnk, hanswers, hcnt⟩ := putBits_short (bits := (bits8 v).take 7) (s := s) (by rw [hs.1, h7]; decide)
  refine ⟨t, by rw [hcnt, h7]; omega, hsnk, hanswers, ?_⟩
  rw [show bits8 v = (bits8 v).take 7 ++ [v.getLsbD 0] from rfl, putBits_append, ht, andThen_done, putBits]
  cases putBit (v.getLsbD 0) t <;> rfl

/-! ## RBITS -/

theorem srcRead_completeOk (v : Bool) (s : State) :
    srcRead (completeOk v s) = mapState (completeOk v) (srcRead s) := by
  rw [srcRead, srcRead, completeOk_srcAnswers, completeOk_src, completeOk_spos]
  split <;> rfl

/-- BR reads nothing of `RESULT`. -/
theorem getBit_completeOk (v : Bool) (s : State) : getBit (completeOk v s) = mapState (completeOk v) (getBit s) := by
  by_cases h : s.rcnt = 0#4
  · rw [getBit, if_pos (by rwa [completeOk_rcnt]), srcRead_completeOk, getBit, if_pos h]
    cases srcRead s <;> rfl
  · rw [getBit_held h, getBit_held (s := completeOk v s) h]
    rfl

theorem getBits_completeOk {n : Nat} {bits : Bits} {s t : State} (v : Bool) (h : getBits n s = .done bits t) :
    getBits n (completeOk v s) = .done bits (completeOk v t) := by
  induction n generalizing bits s with
  | zero => cases h; rfl
  | succ n ih =>
    obtain ⟨b, u, rest, hb, hrest, rfl⟩ := getBits_succ_done h
    rw [getBits, getBit_completeOk, hb, show mapState _ (Res.done b u) = .done b (completeOk v u) from rfl, andThen_done,
      ih hrest, andThen_done]

/-- RBITs of bits that can be got complete `OK` with those bits. -/
theorem runRbits_of_done {n : Nat} {bits : Bits} {s t : State} (h : getBits n s = .done bits t) :
    ∃ u, runRbits n s = .next (u, .value bits) ∧ SameButResult t u := by
  induction n generalizing bits s t with
  | zero => cases h; exact ⟨s, rfl, SameButResult.refl s⟩
  | succ n ih =>
    obtain ⟨b, w, rest, hb, hrest, rfl⟩ := getBits_succ_done h
    obtain ⟨u, hu, hsame⟩ := ih (getBits_completeOk b hrest)
    refine ⟨u, ?_, (sameButResult_completeOk b t).trans hsame⟩
    have hrun := runExpansion_cons_ok (rest := pseudoRbits n) (exec_rbit_of_done hb) rfl
    rw [runRbits] at hu
    rw [runRbits, pseudoRbits, List.replicate_succ, ← pseudoRbits, hrun, hu]
    rfl

/-- Bits held are got without the source. -/
theorem getBits_held {n : Nat} {s : State} (hn : n ≤ s.rcnt.toNat) (h8 : n ≤ 8) :
    ∃ t, getBits n s = .done ((bits8 s.rbyte).take n) t ∧ t.rcnt.toNat = s.rcnt.toNat - n ∧ t.spos = s.spos := by
  induction n generalizing s with
  | zero => exact ⟨s, rfl, rfl, rfl⟩
  | succ n ih =>
    have hheld : s.rcnt ≠ 0#4 := fun h => by rw [h] at hn; simp at hn
    have hsub : (s.rcnt - 1).toNat = s.rcnt.toNat - 1 := by bv_omega
    obtain ⟨t, ht, hcnt, hspos⟩ := ih (s := { s with rbyte := s.rbyte <<< 1, rcnt := s.rcnt - 1, rpos := s.rpos + 1 })
      (by show n ≤ (s.rcnt - 1).toNat; omega) (by omega)
    refine ⟨t, ?_, hcnt.trans ?_, hspos⟩
    · rw [getBits, getBit_held hheld, andThen_done, ht, andThen_done, take_bits8_shiftLeft_one _ (by omega)]
    · show (s.rcnt - 1).toNat - n = _
      omega

/-- With no bit held the next byte is loaded and its eight bits got. -/
theorem getBits_byte {v : BitVec 8} {s : State} (h : s.rcnt = 0#4) (ha : nextAnswer s.srcAnswers = .ok)
    (hv : s.src[s.spos]? = some v) :
    ∃ t, getBits 8 s = .done (bits8 v) t ∧ t.rcnt = 0#4 ∧ t.spos = s.spos + 1 := by
  obtain ⟨t, ht, hcnt, hspos⟩ := getBits_held (n := 7) (s := { s with
    rbyte := v <<< 1, rcnt := 7#4, spos := s.spos + 1, srcAnswers := s.srcAnswers.tail, rpos := s.rpos + 1 })
    (Nat.le_refl 7) (by decide)
  refine ⟨t, ?_, BitVec.eq_of_toNat_eq (hcnt.trans rfl), hspos⟩
  rw [getBits, getBit_loads h ha hv, andThen_done, ht, andThen_done, ← take_bits8_shiftLeft_one v (by decide)]
  rfl

theorem getBits_onlyReader_of_done {n : Nat} {bits : Bits} {s t : State} (h : getBits n s = .done bits t) :
    OnlyReader s t := by
  have honly := getBits_onlyReader n s
  rwa [h] at honly

end Sys2Proof.Machine

namespace Sys2Proof
open Sys2Proof.Machine

/-- Settles O56: each expansion is `putBits` or `getBits` but for `RESULT`; a byte from a boundary is one transaction. -/
theorem pseudoInstructionsExpand : Obligations.PseudoInstructionsExpand := by
  refine ⟨fun bits s t ht => ?_, fun bits s t ht => ?_, fun v s hs => ⟨fun hok => ?_, fun e hfail => ?_⟩,
    fun v s hnone hok hv => ?_⟩
  · obtain ⟨u, hu, hsame⟩ := runExpansion_wbits_of_done ht
    have honly := putBits_done_onlyWriter ht
    exact ⟨u, hu, hsame.sameWriter, honly.sameReader.trans hsame.sameReader, honly.sameTree.trans hsame.sameTree,
      honly.sameSticky.trans hsame.sameSticky⟩
  · obtain ⟨u, hu, hsame⟩ := runRbits_of_done ht
    have honly := getBits_onlyReader_of_done ht
    exact ⟨u, hu, hsame.sameReader, honly.sameWriter.trans hsame.sameWriter, honly.sameTree.trans hsame.sameTree,
      honly.sameSticky.trans hsame.sameSticky⟩
  · obtain ⟨t, hfull, hsnk, hanswers, hput⟩ := putBits_byte (v := v) hs
    rw [putBit_eighth _ hfull (by rwa [hanswers])] at hput
    obtain ⟨hgain, hwcnt, hwacc⟩ := putBits_done_from_boundary hs hput
    have hbyte : pack (bits8 v) = [v] := by
      have height := pack_append_eight (bits8_length v) []
      rwa [List.append_nil, val8_bits8] at height
    rw [hbyte, bits8_length] at hgain hwacc
    obtain ⟨u, hu, hsame⟩ := runExpansion_wbits_of_done hput
    obtain ⟨hacc, hcnt, hsnku, _⟩ := hsame.sameWriter
    have herr := ((putBits_done_onlyWriter hput).sameSticky.trans hsame.sameSticky).wErr
    exact ⟨u, hu, hsnku.trans hgain, hcnt, hacc, herr.trans hs.2.2⟩
  · obtain ⟨t, hfull, hsnk, hanswers, hput⟩ := putBits_byte (v := v) hs
    rw [putBit_refused _ hfull (hanswers ▸ hfail)] at hput
    exact ⟨_, runExpansion_wbits_of_raised hput, (enterFault_snk _ _).trans hsnk⟩
  · obtain ⟨t, ht, hcnt, hspos⟩ := getBits_byte hnone hok hv
    obtain ⟨u, hu, hsame⟩ := runRbits_of_done ht
    obtain ⟨_, hrcnt, _, hsposu, _⟩ := hsame.sameReader
    refine ⟨u, ?_, hrcnt.trans hcnt, hsposu.trans hspos⟩
    rw [runRbits] at hu
    rw [runRbyte8, pseudoRbyte8, hu, mapRun_value, val8_bits8]

end Sys2Proof
end

section
/-! SUPPORT. HOST reference: COMPRESS (43_host_pipelines.md R120 to R125). Its header, tree and data bits go into the sink in
order; a run that is over has put them all and flushed them. -/

namespace Sys2Proof.Machine

/-! ## Runs of commands -/

/-- An expansion that ends with its values has completed its first command `OK`. -/
theorem runExpansion_cons_value {i : Instr} {rest : List Instr} {s u : State} {vs : Bits}
    (h : runExpansion (i :: rest) s = .next (u, .value vs)) :
    ∃ t ws, exec i s = .next t ∧ t.code = .ok ∧ runExpansion rest t = .next (u, .value ws) := by
  cases hi : exec i s with
  | next t =>
    by_cases hok : t.code = .ok
    · rw [runExpansion_cons_ok hi hok] at h
      obtain ⟨ws, hrest, _⟩ := mapRun_eq_value.mp h
      exact ⟨t, ws, rfl, hok, hrest⟩
    · rw [runExpansion_cons_fault hi hok] at h
      cases h
  | fault f => rw [runExpansion, hi] at h; cases h
  | refused r => rw [runExpansion, hi] at h; cases h

theorem leaveWithFlush_ne_finished (why : PipelineFailure) (s t : State) (out : List Byte) :
    leaveWithFlush why s ≠ .next (t, .finished out) := by
  unfold leaveWithFlush
  split <;> simp

theorem issueAll_eq_finished {cmds : List Instr} {s t : State} {out : List Byte} :
    issueAll cmds s = .next (t, .finished out) ↔ out = [] ∧ ∃ vs, runExpansion cmds s = .next (t, .value vs) := by
  rw [issueAll]
  split
  next u vs hrun =>
    constructor
    · intro h; cases h; exact ⟨rfl, vs, hrun⟩
    · rintro ⟨rfl, ws, hws⟩; cases hrun.symm.trans hws; rfl
  next u code info hrun =>
    refine ⟨fun h => absurd h (leaveWithFlush_ne_finished _ _ _ _), ?_⟩
    rintro ⟨_, ws, hws⟩; cases hrun.symm.trans hws
  next f hrun => exact ⟨nofun, fun ⟨_, ws, hws⟩ => nomatch hrun.symm.trans hws⟩
  next r hrun => exact ⟨nofun, fun ⟨_, ws, hws⟩ => nomatch hrun.symm.trans hws⟩

/-- Step 6 finishes exactly when its one WFLUSH completes `OK` (R125). -/
theorem issueAll_wflush_eq_finished {t u : State} {out : List Byte} :
    issueAll [.wflush] t = .next (u, .finished out) ↔ out = [] ∧ exec .wflush t = .next u ∧ u.code = .ok := by
  rw [issueAll_eq_finished]
  refine and_congr_right fun _ => ⟨?_, fun ⟨hu, hok⟩ => ⟨_, runExpansion_cons_ok hu hok⟩⟩
  rintro ⟨vs, hrun⟩
  obtain ⟨v, ws, hv, hok, hnil⟩ := runExpansion_cons_value hrun
  cases hnil
  exact ⟨hv, hok⟩

/-- Bytes written directly that were all accepted: they are in the sink, and BW has not moved (R122). -/
theorem sinkAll_finished {bytes : List Byte} {s t : State} {out : List Byte}
    (h : sinkAll bytes s = .next (t, .finished out)) :
    out = [] ∧ OnlyWriter s t ∧ t.snk = s.snk ++ bytes ∧ t.wcnt = s.wcnt ∧ t.wacc = s.wacc := by
  induction bytes generalizing s with
  | nil => cases h; exact ⟨rfl, OnlyWriter.refl _, (List.append_nil _).symm, rfl, rfl⟩
  | cons v rest ih =>
    rw [sinkAll] at h
    obtain ⟨_, hw⟩ | ⟨e, _, hw⟩ | ⟨_, hw⟩ := snkWrite_cases v s <;> rw [hw] at h
    · obtain ⟨hout, honly, hsnk, hcnt, hacc⟩ := ih h
      have hfirst : OnlyWriter s { s with snk := s.snk ++ [v], snkAnswers := s.snkAnswers.tail } := rfl
      exact ⟨hout, hfirst.trans honly, by rw [hsnk, List.append_assoc]; rfl, hcnt, hacc⟩
    · exact absurd h (leaveWithFlush_ne_finished _ _ _ _)
    · cases h

theorem sinkAll_accepted (bytes : List Byte) {s : State} (h : SinkAccepts s) :
    ∃ t, sinkAll bytes s = .next (t, .finished []) ∧ SinkAccepts t := by
  induction bytes generalizing s with
  | nil => exact ⟨s, rfl, h⟩
  | cons v rest ih =>
    obtain ⟨t, ht, haccept⟩ := ih (s := { s with snk := s.snk ++ [v], snkAnswers := s.snkAnswers.tail })
      fun a ha => h a (List.mem_of_mem_tail ha)
    refine ⟨t, ?_, haccept⟩
    rw [sinkAll, snkWrite, nextAnswer_of_all_ok h]
    exact ht

theorem headerThen_finished {len : Nat} {cmds : List Instr} {fails : Option (Nat × BitVec 32)} {s t : State}
    {out : List Byte} (h : headerThen len cmds fails s = .next (t, .finished out)) :
    out = [] ∧ fails = none ∧ ∃ s1 vs, sinkAll (headerBytes len) s = .next (s1, .finished []) ∧
      runExpansion cmds s1 = .next (t, .value vs) := by
  obtain ⟨s1, first, hheader, h⟩ := afterFinished_eq_finished.mp h
  obtain ⟨s2, second, hissue, h⟩ := afterFinished_eq_finished.mp h
  obtain ⟨rfl, _⟩ := sinkAll_finished hheader
  obtain ⟨rfl, vs, hrun⟩ := issueAll_eq_finished.mp hissue
  split at h
  next => cases h; exact ⟨rfl, rfl, s1, vs, hheader, hrun⟩
  next => exact absurd h (leaveWithFlush_ne_finished _ _ _ _)

/-! ## Commands that put bits -/

theorem SameButResult.completeOk_eq {t u : State} (h : SameButResult t u) (v : Bool) : completeOk v u = completeOk v t := by
  rw [h]; rfl

/-- WFLUSH reads nothing of `RESULT`. -/
theorem exec_wflush_congr {t u : State} (h : SameButResult t u) : exec .wflush u = exec .wflush t := by
  rw [← exec_wflush_completeOk false u, h.completeOk_eq, exec_wflush_completeOk]

/-- Issued in `s`, the commands put the string `bits`: if they all complete `OK` they have put it, and if the sink accepts
they do. -/
structure PutsBits (cmds : List Instr) (bits : Bits) (s : State) : Prop where
  put : ∀ {u vs}, runExpansion cmds s = .next (u, .value vs) → ∃ t, putBits bits s = .done () t ∧ SameButResult t u
  accepted : SinkAccepts s → ∃ u vs, runExpansion cmds s = .next (u, .value vs) ∧ SinkAccepts u

theorem SameButResult.sinkAccepts {t u : State} (h : SameButResult t u) (ht : SinkAccepts t) : SinkAccepts u := by
  rw [SinkAccepts, h.sameWriter.snkAnswers]
  exact ht

theorem wbits_putsBits (bits : Bits) (s : State) : PutsBits (pseudoWbits bits) bits s where
  put := putBits_of_runExpansion_wbits
  accepted haccept := by
    obtain ⟨t, ht, htaccept, _⟩ := putBits_accepted bits haccept
    obtain ⟨u, hu, hsame⟩ := runExpansion_wbits_of_done ht
    exact ⟨u, _, hu, hsame.sinkAccepts htaccept⟩

/-- A TSER over a held tree that completed `OK` has put the tree's bits. -/
theorem putBits_of_exec_tser_ok {t : Tree} {s u : State} (htree : HoldsTree s t = true) (h : exec .tser s = .next u)
    (hok : u.code = .ok) : ∃ v, putBits (ser t) s = .done () v ∧ u = completeOk false v := by
  obtain ⟨_, v, hrun, rfl⟩ := finishCommand_ok h hok
  obtain ⟨n, w, hser, hv⟩ := andThen_eq_done.mp hrun
  cases hv
  rw [serNode_of_holdsTree htree] at hser
  obtain ⟨⟨⟩, v, hput, hv⟩ := andThen_eq_done.mp hser
  cases hv
  exact ⟨v, hput, rfl⟩

/-- TSER and then the WBITs of the data put the tree's bits and then the data (R123, R124). -/
theorem tser_wbits_putsBits {t : Tree} (data : Bits) {s : State} (htree : HoldsTree s t = true) :
    PutsBits (.tser :: pseudoWbits data) (ser t ++ data) s where
  put {u vs} h := by
    obtain ⟨s1, ws, hser, hok, hrest⟩ := runExpansion_cons_value h
    obtain ⟨v, hv, rfl⟩ := putBits_of_exec_tser_ok htree hser hok
    obtain ⟨w, hw, hsame⟩ := putBits_of_runExpansion_wbits hrest
    rw [putBits_completeOk] at hw
    rw [putBits_append, hv, andThen_done]
    cases hdata : putBits data v with
    | done a x =>
      rw [hdata] at hw
      cases hw
      exact ⟨x, rfl, (sameButResult_completeOk false x).trans hsame⟩
    | raised c x => rw [hdata] at hw; cases hw
    | stuck f => rw [hdata] at hw; cases hw
  accepted haccept := by
    obtain ⟨v, hv, hvaccept, _⟩ := putBits_accepted (ser t) haccept
    have hser : exec .tser s = .next (completeOk false v) :=
      exec_tser_of_done (v := treeNodes t) (by rw [serNode_of_holdsTree htree, hv, andThen_done])
    obtain ⟨u, vs, hu, huaccept⟩ := (wbits_putsBits data (completeOk false v)).accepted hvaccept
    exact ⟨u, _, by rw [runExpansion_cons_ok hser rfl, hu, mapRun_value], huaccept⟩

/-- The end of a run: the header, the bits and the flush have gone into the sink, and no fault was entered. -/
structure ArtifactWritten (len : Nat) (bits : Bits) (s u : State) : Prop where
  snk : u.snk = s.snk ++ headerBytes len ++ pack bits
  wcnt : u.wcnt = 0#3
  wacc : u.wacc = 0#8
  sticky : SameSticky s u

theorem artifactWritten_of_over {len : Nat} {cmds : List Instr} {bits : Bits} {fails : Option (Nat × BitVec 32)}
    {s t u : State} {out : List Byte} (hs : WriterAtBoundary s) (hputs : ∀ s1, OnlyWriter s s1 → PutsBits cmds bits s1)
    (h : headerThen len cmds fails s = .next (t, .finished out)) (hu : exec .wflush t = .next u) (hok : u.code = .ok) :
    ArtifactWritten len bits s u := by
  obtain ⟨_, _, s1, vs, hheader, hrun⟩ := headerThen_finished h
  obtain ⟨_, honly, hsnk, hcnt, hacc⟩ := sinkAll_finished hheader
  obtain ⟨w, hw, hsame⟩ := (hputs s1 honly).put hrun
  rw [exec_wflush_congr hsame] at hu
  have hs1 : WriterAtBoundary s1 := ⟨hcnt.trans hs.1, hacc.trans hs.2.1, honly.sameSticky.wErr.trans hs.2.2⟩
  obtain ⟨hgain, hwcnt, hwacc⟩ := exec_wflush_completes_pack hs1 hw hu hok
  have hput := (putBits_done_onlyWriter hw).sameSticky
  obtain ⟨hflush, _⟩ := (exec_wflush_next hu).ok hok
  exact ⟨by rw [hgain, hsnk], hwcnt, hwacc, (honly.sameSticky.trans hput).trans hflush⟩

theorem headerThen_accepted (len : Nat) {cmds : List Instr} {bits : Bits} {s : State}
    (hputs : ∀ s1, OnlyWriter s s1 → PutsBits cmds bits s1) (h : SinkAccepts s) :
    ∃ t, headerThen len cmds none s = .next (t, .finished []) ∧ SinkAccepts t := by
  obtain ⟨s1, hheader, haccept⟩ := sinkAll_accepted (headerBytes len) h
  obtain ⟨_, honly, _⟩ := sinkAll_finished hheader
  obtain ⟨t, vs, hrun, htaccept⟩ := (hputs s1 honly).accepted haccept
  refine ⟨t, ?_, htaccept⟩
  rw [headerThen, hheader, afterFinished_finished, issueAll_eq_finished.mpr ⟨rfl, vs, hrun⟩, afterFinished_finished]

/-! ## The host's image of its tree -/

/-- What a tree's 32-bit words keep of its frequencies (10_state.md R22). -/
def treeWrap (t : Tree) : Tree :=
  match t with
  | .leaf sym f => .leaf sym (f % 2 ^ 32)
  | .internal f l r => .internal (f % 2 ^ 32) (treeWrap l) (treeWrap r)

@[simp] theorem ser_treeWrap (t : Tree) : ser (treeWrap t) = ser t := by
  induction t with
  | leaf sym f => rfl
  | internal f l r ihl ihr => simp [treeWrap, ser, ihl, ihr]

@[simp] theorem treeNodes_treeWrap (t : Tree) : treeNodes (treeWrap t) = treeNodes t := by
  induction t with
  | leaf sym f => rfl
  | internal f l r ihl ihr => simp [treeWrap, treeNodes, ihl, ihr]

/-- The host's writes are to TMEM alone. -/
theorem loadTree_only_tmem (t : Tree) (i : Nat) (s : State) : loadTree t i s = { s with tmem := (loadTree t i s).tmem } := by
  induction t generalizing i s with
  | leaf sym f => rfl
  | internal f l r ihl ihr =>
    rw [loadTree, ihr, ihl]
    rfl

theorem tmemRead_entryWrite_outside {i a : Nat} (hi : i < 511) (tag : Bool) (sym : BitVec 8) (l r : Index) (f : BitVec 32)
    (s : State) (h : a < entryAddr i ∨ entryAddr (i + 1) ≤ a) :
    tmemRead (entryWrite (BitVec.ofNat 9 i) tag sym l r f s) a = tmemRead s a := by
  have e := toNat_ofNat_index (i := i) (by omega)
  have hnext := entryAddr_lt (i := i) (j := i + 1) (by omega)
  apply tmemRead_entryWrite_other <;> rw [e] <;> omega

/-- The host's image of a tree lies in as many entries as the tree has nodes. -/
theorem tmemRead_loadTree_outside (t : Tree) {i a : Nat} {s : State} (hi : i + treeNodes t ≤ 511)
    (h : a < entryAddr i ∨ entryAddr (i + treeNodes t) ≤ a) : tmemRead (loadTree t i s) a = tmemRead s a := by
  induction t generalizing i s with
  | leaf sym f => exact tmemRead_entryWrite_outside hi _ _ _ _ _ s h
  | internal f l r ihl ihr =>
    have hposl := treeNodes_pos l
    have hposr := treeNodes_pos r
    simp only [treeNodes] at hi h
    simp only [entryAddr] at h
    rw [loadTree, ihr (by omega) (by simp only [entryAddr]; omega), ihl (by omega) (by simp only [entryAddr]; omega),
      tmemRead_entryWrite_outside (by omega) _ _ _ _ _ _ (by simp only [entryAddr]; omega)]

theorem entryWord0_congr {s u : State} {i : Nat} (hi : i < 511) (h : tmemRead u (entryAddr i) = tmemRead s (entryAddr i)) :
    entryWord0 u (BitVec.ofNat 9 i) = entryWord0 s (BitVec.ofNat 9 i) := by
  rw [entryWord0, entryWord0, toNat_ofNat_index (by omega), h]

theorem entryWord1_congr {s u : State} {i : Nat} (hi : i < 511)
    (h : tmemRead u (entryAddr i + 1) = tmemRead s (entryAddr i + 1)) :
    entryWord1 u (BitVec.ofNat 9 i) = entryWord1 s (BitVec.ofNat 9 i) := by
  rw [entryWord1, entryWord1, toNat_ofNat_index (by omega), h]

/-- Every memory that reads as the host's image does, in the image's own entries, holds the tree (R121). -/
theorem holdsAt_of_loadTree (t : Tree) {i : Nat} {s u : State} (hi : i + treeNodes t ≤ 511)
    (h : ∀ a, entryAddr i ≤ a → a < entryAddr (i + treeNodes t) → tmemRead u a = tmemRead (loadTree t i s) a) :
    HoldsAt u (treeWrap t) (BitVec.ofNat 9 i) = true := by
  induction t generalizing i s with
  | leaf sym f =>
    simp only [treeNodes] at hi h
    have hnext := entryAddr_lt (i := i) (j := i + 1) (by omega)
    have h0 := (entryWord0_congr (u := u) (by omega) (h _ (by omega) (by omega))).trans
      (entryWord0_entryWrite_same _ _ _ _ _ _ s)
    have h1 := (entryWord1_congr (u := u) (by omega) (h _ (by omega) (by omega))).trans
      (entryWord1_entryWrite_same _ _ _ _ _ _ s)
    rw [treeWrap, holdsAt_leaf_iff, entryTag, entrySym, entryFreq, h0, h1, packWord0_tag, packWord0_sym,
      BitVec.toNat_ofNat]
    exact ⟨index_ne_nil (by omega), rfl, rfl, rfl⟩
  | internal f l r ihl ihr =>
    have hposl := treeNodes_pos l
    have hposr := treeNodes_pos r
    simp only [treeNodes, loadTree] at hi h
    generalize hroot : entryWrite _ _ _ _ _ _ s = root at h
    -- The entry's own words are written first, and neither subtree's writes reach them.
    have hown : ∀ a, entryAddr i ≤ a → a ≤ entryAddr i + 1 → tmemRead u a = tmemRead root a := by
      intro a hlo hhi
      simp only [entryAddr] at hlo hhi
      rw [h a (by simp only [entryAddr]; omega) (by simp only [entryAddr]; omega),
        tmemRead_loadTree_outside r (by omega) (by simp only [entryAddr]; omega),
        tmemRead_loadTree_outside l (by omega) (by simp only [entryAddr]; omega)]
    have h0 := entryWord0_congr (i := i) (by omega) (hown _ (by omega) (by omega))
    have h1 := entryWord1_congr (i := i) (by omega) (hown _ (by omega) (by omega))
    rw [← hroot, entryWord0_entryWrite_same] at h0
    rw [← hroot, entryWord1_entryWrite_same] at h1
    rw [treeWrap, holdsAt_internal_iff, entryTag, entryLeft, entryRight, entryFreq, h0, h1, packWord0_tag, packWord0_left,
      packWord0_right, BitVec.toNat_ofNat]
    refine ⟨index_ne_nil (by omega), rfl, rfl, ihl (s := root) (by omega) fun a hlo hhi => ?_,
      ihr (s := loadTree l (i + 1) root) (by omega) fun a hlo hhi => ?_⟩
    · simp only [entryAddr] at hlo hhi
      rw [h a (by simp only [entryAddr]; omega) (by simp only [entryAddr]; omega),
        tmemRead_loadTree_outside r (by omega) (by simp only [entryAddr]; omega)]
    · simp only [entryAddr] at hlo hhi
      exact h a (by simp only [entryAddr]; omega) (by simp only [entryAddr]; omega)

/-- COMPRESS's image holds its tree, where the tree fits (R121). -/
theorem holdsTree_loadTree {t : Tree} (s : State) (hcap : treeNodes t ≤ Config.nodeCap) :
    HoldsTree (loadTree t 0 s) (treeWrap t) = true := by
  rw [holdsTree_iff, treeNodes_treeWrap]
  exact ⟨holdsAt_of_loadTree t (s := s) ((Nat.zero_add _).trans_le hcap) fun _ _ _ => rfl, hcap⟩

theorem HoldsTree.of_onlyWriter {s u : State} {t : Tree} (h : HoldsTree s t = true) (ho : OnlyWriter s u) :
    HoldsTree u t = true := by
  rw [holdsTree_iff, holdsAt_onlyWriter t ho]
  exact holdsTree_iff.mp h

/-! ## The tree of an input -/

theorem treeLeaves_eq_length (t : Tree) : treeLeaves t = (treeSymbols t).length := by
  induction t with
  | leaf sym f => rfl
  | internal f l r ihl ihr => rw [treeLeaves, treeSymbols, List.length_append, ihl, ihr]

/-- A tree of distinct symbols fits TMEM: there are 256 symbols (42_treecodec.md R110). -/
theorem treeNodes_le_of_nodup {t : Tree} (h : (treeSymbols t).Nodup) : treeNodes t ≤ Config.nodeCap := by
  have hcard : (treeSymbols t).length ≤ 256 := 
    h.length_le_card.trans_eq ((Fintype.card_congr BitVec.equivFin.toEquiv).trans (Fintype.card_fin _))
  have hnodes := treeNodes_add_one t
  rw [treeLeaves_eq_length] at hnodes
  simp only [Config.nodeCap]
  omega

/-- The tree COMPRESS builds from a non-empty input: it fits TMEM, and every byte of the input has a code under it. -/
theorem buildTree_of_input (order : MergeOrder) {bytes : List Byte} (hne : bytes ≠ []) :
    ∃ t, buildTree order (countBytes bytes) = some t ∧ treeNodes t ≤ Config.nodeCap ∧ ∀ x ∈ bytes, x ∈ treeSymbols t := by
  have htable : countBytes bytes ≠ [] := by
    intro h
    have hsum := sum_countBytes bytes
    rw [h] at hsum
    exact hne (List.eq_nil_of_length_eq_zero hsum.symm)
  obtain ⟨t, ht, _, _, hsyms⟩ := buildTree_builds order htable
  refine ⟨t, ht, treeNodes_le_of_nodup (hsyms.nodup_iff.mpr (nodup_map_fst_countBytes bytes)), fun x hx => ?_⟩
  exact hsyms.symm.subset ((mem_map_fst_countBytes bytes x).mpr hx)

/-! ## Steps 1 to 5 -/

theorem writerAtBoundary_resetBlock (s : State) : WriterAtBoundary (resetBlock s) := ⟨rfl, rfl, rfl⟩

theorem loadTree_writerAtBoundary {s : State} (t : Tree) (i : Nat) (h : WriterAtBoundary s) :
    WriterAtBoundary (loadTree t i s) := by
  rw [loadTree_only_tmem]
  exact h

theorem loadTree_sameSticky (t : Tree) (i : Nat) (s : State) : SameSticky s (loadTree t i s) := by
  rw [loadTree_only_tmem]
  exact ⟨rfl, rfl, rfl, rfl⟩

theorem loadTree_sameReader (t : Tree) (i : Nat) (s : State) : SameReader s (loadTree t i s) := by
  rw [loadTree_only_tmem]
  exact ⟨rfl, rfl, rfl, rfl, rfl, rfl⟩

theorem loadTree_sameWriter (t : Tree) (i : Nat) (s : State) : SameWriter s (loadTree t i s) := by
  rw [loadTree_only_tmem]
  exact ⟨rfl, rfl, rfl, rfl, rfl⟩

/-- How steps 1 to 5 finish: the header and the policy's bits for the empty input, else the header, the tree and the data. -/
theorem compressBits_finished {order : MergeOrder} {policy : EmptyInputPolicy} {input : InputSource} {s t : State}
    {out : List Byte} (h : compressBits order policy input s = .next (t, .finished out)) :
    out = [] ∧ if input.bytes = [] then headerThen 0 (pseudoWbits policy.written) none (resetBlock s) = .next (t, .finished [])
      else ∃ tree data, buildTree order (countBytes input.bytes) = some tree ∧
        encodeData (codeOf (extractCodes tree)) input.bytes = some data ∧
        headerThen input.bytes.length (.tser :: pseudoWbits data) none (loadTree tree 0 (resetBlock s))
          = .next (t, .finished []) := by
  rw [compressBits] at h
  split at h
  next => cases h
  next =>
    rw [countFrequencies] at h
    cases hcount : input.countFails with
    | some p => rw [hcount] at h; exact absurd h (leaveWithFlush_ne_finished _ _ _ _)
    | none =>
      simp only [hcount] at h
      split at h
      next hempty =>
        obtain ⟨rfl, hfails, _⟩ := headerThen_finished h
        rw [hfails] at h
        exact ⟨rfl, by rw [if_pos (List.isEmpty_iff.mp hempty)]; exact h⟩
      next hne =>
        split at h
        next => exact absurd h (leaveWithFlush_ne_finished _ _ _ _)
        next tree htree =>
          split at h
          next => exact absurd h (leaveWithFlush_ne_finished _ _ _ _)
          next data hdata =>
            obtain ⟨rfl, hfails, _⟩ := headerThen_finished h
            rw [hfails] at h hdata
            exact ⟨rfl, by rw [if_neg fun he => hne (List.isEmpty_iff.mpr he)]; exact ⟨tree, data, htree, hdata, h⟩⟩

/-- An input that can be read is compressed by its header, its tree and its data. -/
theorem compressBits_readable {order : MergeOrder} {policy : EmptyInputPolicy} {input : InputSource} {s : State}
    (hlen : input.bytes.length < 2 ^ 32) (hcount : input.countFails = none) (hencode : input.encodeFails = none) :
    (input.bytes = [] →
      compressBits order policy input s = headerThen 0 (pseudoWbits policy.written) none (resetBlock s)) ∧
    ∀ tree data, input.bytes ≠ [] → buildTree order (countBytes input.bytes) = some tree →
      encodeData (codeOf (extractCodes tree)) input.bytes = some data →
      compressBits order policy input s =
        headerThen input.bytes.length (.tser :: pseudoWbits data) none (loadTree tree 0 (resetBlock s)) := by
  have hshort : ¬ 2 ^ 32 ≤ input.bytes.length := Nat.not_le.mpr hlen
  refine ⟨fun hempty => ?_, fun tree data hne htree hdata => ?_⟩
  · rw [compressBits, if_neg hshort]
    simp only [countFrequencies, hcount, hencode, hempty, List.isEmpty_nil, if_true]
  · have hnotEmpty : ¬ input.bytes.isEmpty = true := fun he => hne (List.isEmpty_iff.mp he)
    simp only [compressBits, if_neg hshort, countFrequencies, hcount, hencode, if_neg hnotEmpty, htree, bytesRead, hdata]

/-- What the two kinds of runs put after the header. -/
theorem compressed_putsBits {order : MergeOrder} {bytes : List Byte} {tree : Tree} (data : Bits) (s : State)
    (hne : bytes ≠ []) (htree : buildTree order (countBytes bytes) = some tree) :
    ∀ s1, OnlyWriter (loadTree tree 0 s) s1 → PutsBits (.tser :: pseudoWbits data) (ser tree ++ data) s1 := by
  intro s1 ho
  obtain ⟨t, ht, hcap, _⟩ := buildTree_of_input order hne
  obtain rfl := Option.some.inj (ht.symm.trans htree)
  have hputs := tser_wbits_putsBits data (HoldsTree.of_onlyWriter (holdsTree_loadTree s hcap) ho)
  rwa [ser_treeWrap] at hputs

/-! ## COMPRESS -/

/-- A run that is over has written its artifact, flushed it and entered no fault (70_reset_and_hazards.md R204). -/
theorem CompressRunOver.written {order : MergeOrder} {policy : EmptyInputPolicy} {input : InputSource} {s u : State}
    (h : CompressRunOver order policy input s u) :
    u.wcnt = 0#3 ∧ u.wacc = 0#8 ∧ NoFault u = true ∧
      if input.bytes = [] then u.snk = s.snk ++ [0#8, 0#8, 0#8, 0#8] ++ pack policy.written
      else ∃ t bytes, buildTree order (countBytes input.bytes) = some t ∧ artifact t input.bytes = some bytes ∧
        u.snk = s.snk ++ bytes := by
  obtain ⟨t, hbits, hflush, hok⟩ := h
  have hclean : ∀ {v}, SameSticky (resetBlock s) v → NoFault v = true := fun hv => by
    simp [NoFault, hv.wErr, hv.rErr, hv.tErr, hv.cErr]
  obtain ⟨_, hrun⟩ := compressBits_finished hbits
  split at hrun
  next hempty =>
    obtain ⟨hsnk, hwcnt, hwacc, hsticky⟩ := artifactWritten_of_over (writerAtBoundary_resetBlock s)
      (fun s1 _ => wbits_putsBits policy.written s1) hrun hflush hok
    exact ⟨hwcnt, hwacc, hclean hsticky, by rw [if_pos hempty]; exact hsnk⟩
  next hne =>
    obtain ⟨tree, data, htree, hdata, hrun⟩ := hrun
    obtain ⟨hsnk, hwcnt, hwacc, hsticky⟩ := artifactWritten_of_over
      (loadTree_writerAtBoundary tree 0 (writerAtBoundary_resetBlock s))
      (compressed_putsBits data (resetBlock s) hne htree) hrun hflush hok
    refine ⟨hwcnt, hwacc, hclean ((loadTree_sameSticky tree 0 (resetBlock s)).trans hsticky), ?_⟩
    rw [if_neg hne]
    refine ⟨tree, _, htree, by rw [artifact, hdata, Option.map_some], ?_⟩
    rw [hsnk, (loadTree_sameWriter tree 0 (resetBlock s)).snk, List.append_assoc]
    rfl

theorem compress_of_runOver {order : MergeOrder} {policy : EmptyInputPolicy} {input : InputSource} {s u : State}
    (h : CompressRunOver order policy input s u) : compress order policy input s = .next (u, .finished []) := by
  obtain ⟨t, hbits, hflush, hok⟩ := h
  exact afterFinished_eq_finished.mpr ⟨t, [], hbits, issueAll_wflush_eq_finished.mpr ⟨rfl, hflush, hok⟩⟩

theorem runOver_of_compress {order : MergeOrder} {policy : EmptyInputPolicy} {input : InputSource} {s u : State}
    {out : List Byte} (h : compress order policy input s = .next (u, .finished out)) :
    CompressRunOver order policy input s u := by
  obtain ⟨t, first, hbits, hstep6⟩ := afterFinished_eq_finished.mp h
  obtain ⟨rfl, _⟩ := compressBits_finished hbits
  obtain ⟨_, hflush, hok⟩ := issueAll_wflush_eq_finished.mp hstep6
  exact ⟨t, hbits, hflush, hok⟩

/-- A run whose sink accepts and whose input can be read is over. -/
theorem exists_compressRunOver (order : MergeOrder) (policy : EmptyInputPolicy) {input : InputSource} {s : State}
    (hlen : input.bytes.length < 2 ^ 32) (haccept : SinkAccepts s) (hcount : input.countFails = none)
    (hencode : input.encodeFails = none) : ∃ u, CompressRunOver order policy input s u := by
  obtain ⟨hempty, htree⟩ := compressBits_readable (order := order) (policy := policy) (s := s) hlen hcount hencode
  have hbits : ∃ t, compressBits order policy input s = .next (t, .finished []) ∧ SinkAccepts t := by
    by_cases hne : input.bytes = []
    · rw [hempty hne]
      exact headerThen_accepted 0 (fun s1 _ => wbits_putsBits policy.written s1) (s := resetBlock s) haccept
    · obtain ⟨t, ht, _, hsyms⟩ := buildTree_of_input order hne
      obtain ⟨data, hdata⟩ := exists_encodeData_of_symbols hsyms
      rw [htree t data hne ht hdata]
      refine headerThen_accepted _ (compressed_putsBits data (resetBlock s) hne ht) ?_
      rw [SinkAccepts, (loadTree_sameWriter t 0 (resetBlock s)).snkAnswers]
      exact haccept
  obtain ⟨t, ht, htaccept⟩ := hbits
  obtain ⟨u, hu, hok⟩ := exec_wflush_accepted htaccept
  exact ⟨u, t, ht, hu, hok⟩

/-! ## COMPRESS leaves BR alone -/

/-- However a run ends, its state satisfies `P` (with how it ended). -/
def RunEnds (P : State → PipelineEnd → Prop) (r : PipelineRun) : Prop :=
  match r with
  | .next (t, e) => P t e
  | .fault _ => True
  | .refused _ => True

theorem runEnds_afterFinished {P : State → Prop} {r : PipelineRun} {k : State → PipelineRun}
    (h : RunEnds (fun t _ => P t) r) (hk : ∀ t, P t → RunEnds (fun t _ => P t) (k t)) :
    RunEnds (fun t _ => P t) (afterFinished r k) := by
  match r with
  | .next (t, .finished _) => exact hk t h
  | .next (t, .failed _ _) => exact h
  | .fault _ => trivial
  | .refused _ => trivial

/-- The commands of BW and TSER, all that COMPRESS issues (R120). -/
def IsWriterCommand (i : Instr) : Prop := (∃ b, i = .wbit b) ∨ i = .wflush ∨ i = .tser

theorem exec_sameReader_of_writer {i : Instr} {s t : State} (hi : IsWriterCommand i) (h : exec i s = .next t) :
    SameReader s t := by
  obtain ⟨b, rfl⟩ | rfl | rfl := hi
  · exact (exec_wbit_next h).frame.1
  · exact (exec_wflush_next h).frame.1
  · exact (exec_tser_next h).frame.1

theorem leaveWithFlush_sameReader {s : State} (why : PipelineFailure) {t : State} (h : SameReader s t) :
    RunEnds (fun t _ => SameReader s t) (leaveWithFlush why t) := by
  unfold leaveWithFlush
  split
  next u hu => exact h.trans (exec_sameReader_of_writer (.inr (.inl rfl)) hu)
  next => trivial
  next => trivial

theorem runExpansion_sameReader {cmds : List Instr} (hcmds : ∀ i ∈ cmds, IsWriterCommand i) {s u : State}
    {e : ExpansionEnd Bits} (h : runExpansion cmds s = .next (u, e)) : SameReader s u := by
  induction cmds generalizing s u e with
  | nil => cases h; exact ⟨rfl, rfl, rfl, rfl, rfl, rfl⟩
  | cons i rest ih =>
    obtain ⟨hi, hrest⟩ := List.forall_mem_cons.mp hcmds
    rw [runExpansion] at h
    split at h
    next t ht =>
      have hsame := exec_sameReader_of_writer hi ht
      split at h
      next =>
        cases hrun : runExpansion rest t with
        | next p =>
          obtain ⟨w, e'⟩ := p
          have htail := ih hrest hrun
          cases e' <;> rw [hrun] at h <;> cases h <;> exact hsame.trans htail
        | fault f => rw [hrun] at h; cases h
        | refused r => rw [hrun] at h; cases h
      next => cases h; exact hsame
    next => cases h
    next => cases h

theorem issueAll_sameReader {cmds : List Instr} (hcmds : ∀ i ∈ cmds, IsWriterCommand i) {s t : State}
    (h : SameReader s t) : RunEnds (fun t _ => SameReader s t) (issueAll cmds t) := by
  unfold issueAll
  split
  next u vs hu => exact h.trans (runExpansion_sameReader hcmds hu)
  next u code info hu => exact leaveWithFlush_sameReader _ (h.trans (runExpansion_sameReader hcmds hu))
  next => trivial
  next => trivial

theorem sinkAll_sameReader (bytes : List Byte) {s t : State} (h : SameReader s t) :
    RunEnds (fun t _ => SameReader s t) (sinkAll bytes t) := by
  induction bytes generalizing t with
  | nil => exact h
  | cons v rest ih =>
    have honly := snkWrite_onlyWriter v t
    rw [sinkAll]
    cases hw : snkWrite v t <;> rw [hw] at honly
    case done => exact ih (h.trans (OnlyWriter.sameReader honly))
    case raised => exact leaveWithFlush_sameReader _ (h.trans (OnlyWriter.sameReader honly))
    case stuck => trivial

theorem headerThen_sameReader (len : Nat) {cmds : List Instr} (hcmds : ∀ i ∈ cmds, IsWriterCommand i)
    (fails : Option (Nat × BitVec 32)) {s t : State} (h : SameReader s t) :
    RunEnds (fun t _ => SameReader s t) (headerThen len cmds fails t) := by
  refine runEnds_afterFinished (sinkAll_sameReader _ h) fun t1 h1 => ?_
  refine runEnds_afterFinished (issueAll_sameReader hcmds h1) fun t2 h2 => ?_
  split
  next => exact h2
  next => exact leaveWithFlush_sameReader _ h2

theorem isWriterCommand_pseudoWbits (bits : Bits) : ∀ i ∈ pseudoWbits bits, IsWriterCommand i := by
  intro i hi
  obtain ⟨b, _, rfl⟩ := List.mem_map.mp hi
  exact .inl ⟨b, rfl⟩

theorem compressBits_sameReader (order : MergeOrder) (policy : EmptyInputPolicy) {input : InputSource} (s : State)
    (hlen : input.bytes.length < 2 ^ 32) :
    RunEnds (fun t _ => SameReader (resetBlock s) t) (compressBits order policy input s) := by
  have hreset : SameReader (resetBlock s) (resetBlock s) := ⟨rfl, rfl, rfl, rfl, rfl, rfl⟩
  have hwbits := isWriterCommand_pseudoWbits
  rw [compressBits, if_neg (Nat.not_le.mpr hlen)]
  split
  next => exact leaveWithFlush_sameReader _ hreset
  next =>
    split
    next => exact headerThen_sameReader 0 (hwbits _) _ hreset
    next =>
      split
      next => exact leaveWithFlush_sameReader _ hreset
      next t _ =>
        split
        next => exact leaveWithFlush_sameReader _ hreset
        next =>
          exact headerThen_sameReader _ (List.forall_mem_cons.mpr ⟨.inr (.inr rfl), hwbits _⟩) _
            (loadTree_sameReader t 0 (resetBlock s))

theorem compress_sameReader (order : MergeOrder) (policy : EmptyInputPolicy) {input : InputSource} (s : State)
    (hlen : input.bytes.length < 2 ^ 32) :
    RunEnds (fun t _ => SameReader (resetBlock s) t) (compress order policy input s) :=
  runEnds_afterFinished (compressBits_sameReader order policy s hlen) fun _ h =>
    issueAll_sameReader (List.forall_mem_singleton.mpr (.inr (.inl rfl))) h

end Sys2Proof.Machine

namespace Sys2Proof
open Sys2Proof.Machine

/-- Settles O58: a run that is over has written its artifact (`CompressRunOver.written`); it is over exactly where COMPRESS
finishes, and wherever nothing it needs fails; BR is used by none of its commands. -/
theorem compressWritesTheArtifact : Obligations.CompressWritesTheArtifact := by
  intro order policy input s hlen
  refine ⟨fun u hover => ⟨compress_of_runOver hover, hover.written⟩, fun u out h => runOver_of_compress h,
    fun haccept hcount hencode => exists_compressRunOver order policy hlen haccept hcount hencode, fun u e h => ?_⟩
  have hreader := compress_sameReader order policy s hlen
  rwa [h] at hreader

end Sys2Proof
end

section
/-! SUPPORT. HOST reference: DECOMPRESS (43_host_pipelines.md R126 to R131), from any state and into any output: however it ends
it has used BR and TC alone, and when it finishes it has entered no fault and emitted as many bytes as its header says. -/

namespace Sys2Proof.Machine

/-! ## The bits held -/

/-- BR holds at most seven bits after each bit read, and a read that fails loads none (10_state.md R17). -/
theorem getBit_keeps_rcnt (s : State) (hs : s.rcnt.toNat ≤ 7) :
    ResHolds (fun t => t.rcnt.toNat ≤ 7) (fun _ => True) (fun _ => True) (getBit s) := by
  by_cases h0 : s.rcnt = 0#4
  · obtain ⟨v, hok, hv, _⟩ | ⟨_, e, hr⟩ | ⟨_, hr⟩ := srcRead_cases s
    · rw [getBit_loads h0 hok hv]
      exact Nat.le_refl 7
    · rw [getBit_load_raises h0 hr]
      exact ⟨hs, trivial⟩
    · rw [getBit, if_pos h0, hr]
      trivial
  · rw [getBit_held h0]
    show (s.rcnt - 1).toNat ≤ 7
    bv_omega

theorem rcnt_keptByTdes : KeptByTdes (fun t => t.rcnt.toNat ≤ 7) (fun _ => True) (fun _ => True) where
  getBit := getBit_keeps_rcnt
  claim _ hs := hs
  write _ _ _ _ hs := hs
  capacity := trivial

theorem exec_rbit_rcnt {s t : State} (h : exec .rbit s = .next t) (hs : s.rcnt.toNat ≤ 7) : t.rcnt.toNat ≤ 7 := by
  obtain ⟨u, hu, ⟨v, rfl⟩ | ⟨c, _, rfl⟩⟩ := finishCommand_next (getBit_keeps_rcnt s hs) h
  · exact hu
  · rwa [(enterFault_sameReader c u).rcnt]

theorem exec_tdes_rcnt {s t : State} (h : exec .tdes s = .next t) (hs : s.rcnt.toNat ≤ 7) : t.rcnt.toNat ≤ 7 := by
  obtain ⟨u, hu, rfl | ⟨c, _, rfl⟩⟩ :=
    finishTdes_next (desNode_keeps rcnt_keptByTdes traversalFuel (s := { s with tnodes := 0#10 }) hs) h
  · exact hu
  · rwa [(enterTreeFault_sameReader c u).rcnt]

/-! ## The pieces of DECOMPRESS -/

/-- From `s` to `t` BW has not been used, no fault was entered, and BR holds no more bits than it may. -/
structure CleanlyRead (s t : State) : Prop where
  writer : SameWriter s t
  sticky : SameSticky s t
  rcnt : s.rcnt.toNat ≤ 7 → t.rcnt.toNat ≤ 7

theorem CleanlyRead.refl (s : State) : CleanlyRead s s := ⟨⟨rfl, rfl, rfl, rfl, rfl⟩, ⟨rfl, rfl, rfl, rfl⟩, id⟩

theorem CleanlyRead.trans {s t u : State} (h1 : CleanlyRead s t) (h2 : CleanlyRead t u) : CleanlyRead s u :=
  ⟨h1.writer.trans h2.writer, h1.sticky.trans h2.sticky, h2.rcnt ∘ h1.rcnt⟩

/-- How a part of DECOMPRESS ends that makes `n` bytes: cleanly with those bytes, or with a failure; BW is not used. -/
def EndsWith (n : Nat) (s t : State) (e : PipelineEnd) : Prop :=
  match e with
  | .finished out => out.length = n ∧ CleanlyRead s t
  | .failed _ _ => SameWriter s t

theorem CleanlyRead.thenEndsWith {n : Nat} {s t u : State} {e : PipelineEnd} (h : CleanlyRead s t)
    (hu : EndsWith n t u e) : EndsWith n s u e := by
  match e with
  | .finished out => exact ⟨hu.1, h.trans hu.2⟩
  | .failed _ _ => exact h.writer.trans hu

theorem EndsWith.sameWriter {n : Nat} {s t : State} {e : PipelineEnd} (h : EndsWith n s t e) : SameWriter s t := by
  match e with
  | .finished out => exact h.2.writer
  | .failed _ _ => exact h

theorem exec_rbit_cleanlyRead {s t : State} (h : exec .rbit s = .next t) (hok : t.code = .ok) : CleanlyRead s t := by
  obtain ⟨hframe, _, _, _, hsame⟩ := exec_rbit_frame h
  exact ⟨hframe.writer, (hsame hok).1, exec_rbit_rcnt h⟩

theorem exec_tdes_cleanlyRead {s t : State} (h : exec .tdes s = .next t) (hok : t.code = .ok) : CleanlyRead s t := by
  obtain ⟨hframe, hsame⟩ := exec_tdes_frame h
  exact ⟨hframe.writer, (hsame hok).1, exec_tdes_rcnt h⟩

theorem sourceAll_endsWith {n : Nat} {acc : List Byte} {s t : State} {e : PipelineEnd}
    (h : sourceAll n acc s = .next (t, e)) : EndsWith (acc.length + n) s t e := by
  induction n generalizing acc s with
  | zero => cases h; exact ⟨rfl, CleanlyRead.refl _⟩
  | succ k ih =>
    rw [sourceAll] at h
    obtain ⟨v, _, _, hr⟩ | ⟨_, err, hr⟩ | ⟨_, hr⟩ := srcRead_cases s <;> rw [hr] at h
    · have hrest := ih h
      rw [List.length_append, List.length_singleton, Nat.add_assoc, Nat.add_comm 1 k] at hrest
      have hread : CleanlyRead s { s with spos := s.spos + 1, srcAnswers := s.srcAnswers.tail } :=
        ⟨⟨rfl, rfl, rfl, rfl, rfl⟩, ⟨rfl, rfl, rfl, rfl⟩, id⟩
      exact hread.thenEndsWith hrest
    · cases h
      exact ⟨rfl, rfl, rfl, rfl, rfl⟩
    · cases h

theorem decodeSymbol_endsWith {fuel : Nat} {i : Index} {s t : State} {e : PipelineEnd}
    (h : decodeSymbol fuel i s = .next (t, e)) : EndsWith 1 s t e := by
  induction fuel generalizing i s with
  | zero => cases h; exact (CleanlyRead.refl _).writer
  | succ n ih =>
    rw [decodeSymbol] at h
    split at h
    next => cases h; exact (CleanlyRead.refl _).writer
    next =>
      split at h
      next => cases h; exact ⟨rfl, CleanlyRead.refl _⟩
      next =>
        split at h
        next u hu =>
          split at h
          next hok => exact (exec_rbit_cleanlyRead hu hok).thenEndsWith (ih h)
          next => cases h; exact (exec_rbit_frame hu).1.writer
        next => cases h
        next => cases h

/-- A write to the output goes on with what follows it, or ends the run where the block stands. -/
theorem writeOutput_next {bytes : List Byte} {out : OutputSink} {s t : State} {k : OutputSink → PipelineRun}
    {e : PipelineEnd} (h : writeOutput bytes out s k = .next (t, e)) :
    (∃ more, k ⟨out.written ++ bytes, more⟩ = .next (t, e)) ∨ t = s ∧ ∃ written why, e = .failed written why := by
  induction bytes generalizing out with
  | nil => exact .inl ⟨out.answers, by rwa [List.append_nil]⟩
  | cons v rest ih =>
    rw [writeOutput] at h
    split at h
    next =>
      obtain ⟨more, hk⟩ | hend := ih h
      · exact .inl ⟨more, by rwa [List.append_assoc] at hk⟩
      · exact .inr hend
    next => cases h; exact .inr ⟨rfl, _, _, rfl⟩
    next => cases h

theorem decodeLoop_endsWith {n : Nat} {out : OutputSink} {s t : State} {e : PipelineEnd}
    (h : decodeLoop n out s = .next (t, e)) : EndsWith (out.written.length + n) s t e := by
  induction n generalizing out s with
  | zero => cases h; exact ⟨rfl, CleanlyRead.refl _⟩
  | succ k ih =>
    rw [decodeLoop] at h
    split at h
    next u sym hu =>
      obtain ⟨hlen, hclean⟩ := decodeSymbol_endsWith hu
      obtain ⟨more, hk⟩ | ⟨rfl, _, _, rfl⟩ := writeOutput_next h
      · have hrest := ih hk
        rw [List.length_append, hlen, Nat.add_assoc, Nat.add_comm 1 k] at hrest
        exact hclean.thenEndsWith hrest
      · exact hclean.writer
    next u _ _ hu => cases h; exact (decodeSymbol_endsWith hu).sameWriter
    next => cases h
    next => cases h

theorem decompressBody_endsWith {len : Nat} {out : OutputSink} {s t : State} {e : PipelineEnd}
    (h : decompressBody len out s = .next (t, e)) : EndsWith (out.written.length + len) s t e := by
  rw [decompressBody] at h
  split at h
  next u hu =>
    split at h
    next => cases h; exact (exec_tdes_frame hu).1.writer
    next hcode =>
      have hclean := exec_tdes_cleanlyRead hu (not_not.mp hcode)
      split at h
      next =>
        obtain ⟨more, hk⟩ | ⟨rfl, _, _, rfl⟩ := writeOutput_next h
        · cases hk
          exact ⟨by rw [List.length_append, List.length_replicate], hclean⟩
        · exact hclean.writer
      next => exact hclean.thenEndsWith (decodeLoop_endsWith h)
  next => cases h
  next => cases h

/-! ## DECOMPRESS -/

theorem exists_four {α : Type} {l : List α} (h : l.length = 4) : ∃ a b c d, l = [a, b, c, d] := by
  match l, h with
  | [a, b, c, d], _ => exact ⟨a, b, c, d, rfl⟩

/-- DECOMPRESS ends where its header ends if that cannot be read, else with the bytes its header counts. -/
theorem decompress_next {policy : EmptyInputPolicy} {answers : List Answer} {d v : State} {e : PipelineEnd}
    (h : decompress policy answers d = .next (v, e)) :
    SameWriter (resetBlock d) v ∧ ∀ out, e = .finished out →
      CleanlyRead (resetBlock d) v ∧ ∃ t h0 h1 h2 h3,
        sourceAll 4 [] (resetBlock d) = .next (t, .finished [h0, h1, h2, h3]) ∧ out.length = headerLength h0 h1 h2 h3 := by
  rw [decompress] at h
  split at h
  next t h0 h1 h2 h3 hheader =>
    obtain ⟨_, hclean⟩ := sourceAll_endsWith hheader
    split at h
    next hempty =>
      cases h
      exact ⟨hclean.writer, fun out hout => ⟨hclean, _, h0, h1, h2, h3, hheader, by cases hout; exact hempty.1.symm⟩⟩
    next =>
      have hends := hclean.thenEndsWith (decompressBody_endsWith h)
      refine ⟨hends.sameWriter, fun out hout => ?_⟩
      subst hout
      obtain ⟨hlen, hread⟩ := hends
      exact ⟨hread, t, h0, h1, h2, h3, hheader, hlen.trans (Nat.zero_add _)⟩
  next t e' hnot hheader =>
    cases h
    have hends := sourceAll_endsWith hheader
    refine ⟨hends.sameWriter, fun out hout => ?_⟩
    subst hout
    obtain ⟨h0, h1, h2, h3, rfl⟩ := exists_four hends.1
    exact absurd rfl (hnot h0 h1 h2 h3)
  next => cases h
  next => cases h

/-- A run that finishes is over, on a clean block that holds at most seven bits (70_reset_and_hazards.md R204). -/
theorem decompressRunOver_of_finished {policy : EmptyInputPolicy} {answers : List Answer} {d v : State} {out : List Byte}
    (h : decompress policy answers d = .next (v, .finished out)) :
    DecompressRunOver policy answers d v out ∧ NoFault v = true ∧ v.rcnt.toNat ≤ 7 := by
  obtain ⟨hclean, hemitted⟩ := (decompress_next h).2 out rfl
  obtain ⟨_, ⟨hw, hr, ht, hc⟩, hrcnt⟩ := hclean
  exact ⟨⟨h, hemitted⟩, by simp [NoFault, hw, hr, ht, hc], hrcnt (Nat.zero_le 7)⟩

end Sys2Proof.Machine
end

section
/-! SUPPORT. HOST reference: what DECOMPRESS makes of an artifact, whole or truncated (43_host_pipelines.md R128 to R132). -/

namespace Sys2Proof.Machine

/-- BR delivers exactly these bits, and then the source ends (10_state.md R17; 41_bitreader.md R93). -/
structure Delivers (s : State) (bits : Bits) : Prop where
  source : SourceDelivers s
  rcnt : s.rcnt.toNat ≤ 8
  stream : streamBits s = bits

/-! ## The header -/

theorem srcRead_delivers {s : State} {v : Byte} {rest : List Byte} (hd : SourceDelivers s)
    (h : s.src.drop s.spos = v :: rest) :
    srcRead s = .done v { s with spos := s.spos + 1, srcAnswers := s.srcAnswers.tail } := by
  have hv : s.src[s.spos]? = some v := by rw [← List.head?_drop, h, List.head?_cons]
  rw [srcRead, nextAnswer_of_all_ok hd, hv]

theorem srcRead_exhausted {s : State} (hd : SourceDelivers s) (h : s.src.drop s.spos = []) :
    srcRead s = .raised (.sourceError Config.eEos) { s with srcAnswers := s.srcAnswers.tail } := by
  have hv : s.src[s.spos]? = none := by rw [← List.head?_drop, h, List.head?_nil]
  rw [srcRead, nextAnswer_of_all_ok hd, hv]

theorem drop_succ_of_drop_eq_cons {α : Type} {l rest : List α} {i : Nat} {a : α} (h : l.drop i = a :: rest) :
    l.drop (i + 1) = rest := by
  rw [← List.tail_drop, h, List.tail_cons]

theorem sourceAll_delivers {bytes rest acc : List Byte} {s : State} (hd : SourceDelivers s)
    (h : s.src.drop s.spos = bytes ++ rest) :
    ∃ t, sourceAll bytes.length acc s = .next (t, .finished (acc ++ bytes)) ∧ t.src.drop t.spos = rest ∧
      SourceDelivers t ∧ t.rcnt = s.rcnt := by
  induction bytes generalizing acc s with
  | nil => exact ⟨s, by rw [List.append_nil]; rfl, h, hd, rfl⟩
  | cons v more ih =>
    obtain ⟨t, ht, hrest, hdt, hrcnt⟩ := ih (acc := acc ++ [v])
      (s := { s with spos := s.spos + 1, srcAnswers := s.srcAnswers.tail })
      (fun a ha => hd a (List.mem_of_mem_tail ha)) (drop_succ_of_drop_eq_cons h)
    refine ⟨t, ?_, hrest, hdt, hrcnt⟩
    rw [List.length_cons, sourceAll, srcRead_delivers hd h]
    exact ht.trans (by rw [List.append_assoc, List.singleton_append])

theorem sourceAll_short {n : Nat} {acc : List Byte} {s : State} (hd : SourceDelivers s)
    (h : (s.src.drop s.spos).length < n) : ∃ t why, sourceAll n acc s = .next (t, .failed [] why) := by
  induction n generalizing acc s with
  | zero => exact absurd h (Nat.not_lt_zero _)
  | succ k ih =>
    rw [sourceAll]
    cases hdrop : s.src.drop s.spos with
    | nil =>
      rw [srcRead_exhausted hd hdrop]
      exact ⟨_, _, rfl⟩
    | cons v rest =>
      rw [srcRead_delivers hd hdrop]
      refine ih (fun a ha => hd a (List.mem_of_mem_tail ha)) ?_
      rw [hdrop, List.length_cons] at h
      exact (congrArg List.length (drop_succ_of_drop_eq_cons hdrop)).trans_lt (Nat.lt_of_succ_lt_succ h)

/-- The header's four bytes give back the length, which is less than `2^32` (43_host_pipelines.md R122, R128). -/
theorem headerLength_headerBytes {len : Nat} (h : len < 2 ^ 32) :
    headerLength (BitVec.ofNat 8 len) (BitVec.ofNat 8 (len / 256)) (BitVec.ofNat 8 (len / 65536))
      (BitVec.ofNat 8 (len / 16777216)) = len := by
  simp only [headerLength, BitVec.toNat_ofNat]
  omega

/-- With a header in front of it, DECOMPRESS's body runs on the bits of the rest of the source. -/
theorem decompress_of_header {policy : EmptyInputPolicy} {answers : List Answer} {d : State} {len : Nat} {rest : List Byte}
    (hd : SourceDelivers d) (hlen : len < 2 ^ 32) (h : d.src.drop d.spos = headerBytes len ++ rest) :
    ∃ s, Delivers s (unpack rest) ∧ decompress policy answers d =
      if len = 0 ∧ policy.deserialize = false then .next (s, .finished []) else decompressBody len ⟨[], answers⟩ s := by
  obtain ⟨s, hs, hrest, hds, hrcnt⟩ := sourceAll_delivers (acc := []) (s := resetBlock d) hd h
  have hnone : s.rcnt = 0#4 := hrcnt
  refine ⟨s, ⟨hds, by rw [hnone]; decide, by rw [streamBits_nil_held hnone, hrest]⟩, ?_⟩
  have hheader : sourceAll 4 [] (resetBlock d) = .next (s, .finished [BitVec.ofNat 8 len, BitVec.ofNat 8 (len / 256),
    BitVec.ofNat 8 (len / 65536), BitVec.ofNat 8 (len / 16777216)]) := hs
  rw [decompress, hheader]
  simp only [headerLength_headerBytes hlen]

theorem decompress_of_nonempty {policy : EmptyInputPolicy} {answers : List Answer} {d : State} {input rest : List Byte}
    (hne : input ≠ []) (hd : SourceDelivers d) (hlen : input.length < 2 ^ 32)
    (h : d.src.drop d.spos = headerBytes input.length ++ rest) :
    ∃ s, Delivers s (unpack rest) ∧ decompress policy answers d = decompressBody input.length ⟨[], answers⟩ s := by
  obtain ⟨s, hs, hrun⟩ := decompress_of_header (policy := policy) (answers := answers) hd hlen h
  rw [if_neg fun h0 => hne (List.eq_nil_of_length_eq_zero h0.1)] at hrun
  exact ⟨s, hs, hrun⟩

/-- A source without a whole header ends DECOMPRESS with nothing written. -/
theorem decompress_of_short {policy : EmptyInputPolicy} {answers : List Answer} {d : State} (hd : SourceDelivers d)
    (h : (d.src.drop d.spos).length < 4) : ∃ v why, decompress policy answers d = .next (v, .failed [] why) := by
  obtain ⟨v, why, hheader⟩ := sourceAll_short (acc := []) (s := resetBlock d) hd h
  exact ⟨v, why, by rw [decompress, hheader]⟩

/-! ## TDES -/

theorem sourceDelivers_keptByTdes : KeptByTdes SourceDelivers (fun _ => True) (fun _ => False) where
  getBit s hs := by
    refine getBit_keeps_of_srcRead (fun _ _ _ _ ht => ht) ?_ hs
    obtain ⟨v, _, _, hr⟩ | ⟨_, e, hr⟩ | ⟨hnever, _⟩ := srcRead_cases s
    · rw [hr]; exact fun a ha => hs a (List.mem_of_mem_tail ha)
    · rw [hr]; exact ⟨fun a ha => hs a (List.mem_of_mem_tail ha), trivial⟩
    · cases hnever.symm.trans (nextAnswer_of_all_ok hs)
  claim _ hs := hs
  write _ _ _ _ hs := hs
  capacity := trivial

/-- Bits that end before a tree does make TDES complete with a fault. -/
theorem exec_tdes_faults {s : State} {bits : Bits} (h : Delivers s bits) (hdes : des bits = none) :
    ∃ u, exec .tdes s = .next u ∧ u.code ≠ .ok := by
  obtain ⟨hd, hc, hstream⟩ := h
  have hnot := desNode_not_done (s := { s with tnodes := 0#10 }) (n := traversalFuel) hd hc (hstream ▸ hdes)
    (Nat.le_refl _) (Nat.zero_le _)
  have hends := desNode_keeps sourceDelivers_keptByTdes traversalFuel (s := { s with tnodes := 0#10 }) hd
  cases hrun : desNode traversalFuel { s with tnodes := 0#10 } with
  | done i u => exact absurd hrun (hnot i u)
  | raised c u =>
    refine ⟨_, exec_tdes_of_raised hrun, ?_⟩
    rw [(enterTreeFault_completedFault c u).code]
    exact causeCode_ne_ok c
  | stuck f => rw [hrun] at hends; exact hends.elim

/-- TDES puts the tree its bits begin with into TMEM, and leaves the bits after it. -/
theorem exec_tdes_delivers {t : Tree} {rest : Bits} {s : State} (h : Delivers s (ser t ++ rest))
    (hcap : treeNodes t ≤ Config.nodeCap) :
    ∃ u, exec .tdes s = .next u ∧ u.code = .ok ∧ HoldsAt u (treePlaceholder t) Config.root = true ∧ Delivers u rest := by
  obtain ⟨hd, hc, hstream⟩ := h
  obtain ⟨u, hexec, hreads⟩ := exec_tdes_reads hd hc hstream hcap
  exact ⟨_, hexec, rfl, (holdsTree_iff.mp (hreads.holdsTree hcap)).1, hreads.delivers, hreads.rcnt, hreads.stream⟩

/-! ## One symbol -/

theorem holdsAt_sameTree (t : Tree) {s u : State} {i : Index} (h : SameTree s u) : HoldsAt u t i = HoldsAt s t i := by
  have h0 : ∀ j, entryWord0 u j = entryWord0 s j := fun j => h.reads _
  have h1 : ∀ j, entryWord1 u j = entryWord1 s j := fun j => h.reads _
  induction t generalizing i with
  | leaf sym f => simp only [HoldsAt, entryTag, entrySym, entryFreq, h0, h1]
  | internal f l r ihl ihr => simp only [HoldsAt, entryTag, entryFreq, entryLeft, entryRight, h0, h1, ihl, ihr]

/-- An RBIT where a bit is left takes it. -/
theorem exec_rbit_delivers {b : Bool} {rest : Bits} {s : State} (h : Delivers s (b :: rest)) :
    ∃ u, exec .rbit s = .next u ∧ u.code = .ok ∧ u.value = b ∧ Delivers u rest ∧ SameTree s u := by
  obtain ⟨hd, hc, hstream⟩ := h
  obtain ⟨u, hu, hrest, hdu, hcu, _, honly⟩ := getBit_delivers hd hc hstream
  exact ⟨_, exec_rbit_of_done hu, rfl, rfl, ⟨hdu, hcu, hrest⟩, honly.sameTree.trans (completeOk_sameTree b u)⟩

theorem exec_rbit_exhausted {s : State} (h : Delivers s []) : ∃ u, exec .rbit s = .next u ∧ u.code ≠ .ok := by
  obtain ⟨u, hu, _⟩ := getBit_exhausted h.source h.stream
  refine ⟨_, exec_rbit_of_raised hu, ?_⟩
  rw [(enterFault_completedFault _ u).code]
  exact causeCode_ne_ok _

/-- How the walk to a symbol ends: as the tree's own walk by the bits does (43_host_pipelines.md R131). -/
def EndsAsWalk (walk : Option (BitVec 8 × Bits)) (s u : State) (e : PipelineEnd) : Prop :=
  match walk with
  | some (sym, rest) => e = .finished [sym] ∧ Delivers u rest ∧ SameTree s u
  | none => ∃ why, e = .failed [] why

theorem EndsAsWalk.of_sameTree {walk : Option (BitVec 8 × Bits)} {s t u : State} {e : PipelineEnd} (h : SameTree s t)
    (hu : EndsAsWalk walk t u e) : EndsAsWalk walk s u e := by
  match walk with
  | some (sym, rest) => exact ⟨hu.1, hu.2.1, h.trans hu.2.2⟩
  | none => exact hu

theorem decodeSymbol_walks {t : Tree} {fuel : Nat} {i : Index} {s : State} {bits : Bits} (hholds : HoldsAt s t i = true)
    (hfuel : treeNodes t ≤ fuel) (h : Delivers s bits) :
    ∃ u e, decodeSymbol fuel i s = .next (u, e) ∧ EndsAsWalk (walkTree t bits) s u e := by
  induction fuel generalizing t i s bits with
  | zero => exact absurd hfuel (Nat.not_le.mpr (treeNodes_pos t))
  | succ n ih =>
    cases t with
    | leaf sym f =>
      obtain ⟨hnil, htag, hsym, _⟩ := holdsAt_leaf_iff.mp hholds
      refine ⟨s, .finished [sym], ?_, rfl, h, rfl, rfl, rfl, fun _ => rfl⟩
      rw [decodeSymbol, if_neg hnil, if_pos htag, hsym]
    | internal f l r =>
      obtain ⟨hnil, htag, _, hleft, hright⟩ := holdsAt_internal_iff.mp hholds
      simp only [treeNodes] at hfuel
      simp only [decodeSymbol, if_neg hnil, htag, Bool.false_eq_true, if_false]
      match bits with
      | [] =>
        obtain ⟨u, hu, hcode⟩ := exec_rbit_exhausted h
        simp only [hu, if_neg hcode]
        exact ⟨_, _, rfl, _, rfl⟩
      | b :: rest =>
        obtain ⟨u, hu, hok, hvalue, hrest, hsame⟩ := exec_rbit_delivers h
        simp only [hu, if_pos hok, hvalue]
        match b with
        | false =>
          obtain ⟨v, e, hv, hend⟩ := ih (t := l) (i := entryLeft u i) (s := u) (by
            rw [holdsAt_sameTree l hsame, entryLeft, entryWord0, hsame.reads]
            exact hleft) (by omega) hrest
          exact ⟨v, e, hv, hend.of_sameTree hsame⟩
        | true =>
          obtain ⟨v, e, hv, hend⟩ := ih (t := r) (i := entryRight u i) (s := u) (by
            rw [holdsAt_sameTree r hsame, entryRight, entryWord0, hsame.reads]
            exact hright) (by omega) hrest
          exact ⟨v, e, hv, hend.of_sameTree hsame⟩

/-- A walk reads no frequency. -/
theorem walkTree_placeholder (t : Tree) (bits : Bits) : walkTree (treePlaceholder t) bits = walkTree t bits := by
  induction t generalizing bits with
  | leaf sym f => rfl
  | internal f l r ihl ihr =>
    match bits with
    | [] => rfl
    | false :: rest => exact ihl rest
    | true :: rest => exact ihr rest

/-- A walk that reached a Leaf does not look at the bits after it. -/
theorem walkTree_append {t : Tree} {bits rest : Bits} {sym : BitVec 8} (h : walkTree t bits = some (sym, rest))
    (more : Bits) : walkTree t (bits ++ more) = some (sym, rest ++ more) := by
  induction t generalizing bits with
  | leaf s f => cases h; rfl
  | internal f l r ihl ihr =>
    match bits with
    | false :: tail => exact ihl h
    | true :: tail => exact ihr h

/-- Bits that end inside a symbol's code lead to no Leaf. -/
theorem walkTree_of_lt_code {f : Nat} {l r : Tree} {sym : BitVec 8} {code bits : Bits}
    (hcode : codeOf (extractCodes (.internal f l r)) sym = some code) (hprefix : bits <+: code) (hne : ¬ code <+: bits) :
    walkTree (.internal f l r) bits = none := by
  obtain ⟨more, rfl⟩ := hprefix
  cases hwalk : walkTree (.internal f l r) bits with
  | none => rfl
  | some p =>
    obtain ⟨y, rest⟩ := p
    have hwhole := walkTree_of_codeOf hcode []
    rw [List.append_nil, walkTree_append hwalk more] at hwhole
    obtain ⟨_, hnil⟩ := Prod.mk.inj (Option.some.inj hwhole)
    rw [(List.append_eq_nil_iff.mp hnil).2, List.append_nil] at hne
    exact absurd List.prefix_rfl hne

/-! ## The output -/

/-- The output's next `n` writes are accepted. -/
def AcceptsNext (n : Nat) (answers : List Answer) : Prop := ∀ i < n, nextAnswer (answers.drop i) = .ok

theorem acceptsNext_of_outputAccepts {answers : List Answer} (h : OutputAccepts answers) (n : Nat) :
    AcceptsNext n answers := fun _ _ => nextAnswer_of_all_ok fun a ha => h a (List.mem_of_mem_drop ha)

theorem acceptsNext_replicate (n : Nat) (rest : List Answer) : AcceptsNext n (List.replicate n .ok ++ rest) := by
  intro i hi
  have hdrop : (List.replicate n Answer.ok ++ rest).drop i = List.replicate (n - i) .ok ++ rest := by
    rw [List.drop_append_of_le_length (by rw [List.length_replicate]; exact hi.le), List.drop_replicate]
  obtain ⟨m, hm⟩ := Nat.exists_eq_succ_of_ne_zero (Nat.sub_ne_zero_of_lt hi)
  rw [hdrop, hm, List.replicate_succ]
  rfl

theorem acceptsNext_succ {n : Nat} {answers : List Answer} (h : AcceptsNext (n + 1) answers) :
    nextAnswer answers = .ok ∧ AcceptsNext n answers.tail :=
  ⟨h 0 n.succ_pos, fun i hi => by rw [List.drop_tail]; exact h (i + 1) (Nat.succ_lt_succ hi)⟩

/-- Accepted bytes are written, and their answers are taken. -/
theorem writeOutput_append (before after : List Byte) {out : OutputSink} (s : State) (k : OutputSink → PipelineRun)
    (h : AcceptsNext before.length out.answers) :
    writeOutput (before ++ after) out s k
      = writeOutput after ⟨out.written ++ before, out.answers.drop before.length⟩ s k := by
  induction before generalizing out with
  | nil => rw [List.append_nil]; rfl
  | cons v rest ih =>
    obtain ⟨hok, htail⟩ := acceptsNext_succ h
    rw [List.cons_append, writeOutput, hok]
    exact (ih htail).trans (by rw [List.append_assoc, List.singleton_append, List.drop_tail]; rfl)

/-! ## The decode loop -/

/-- The data bits of two inputs, one after the other. -/
theorem encodeData_append {lookup : BitVec 8 → Option Bits} {before after : List Byte} {data : Bits} :
    encodeData lookup (before ++ after) = some data ↔ ∃ first second, encodeData lookup before = some first ∧
      encodeData lookup after = some second ∧ data = first ++ second := by
  induction before generalizing data with
  | nil => simp [encodeData, eq_comm]
  | cons x xs ih =>
    rw [List.cons_append, encodeData_cons]
    constructor
    · rintro ⟨code, more, hcode, hmore, rfl⟩
      obtain ⟨first, second, hfirst, hsecond, rfl⟩ := ih.mp hmore
      exact ⟨code ++ first, second, encodeData_cons.mpr ⟨code, first, hcode, hfirst, rfl⟩, hsecond,
        (List.append_assoc _ _ _).symm⟩
    · rintro ⟨first, second, hfirst, hsecond, rfl⟩
      obtain ⟨code, more, hcode, hmore, rfl⟩ := encodeData_cons.mp hfirst
      exact ⟨code, more ++ second, hcode, ih.mpr ⟨more, second, hmore, hsecond, rfl⟩, List.append_assoc _ _ _⟩

/-- The loop stands before the next symbol: TMEM holds the tree of an artifact, and BR delivers these bits. -/
structure ReadyToDecode (t : Tree) (s : State) (bits : Bits) : Prop where
  holds : HoldsAt s (treePlaceholder t) Config.root = true
  fits : treeNodes t ≤ Config.nodeCap
  delivers : Delivers s bits

theorem ReadyToDecode.walks {t : Tree} {s : State} {bits : Bits} (h : ReadyToDecode t s bits) :
    ∃ u e, decodeSymbol (Config.nodeCap + 1) Config.root s = .next (u, e) ∧ EndsAsWalk (walkTree t bits) s u e := by
  obtain ⟨u, e, hu, hend⟩ := decodeSymbol_walks h.holds
    ((treeNodes_placeholder t).trans_le (h.fits.trans (Nat.le_succ _))) h.delivers
  rw [walkTree_placeholder] at hend
  exact ⟨u, e, hu, hend⟩

section
variable {f : Nat} {l r : Tree}

/-- A symbol whose code BR delivers next is decoded and written. -/
theorem decodeLoop_of_code {s : State} {sym : BitVec 8} {code rest : Bits}
    (h : ReadyToDecode (.internal f l r) s (code ++ rest))
    (hcode : codeOf (extractCodes (.internal f l r)) sym = some code) :
    ∃ u, ReadyToDecode (.internal f l r) u rest ∧
      ∀ n out, decodeLoop (n + 1) out s = writeOutput [sym] out u fun more => decodeLoop n more u := by
  obtain ⟨u, e, hu, hend⟩ := h.walks
  rw [walkTree_of_codeOf hcode] at hend
  obtain ⟨rfl, hrest, hsame⟩ := hend
  exact ⟨u, ⟨(holdsAt_sameTree _ hsame).trans h.holds, h.fits, hrest⟩, fun n out => by rw [decodeLoop, hu]⟩

/-- A symbol whose code is cut short ends the loop, what was written before it still written. -/
theorem decodeLoop_of_cut {s : State} {sym : BitVec 8} {code bits : Bits}
    (h : ReadyToDecode (.internal f l r) s bits)
    (hcode : codeOf (extractCodes (.internal f l r)) sym = some code) (hprefix : bits <+: code) (hne : ¬ code <+: bits)
    (n : Nat) (out : OutputSink) : ∃ u why, decodeLoop (n + 1) out s = .next (u, .failed out.written why) := by
  obtain ⟨u, e, hu, hend⟩ := h.walks
  rw [walkTree_of_lt_code hcode hprefix hne] at hend
  obtain ⟨why, rfl⟩ := hend
  exact ⟨u, why, by rw [decodeLoop, hu]⟩

/-- Symbols whose codes are delivered and whose writes are accepted are decoded, and the loop goes on. -/
theorem decodeLoop_of_data {before : List Byte} {data rest : Bits} {s : State} {out : OutputSink}
    (h : ReadyToDecode (.internal f l r) s (data ++ rest))
    (hdata : encodeData (codeOf (extractCodes (.internal f l r))) before = some data)
    (haccept : AcceptsNext before.length out.answers) :
    ∃ u, ReadyToDecode (.internal f l r) u rest ∧ ∀ n, decodeLoop (before.length + n) out s =
      decodeLoop n ⟨out.written ++ before, out.answers.drop before.length⟩ u := by
  induction before generalizing data s out with
  | nil =>
    cases hdata
    exact ⟨s, h, fun n => by rw [List.append_nil, List.length_nil, Nat.zero_add]; rfl⟩
  | cons x xs ih =>
    obtain ⟨code, more, hcode, hmore, rfl⟩ := encodeData_cons.mp hdata
    rw [List.append_assoc] at h
    obtain ⟨u, hu, hloop⟩ := decodeLoop_of_code h hcode
    obtain ⟨hok, htail⟩ := acceptsNext_succ haccept
    obtain ⟨v, hv, hrest⟩ := ih (out := ⟨out.written ++ [x], out.answers.tail⟩) hu hmore htail
    refine ⟨v, hv, fun n => ?_⟩
    rw [List.length_cons, Nat.add_right_comm, hloop, writeOutput, hok]
    exact (hrest n).trans (by rw [List.append_assoc, List.singleton_append, List.drop_tail])

/-- The output of a run on truncated bits: an initial part of the input, with every symbol whose bits are there. -/
def DecodesInitialPart (lookup : BitVec 8 → Option Bits) (input : List Byte) (bits : Bits) (output : List Byte) : Prop :=
  output <+: input ∧ ∀ k data, k ≤ input.length → encodeData lookup (input.take k) = some data → data <+: bits →
    k ≤ output.length

theorem decodesInitialPart_nil {lookup : BitVec 8 → Option Bits} {x : Byte} {input : List Byte} {code bits : Bits}
    (hcode : lookup x = some code) (hne : ¬ code <+: bits) : DecodesInitialPart lookup (x :: input) bits [] := by
  refine ⟨List.nil_prefix, fun k data _ hdata hprefix => ?_⟩
  match k with
  | 0 => exact Nat.le_refl 0
  | k + 1 =>
    obtain ⟨code', more, hcode', _, rfl⟩ := encodeData_cons.mp hdata
    obtain rfl := Option.some.inj (hcode.symm.trans hcode')
    exact absurd ((List.prefix_append _ more).trans hprefix) hne

theorem DecodesInitialPart.cons {lookup : BitVec 8 → Option Bits} {x : Byte} {input output : List Byte} {code bits : Bits}
    (hcode : lookup x = some code) (h : DecodesInitialPart lookup input bits output) :
    DecodesInitialPart lookup (x :: input) (code ++ bits) (x :: output) := by
  obtain ⟨hprefix, hall⟩ := h
  refine ⟨List.cons_prefix_cons.mpr ⟨rfl, hprefix⟩, fun k data hk hdata hbits => ?_⟩
  match k with
  | 0 => exact Nat.zero_le _
  | k + 1 =>
    obtain ⟨code', more, hcode', hmore, rfl⟩ := encodeData_cons.mp hdata
    obtain rfl := Option.some.inj (hcode.symm.trans hcode')
    exact Nat.succ_le_succ (hall k more (Nat.le_of_succ_le_succ hk) hmore ((List.prefix_append_right_inj _).mp hbits))

theorem decodeLoop_of_truncated {input : List Byte} {data pad bits : Bits} {s : State} {out : OutputSink}
    (h : ReadyToDecode (.internal f l r) s bits)
    (hdata : encodeData (codeOf (extractCodes (.internal f l r))) input = some data) (hbits : bits <+: data ++ pad)
    (haccept : OutputAccepts out.answers) :
    ∃ v e output, decodeLoop input.length out s = .next (v, e) ∧ outputOf e = out.written ++ output ∧
      DecodesInitialPart (codeOf (extractCodes (.internal f l r))) input bits output := by
  induction input generalizing data bits s out with
  | nil => exact ⟨s, _, [], rfl, (List.append_nil _).symm, List.prefix_rfl, fun k _ hk _ _ => hk⟩
  | cons x xs ih =>
    obtain ⟨code, more, hcode, hmore, rfl⟩ := encodeData_cons.mp hdata
    rw [List.append_assoc] at hbits
    by_cases hwhole : code <+: bits
    · obtain ⟨tail, rfl⟩ := hwhole
      obtain ⟨u, hu, hloop⟩ := decodeLoop_of_code h hcode
      obtain ⟨answers, hwrite, hanswers⟩ := writeOutput_accepted [x] u (fun more => decodeLoop xs.length more u) haccept
      obtain ⟨v, e, output, hv, hout, hpart⟩ := ih (out := ⟨out.written ++ [x], answers⟩) hu hmore
        ((List.prefix_append_right_inj _).mp hbits) hanswers
      refine ⟨v, e, x :: output, ?_, by rw [hout, List.append_assoc, List.singleton_append], hpart.cons hcode⟩
      rw [List.length_cons, hloop, hwrite, hv]
    · have hcut : bits <+: code :=
        (List.prefix_or_prefix_of_prefix hbits (List.prefix_append code _)).resolve_right hwhole
      obtain ⟨u, why, hu⟩ := decodeLoop_of_cut h hcode hcut hwhole xs.length out
      exact ⟨u, _, [], hu, (List.append_nil _).symm, decodesInitialPart_nil hcode hwhole⟩

end

/-! ## The body -/

theorem decompressBody_of_leaf {sym : BitVec 8} {f : Nat} {rest : Bits} {s : State}
    (h : Delivers s (ser (.leaf sym f) ++ rest)) :
    ∃ u, ∀ len out, decompressBody len out s =
      writeOutput (List.replicate len sym) out u fun more => .next (u, .finished more.written) := by
  obtain ⟨u, hu, hok, hholds, _⟩ := exec_tdes_delivers h (by simp only [treeNodes, Config.nodeCap]; omega)
  obtain ⟨_, htag, hsym, _⟩ := holdsAt_leaf_iff.mp hholds
  exact ⟨u, fun len out => by rw [decompressBody, hu]; simp only [hok, htag, hsym, ne_eq, not_true_eq_false, if_true, if_false]⟩

/-- Under a single Leaf the input is its symbol, as often as the header says (43_host_pipelines.md R130). -/
theorem decompressBody_of_leaf_accepted {sym : BitVec 8} {f : Nat} {rest : Bits} {s : State} {input : List Byte}
    {answers : List Answer} (h : Delivers s (ser (.leaf sym f) ++ rest))
    (hinput : ∀ x ∈ input, x ∈ treeSymbols (.leaf sym f)) (haccept : OutputAccepts answers) :
    ∃ u, decompressBody input.length ⟨[], answers⟩ s = .next (u, .finished input) := by
  obtain ⟨u, hbody⟩ := decompressBody_of_leaf h
  obtain ⟨_, hwrite, _⟩ := writeOutput_accepted (out := ⟨[], answers⟩) input u
    (fun more => .next (u, .finished more.written)) haccept
  refine ⟨u, ?_⟩
  rw [hbody, ← eq_replicate_of_leaf hinput, hwrite]
  rfl

theorem decompressBody_of_internal {f : Nat} {l r : Tree} {rest : Bits} {s : State}
    (h : Delivers s (ser (.internal f l r) ++ rest)) (hcap : treeNodes (.internal f l r) ≤ Config.nodeCap) :
    ∃ u, ReadyToDecode (.internal f l r) u rest ∧ ∀ len out, decompressBody len out s = decodeLoop len out u := by
  obtain ⟨u, hu, hok, hholds, hrest⟩ := exec_tdes_delivers h hcap
  obtain ⟨_, htag, _⟩ := holdsAt_internal_iff.mp hholds
  refine ⟨u, ⟨hholds, hcap, hrest⟩, fun len out => ?_⟩
  rw [decompressBody, hu]
  simp only [hok, htag, ne_eq, not_true_eq_false, Bool.false_eq_true, if_false]

theorem decompressBody_of_cut {bits : Bits} {s : State} (h : Delivers s bits) (hdes : des bits = none) (len : Nat)
    (out : OutputSink) : ∃ u why, decompressBody len out s = .next (u, .failed out.written why) := by
  obtain ⟨u, hu, hcode⟩ := exec_tdes_faults h hdes
  exact ⟨u, _, by rw [decompressBody, hu]; exact if_pos hcode⟩

section
variable {t : Tree} {input : List Byte} {data : Bits} (hcap : treeNodes t ≤ Config.nodeCap)
  (hdata : encodeData (codeOf (extractCodes t)) input = some data)
include hcap hdata

/-- Of a whole artifact's bits, into an output that accepts, the body makes the input (43_host_pipelines.md R132). -/
theorem decompressBody_of_whole {pad : Bits} {s : State} {answers : List Answer} (h : Delivers s (ser t ++ (data ++ pad)))
    (haccept : OutputAccepts answers) :
    ∃ u, decompressBody input.length ⟨[], answers⟩ s = .next (u, .finished input) := by
  cases t with
  | leaf sym f => exact decompressBody_of_leaf_accepted h (mem_treeSymbols_of_encodeData hdata) haccept
  | internal f l r =>
    have hnext := acceptsNext_of_outputAccepts haccept input.length
    obtain ⟨u, hu, hbody⟩ := decompressBody_of_internal h hcap
    obtain ⟨v, _, hloop⟩ := decodeLoop_of_data (out := ⟨[], answers⟩) hu hdata hnext
    exact ⟨v, (hbody _ _).trans (hloop 0)⟩

/-- Where the writes before one symbol of the input are accepted, that symbol's write comes next. -/
theorem decompressBody_offers {before after : List Byte} {x : Byte} {pad : Bits} {s : State} {answers : List Answer}
    (h : Delivers s (ser t ++ (data ++ pad))) (hinput : input = before ++ x :: after)
    (haccept : AcceptsNext before.length answers) :
    ∃ u later cont, decompressBody input.length ⟨[], answers⟩ s =
      writeOutput (x :: later) ⟨before, answers.drop before.length⟩ u cont := by
  cases t with
  | leaf sym f =>
    obtain ⟨u, hbody⟩ := decompressBody_of_leaf h
    refine ⟨u, after, fun more => .next (u, .finished more.written), ?_⟩
    rw [hbody, ← eq_replicate_of_leaf (mem_treeSymbols_of_encodeData hdata), hinput]
    exact writeOutput_append before (x :: after) (out := ⟨[], answers⟩) u _ haccept
  | internal f l r =>
    subst hinput
    obtain ⟨first, second, hfirst, hsecond, rfl⟩ := encodeData_append.mp hdata
    obtain ⟨code, more, hcode, _, rfl⟩ := encodeData_cons.mp hsecond
    obtain ⟨u, hu, hbody⟩ := decompressBody_of_internal h hcap
    rw [List.append_assoc] at hu
    obtain ⟨v, hv, hloop⟩ := decodeLoop_of_data (out := ⟨[], answers⟩) hu hfirst haccept
    rw [List.append_assoc] at hv
    obtain ⟨w, _, hnext⟩ := decodeLoop_of_code hv hcode
    refine ⟨w, [], fun more => decodeLoop after.length more w, ?_⟩
    rw [hbody, List.length_append, hloop, List.length_cons, hnext, List.nil_append]

/-- Of truncated bits the body writes what it can, and ends. -/
theorem decompressBody_of_truncated {pad bits : Bits} {s : State} {answers : List Answer} (h : Delivers s bits)
    (hbits : bits <+: ser t ++ (data ++ pad)) (haccept : OutputAccepts answers) :
    ∃ v e, decompressBody input.length ⟨[], answers⟩ s = .next (v, e) ∧ outputOf e <+: input ∧
      ∀ k part, k ≤ input.length → encodeData (codeOf (extractCodes t)) (input.take k) = some part →
        ser t ++ part <+: bits → k ≤ (outputOf e).length := by
  by_cases htree : ser t <+: bits
  · obtain ⟨tail, rfl⟩ := htree
    have htail := (List.prefix_append_right_inj _).mp hbits
    have hfinal : ∃ v e, decompressBody input.length ⟨[], answers⟩ s = .next (v, e) ∧
        DecodesInitialPart (codeOf (extractCodes t)) input tail (outputOf e) := by
      cases t with
      | leaf sym f =>
        obtain ⟨u, hu⟩ := decompressBody_of_leaf_accepted h (mem_treeSymbols_of_encodeData hdata) haccept
        exact ⟨u, .finished input, hu, List.prefix_rfl, fun k _ hk _ _ => hk⟩
      | internal f l r =>
        obtain ⟨u, hu, hbody⟩ := decompressBody_of_internal h hcap
        obtain ⟨v, e, output, hv, hout, hpart⟩ := decodeLoop_of_truncated (out := ⟨[], answers⟩) hu hdata htail haccept
        rw [List.nil_append] at hout
        exact ⟨v, e, (hbody _ _).trans hv, hout ▸ hpart⟩
    obtain ⟨v, e, hv, hprefix, hall⟩ := hfinal
    exact ⟨v, e, hv, hprefix, fun k part hk hpart hin =>
      hall k part hk hpart ((List.prefix_append_right_inj _).mp hin)⟩
  · obtain ⟨x, hx⟩ := (List.prefix_or_prefix_of_prefix hbits (List.prefix_append (ser t) _)).resolve_right htree
    have hne : x ≠ [] := by
      rintro rfl
      rw [List.append_nil] at hx
      exact htree (hx ▸ List.prefix_rfl)
    obtain ⟨v, why, hv⟩ := decompressBody_of_cut h (truncatedTreeEndsBits t bits x hx.symm hne) input.length ⟨[], answers⟩
    exact ⟨v, _, hv, List.nil_prefix, fun k part _ _ hin => absurd ((List.prefix_append _ part).trans hin) htree⟩

end

/-! ## Artifacts -/

theorem artifact_eq {t : Tree} {input bytes : List Byte} (h : artifact t input = some bytes) :
    ∃ data, encodeData (codeOf (extractCodes t)) input = some data ∧
      bytes = headerBytes input.length ++ pack (ser t ++ data) := by
  obtain ⟨data, hdata, hbytes⟩ := Option.map_eq_some_iff.mp h
  exact ⟨data, hdata, hbytes.symm⟩

/-- An artifact's bits: its tree, its data, and the padding of the last byte. -/
theorem unpack_artifact (t : Tree) (data : Bits) :
    ∃ pad, unpack (pack (ser t ++ data)) = ser t ++ (data ++ pad) :=
  ⟨_, (unpack_pack _).trans (List.append_assoc _ _ _)⟩

/-- In front of a whole artifact of a non-empty input DECOMPRESS's body runs on the artifact's bits. -/
theorem decompress_of_artifact {t : Tree} {input : List Byte} {data : Bits} {d : State} (hne : input ≠ [])
    (hlen : input.length < 2 ^ 32) (hd : SourceDelivers d)
    (h : d.src.drop d.spos = headerBytes input.length ++ pack (ser t ++ data)) (policy : EmptyInputPolicy)
    (answers : List Answer) :
    ∃ s pad, Delivers s (ser t ++ (data ++ pad)) ∧
      decompress policy answers d = decompressBody input.length ⟨[], answers⟩ s := by
  obtain ⟨pad, hpad⟩ := unpack_artifact t data
  obtain ⟨s, hs, hrun⟩ := decompress_of_nonempty hne hd hlen h
  exact ⟨s, pad, hpad ▸ hs, hrun⟩

theorem decompress_whole {t : Tree} {input bytes : List Byte} {d : State} {answers : List Answer} (hne : input ≠ [])
    (hlen : input.length < 2 ^ 32) (hcap : treeNodes t ≤ Config.nodeCap) (hart : artifact t input = some bytes)
    (hd : SourceDelivers d) (h : d.src.drop d.spos = bytes) (haccept : OutputAccepts answers) (policy : EmptyInputPolicy) :
    ∃ v, decompress policy answers d = .next (v, .finished input) := by
  obtain ⟨data, hdata, rfl⟩ := artifact_eq hart
  obtain ⟨s, pad, hs, hrun⟩ := decompress_of_artifact hne hlen hd h policy answers
  rw [hrun]
  exact decompressBody_of_whole hcap hdata hs haccept

/-- DECOMPRESS of a truncated artifact: nothing where its header is cut, else what its bits give. -/
theorem decompress_truncated {t : Tree} {input bytes : List Byte} {d : State} {answers : List Answer} (hne : input ≠ [])
    (hlen : input.length < 2 ^ 32) (hcap : treeNodes t ≤ Config.nodeCap) (hart : artifact t input = some bytes)
    (hd : SourceDelivers d) (h : d.src.drop d.spos <+: bytes) (haccept : OutputAccepts answers) (policy : EmptyInputPolicy) :
    ∃ v e, decompress policy answers d = .next (v, e) ∧ outputOf e <+: input ∧
      ∀ k data, k ≤ input.length → encodeData (codeOf (extractCodes t)) (input.take k) = some data →
        ser t ++ data <+: unpack (d.src.drop (d.spos + 4)) → k ≤ (outputOf e).length := by
  obtain ⟨data, hdata, rfl⟩ := artifact_eq hart
  rw [← List.drop_drop]
  by_cases hheader : headerBytes input.length <+: d.src.drop d.spos
  · obtain ⟨rest, hrest⟩ := hheader
    obtain ⟨pad, hpad⟩ := unpack_artifact t data
    obtain ⟨s, hs, hrun⟩ := decompress_of_nonempty (policy := policy) (answers := answers) hne hd hlen hrest.symm
    have hbits : unpack rest <+: ser t ++ (data ++ pad) := by
      rw [← hrest] at h
      obtain ⟨more, hmore⟩ := (List.prefix_append_right_inj _).mp h
      exact ⟨unpack more, by rw [← unpack_append, hmore, hpad]⟩
    rw [hrun, ← hrest, List.drop_left' (by rfl)]
    exact decompressBody_of_truncated hcap hdata hs hbits haccept
  · have hcut := (List.prefix_or_prefix_of_prefix h (List.prefix_append _ _)).resolve_right hheader
    have hshort : (d.src.drop d.spos).length < 4 :=
      Nat.lt_of_not_le fun hle => hheader (hcut.eq_of_length_le hle ▸ List.prefix_rfl)
    obtain ⟨v, why, hrun⟩ := decompress_of_short (policy := policy) (answers := answers) hd hshort
    refine ⟨v, _, hrun, List.nil_prefix, fun k part _ _ hin => ?_⟩
    rw [List.drop_eq_nil_of_le hshort.le] at hin
    have hser := (List.prefix_append (ser t) part).trans hin
    have hnodes := (treeNodes_pos t).trans_le (treeNodes_le_ser_length t)
    rw [List.prefix_nil.mp hser] at hnodes
    exact absurd hnodes (Nat.lt_irrefl 0)

/-- An output that does not accept the byte after `k` accepted ones ends the run there. -/
theorem decompress_refused {t : Tree} {input bytes : List Byte} {d : State} {k : Nat} (hlen : input.length < 2 ^ 32)
    (hcap : treeNodes t ≤ Config.nodeCap) (hart : artifact t input = some bytes) (hd : SourceDelivers d)
    (h : d.src.drop d.spos = bytes) (hk : k < input.length) (policy : EmptyInputPolicy) (a : Answer) (rest : List Answer) :
    ∃ x u later cont, decompress policy (List.replicate k .ok ++ a :: rest) d =
      writeOutput (x :: later) ⟨input.take k, a :: rest⟩ u cont := by
  obtain ⟨data, hdata, rfl⟩ := artifact_eq hart
  have hne : input ≠ [] := List.ne_nil_of_length_pos ((Nat.zero_le k).trans_lt hk)
  obtain ⟨s, pad, hs, hrun⟩ := decompress_of_artifact hne hlen hd h policy (List.replicate k .ok ++ a :: rest)
  have htake : (input.take k).length = k := List.length_take_of_le hk.le
  have hsplit : input = input.take k ++ input[k] :: input.drop (k + 1) := by
    rw [List.getElem_cons_drop, List.take_append_drop]
  obtain ⟨u, later, cont, hbody⟩ := decompressBody_offers hcap hdata hs hsplit
    (by rw [htake]; exact acceptsNext_replicate k (a :: rest))
  rw [htake, List.drop_left' (List.length_replicate ..)] at hbody
  exact ⟨_, u, later, cont, hrun.trans hbody⟩

/-- DECOMPRESS of the empty input's artifact, under the policy that wrote it (43_host_pipelines.md R134). -/
theorem decompress_empty {policy : EmptyInputPolicy} {answers : List Answer} {d : State} (hd : SourceDelivers d)
    (h : d.src.drop d.spos = headerBytes 0 ++ pack policy.written) :
    ∃ v, decompress policy answers d = .next (v, .finished []) := by
  obtain ⟨s, hs, hrun⟩ := decompress_of_header (policy := policy) (answers := answers) hd (by decide) h
  rw [hrun]
  split
  next => exact ⟨s, rfl⟩
  next hnot =>
    have hreads := policy.readable (Bool.not_eq_false _ ▸ fun hno => hnot ⟨rfl, hno⟩)
    rw [beginsWithTree] at hreads
    split at hreads
    next t rest hdes =>
      obtain ⟨hser, _⟩ := des_sound hdes
      rw [hser] at hs
      cases t with
      | leaf sym f =>
        obtain ⟨u, hbody⟩ := decompressBody_of_leaf hs
        exact ⟨u, hbody _ _⟩
      | internal f l r =>
        obtain ⟨u, _, hbody⟩ := decompressBody_of_internal hs (of_decide_eq_true hreads)
        exact ⟨u, hbody _ _⟩
    next => cases hreads

end Sys2Proof.Machine

namespace Sys2Proof
open Sys2Proof.Machine

/-- Settles O59: whole artifacts by `decompress_whole`, truncated ones by `decompress_truncated`, an output that refuses or
does not answer by `decompress_refused`; what every run keeps by `decompress_next`. -/
theorem decompressReadsTheArtifact : Obligations.DecompressReadsTheArtifact := by
  intro policy d
  refine ⟨fun t input bytes hne hlen hcap hart hd hprefix => ⟨fun answers haccept => ⟨fun h => ?_, ?_⟩, fun k rest h hk => ?_⟩,
    fun answers v out h => decompressRunOver_of_finished h, fun answers v e h => (decompress_next h).1⟩
  · exact decompress_whole hne hlen hcap hart hd h haccept policy
  · exact decompress_truncated hne hlen hcap hart hd hprefix haccept policy
  · refine ⟨fun e => ?_, ?_⟩
    · obtain ⟨x, u, later, cont, hrun⟩ := decompress_refused hlen hcap hart hd h hk policy (.fail e) rest
      exact ⟨u, hrun⟩
    · obtain ⟨x, u, later, cont, hrun⟩ := decompress_refused hlen hcap hart hd h hk policy .never rest
      exact hrun

/-- Settles O60: the sink gains an artifact (`CompressRunOver.written`), from which DECOMPRESS makes the input. -/
theorem compressDecompressRoundTrip : Obligations.CompressDecompressRoundTrip := by
  intro order policy input s hlen haccept
  obtain ⟨u, hover⟩ := exists_compressRunOver order policy (input := ⟨input, none, none⟩) hlen haccept rfl rfl
  obtain ⟨_, _, _, hgain⟩ := hover.written
  refine ⟨u, compress_of_runOver hover, fun d hd hsrc answers hanswers => ?_⟩
  by_cases hempty : input = []
  · rw [if_pos hempty, List.append_assoc] at hgain
    rw [hgain, List.drop_left] at hsrc
    subst hempty
    exact decompress_empty hd hsrc
  · rw [if_neg hempty] at hgain
    obtain ⟨t, bytes, htree, hart, hsnk⟩ := hgain
    rw [hsnk, List.drop_left] at hsrc
    obtain ⟨t', ht', hcap, _⟩ := buildTree_of_input order hempty
    obtain rfl := Option.some.inj (ht'.symm.trans htree)
    exact decompress_whole hempty hlen hcap hart hd hsrc hanswers policy

end Sys2Proof
end
